-- ==== Sys2Proof/Word.lean ====
section
/-! DEFINITION. The word types of the block's ports and of the device's registers
(spec/10_state.md R18, R19, R23; widths of spec/00_scope.md R10). -/

namespace Sys2Proof

/-- One register-image byte (`BYTE_W` = 8) or calendar field port (`FIELD_W`, `MON_W` = 8). -/
abbrev Byte := BitVec 8

/-- A 7-byte time-block image on a 56-bit port, byte `k` at bits `[8k+7:8k]` (R23, R50). -/
abbrev Image := BitVec 56

/-- A year port (`YEAR_W` = 16). -/
abbrev Year := BitVec 16

/-- The delay ports (`W_SEC` = 32, two's complement). -/
abbrev Delay := BitVec 32

/-- An operation code (`OP_W` = 3, R62). -/
abbrev OpCode := BitVec 3

end Sys2Proof
end

