-- ==== Sys2Proof/Syntax.lean ====
section
/-! DEFINITION. What is written down and presented: the block's operations (spec/30_encoding.md R62 to R69), its ports
(spec/10_state.md R18 to R20), and the host's statements, programs and public operations (spec/30_encoding.md R70, R71). -/

namespace Sys2Proof

/-- The six operations by name (R63). -/
inductive Mnemonic where
  | bcdDec | bcdEnc | tbUnpack | tbPack | cdSelect | ctrl2Ack
  deriving DecidableEq, Repr

/-- One operation with the operands it reads, and no others (R62, R64, R65): one constructor per row of the opcode table. -/
inductive Instr where
  /-- BCD_DEC (R73). -/
  | bcdDec (a : Byte)
  /-- BCD_ENC (R74). -/
  | bcdEnc (a : Byte)
  /-- TB_UNPACK (R81). -/
  | tbUnpack (img : Image)
  /-- TB_PACK (R82); the month is two's complement and 0-based. -/
  | tbPack (sec mins hour mday wday mon : Byte) (year : Year)
  /-- CD_SELECT (R88); the delay is two's complement. -/
  | cdSelect (secs : Delay) (a : Byte)
  /-- CTRL2_ACK (R96). -/
  | ctrl2Ack (a : Byte)
  deriving DecidableEq, Repr

/-- The operand input ports of R18 (every input port but `op`). -/
inductive InPort where
  | a | imgI | secI | minI | hourI | mdayI | wdayI | monI | yearI | secsI
  deriving DecidableEq, Repr

/-- The output ports of R19 and R20. -/
inductive OutPort where
  | y | imgO | secO | minO | hourO | mdayO | wdayO | monO | yearO
  | tctlO | tcntO | ctrl2O | appliedO | weTcnt | dis | resMin | oor | ill
  deriving DecidableEq, Repr

/-- The values on the input ports (R18). This tuple is the whole encoding of an operation: there is no other
instruction word (R62). -/
structure Inputs where
  op    : OpCode
  a     : Byte
  imgI  : Image
  secI  : Byte
  minI  : Byte
  hourI : Byte
  mdayI : Byte
  wdayI : Byte
  monI  : Byte
  yearI : Year
  secsI : Delay
  deriving DecidableEq, Repr

/-- An operand value as the assembler syntax of R69 writes it: a number, or an image as its bytes 0, 1, ... in braces. -/
inductive Value where
  | num (v : Int)
  | image (bytes : List Int)
  deriving DecidableEq, Repr

/-- An operation as it is written (R69): the mnemonic and its `port=value` pairs. -/
structure Written where
  mnemonic : Mnemonic
  operands : List (InPort × Value)
  deriving DecidableEq, Repr

/-! ### The host -/

/-- How a transaction of R46 ends. `never` is the stuck bus transaction of R102. -/
inductive BusOutcome where
  | ok | error | never
  deriving DecidableEq, Repr, Inhabited

/-- HOST_ERR_POLICY (R100). -/
inductive ErrPolicy where
  | swallow | firstFailure
  deriving DecidableEq, Repr

/-- A calendar time in the host's integers (R22): the month is 0-based, the year absolute. -/
structure CalendarTime where
  sec  : Int
  mins : Int
  hour : Int
  mday : Int
  wday : Int
  mon  : Int
  year : Int
  deriving DecidableEq, Repr

/-- A host value expression of R70: a number, a host variable, an output port of the last block operation, or one of the
operators of spec/00_scope.md part 4. R70 does not say which operators an expression may use: that it is these is the
model's choice (DESIGN CHOICE, log entry 18; safe). -/
inductive Expr where
  | lit (v : Int)
  | var (x : Nat)
  | port (p : OutPort)
  /-- `e & f`. -/
  | band (e f : Expr)
  /-- `e | f`. -/
  | bor (e f : Expr)
  /-- `e ^ f`. -/
  | bxor (e f : Expr)
  /-- `~e` on a value of `w` bits. -/
  | bnot (w : Nat) (e : Expr)
  | add (e f : Expr)
  | sub (e f : Expr)
  | mul (e f : Expr)
  /-- `e div f`. -/
  | div (e f : Expr)
  /-- `e mod f`. -/
  | mod (e f : Expr)
  /-- `min(e, f)`. -/
  | min (e f : Expr)
  /-- `e[hi:lo]`; `e[i]` is `e[i:i]` and `trunc_N(e)` is `e[N-1:0]`. With `hi` below `lo` its value is free (log entry 18). -/
  | slice (e : Expr) (hi lo : Nat)
  /-- The concatenation of `e` and `f`, `f` being of `w` bits. -/
  | concat (e : Expr) (w : Nat) (f : Expr)
  /-- `signed_N(e)`, with `N` = `w`. -/
  | signed (w : Nat) (e : Expr)
  deriving DecidableEq, Repr

/-- A host condition of R70: a comparison of two values, "intPin is a valid pin" of R104, and their combinations. R70 does
not say what a condition may test: beyond `=` and `!=` (spec/95_test_vectors.md P1, P4) and the pin's test (R104), that it is
these is the model's choice (DESIGN CHOICE, log entry 18; safe). -/
inductive Cond where
  | eq (e f : Expr)
  | ne (e f : Expr)
  | lt (e f : Expr)
  | le (e f : Expr)
  | validPin
  | and (c d : Cond)
  | or (c d : Cond)
  | not (c : Cond)
  deriving DecidableEq, Repr

/-- What a `RET` returns (R70; the results of R104 to R109). R70 does not say which results a caller's own program may name:
that it is one of these, and that a TransportError is returned only by the transaction that ends the call, is the model's
choice (DESIGN CHOICE, log entry 30; safe). -/
inductive RetExpr where
  /-- `success`. -/
  | success
  /-- A caller's own `out_of_range` (spec/95_test_vectors.md P4). -/
  | outOfRange
  /-- A host value. -/
  | value (e : Expr)
  /-- The calendar outputs of TB_UNPACK with the daylight-saving flag false (R105). -/
  | calendar
  deriving DecidableEq, Repr

/-- The host statements of R70, the block operation and `configureAsInput(intPin)` (R104) among them. R70 does not say whether
the `reg` and `n` of RD and the `reg` of WR may be computed: that they are constants, as in every program of the spec, is the
model's choice (DESIGN CHOICE, log entry 30; safe). -/
inductive Stmt where
  | rd (reg n : Nat) (x : Nat)
  | wr (reg : Nat) (bytes : List Expr)
  | assign (x : Nat) (e : Expr)
  | ifGoto (c : Cond) (label : Nat)
  | goto (label : Nat)
  | ret (r : RetExpr)
  | block (m : Mnemonic) (args : List (InPort × Expr))
  | configureAsInput
  deriving DecidableEq, Repr

/-- A line of a host program: a statement, and the label that marks it if there is one (R70). That two lines may bear one
label is the model's choice (log entry 28). -/
structure Line where
  label : Option Nat
  stmt  : Stmt
  deriving DecidableEq, Repr

/-- A host program (R70). -/
abbrev Program := List Line

/-- A call of the host: the six public operations (R71, R104 to R109), or a program of the caller's own (R70). The spec gives
pin numbers no type and no range (91 N16): that they are integers is the model's choice (DESIGN CHOICE, log entry 29; safe). -/
inductive HostCall where
  | initializeRtc (sclPin sdaPin : Int) (intPin : Option Int)
  | getTime
  | setTime (t : CalendarTime)
  | setCountdownAlarm (afterSeconds : Int)
  | clearAlarmFlag
  | disableAlarm
  | custom (p : Program)
  deriving DecidableEq, Repr

/-- What a host call returns (R104 to R109; R115). -/
inductive HostResult where
  | success
  | transportError
  | value (v : Int)
  | time (t : CalendarTime) (dst : Bool)
  /-- A caller's own check (P4). -/
  | outOfRange
  /-- A value too wide for its port, rejected by the host (R65, R103). -/
  | rejected
  deriving DecidableEq, Repr

end Sys2Proof
end

