-- ==== Sys2Proof/Config.lean ====
section
/-! DEFINITION. What the spec leaves open: the free values behind every `ANY_N` (spec/00_scope.md R11) and the open
parameters of R10. Each is an opaque constant, so no proof can rest on a value of it. -/

namespace Sys2Proof

/-- Which weekday a weekday number names: the type of `WEEKDAY_ZERO` (R22). -/
inductive Weekday where
  | sunday | monday | tuesday | wednesday | thursday | friday | saturday
  deriving DecidableEq, Repr, Inhabited

/-- `ANY_N` on an output port, at one draw (R11, R21). DESIGN CHOICE, log entry 4; safe: any value. -/
opaque Config.anyBits (p : OutPort) (draw : Nat) (w : Nat) : BitVec w

/-- `ANY_1` on a one-bit output port, at one draw (R11, R21). DESIGN CHOICE, log entry 4; safe: any value. -/
opaque Config.anyBit (p : OutPort) (draw : Nat) : Bool

/-- `ANY_8` for a device register's byte, at one draw (R53, R101; 92 D17). DESIGN CHOICE, log entry 7; safe: any value. -/
opaque Config.anyRegister (draw addr : Nat) : Byte

/-- How a transaction ends where the state's `bus` input does not say (R46). DESIGN CHOICE, log entry 11; safe: any
outcome. -/
opaque Config.busOutcome (draw : Nat) : BusOutcome

/-- A host variable no statement has set yet. DESIGN CHOICE, log entry 18; safe: any value. -/
opaque Config.unsetVariable (x : Nat) : Int

/-- `a div 0` in a host expression, which spec/00_scope.md part 4 does not state. DESIGN CHOICE, log entry 18; safe: any
value. -/
opaque Config.divByZero (a : Int) : Int

/-- `a mod 0` in a host expression, which spec/00_scope.md part 4 does not state. DESIGN CHOICE, log entry 18; safe: any
value. -/
opaque Config.modByZero (a : Int) : Int

/-- A slice `v[hi:lo]` with `hi` below `lo` in a host expression, which spec/00_scope.md part 4 does not define. DESIGN CHOICE,
log entry 18; safe: any value. -/
opaque Config.reversedSlice (v : Int) (hi lo : Nat) : Int

/-- The open host parameter `PIN_VALID` (R104; 92 D24). DESIGN CHOICE, log entry 19; safe: any predicate. That it is of
integers is log entry 29. -/
opaque Config.pinValid (pin : Int) : Bool

/-- The open parameter `WEEKDAY_ZERO` (R10, R22; 92 D21). No rule of the block reads it (log entry 19). -/
opaque Config.weekdayZero : Weekday

/-- The open parameter `T_PD` (R10, R142; 92 D22). No rule depends on it (log entry 19). -/
opaque Config.propagationDelay : Nat

end Sys2Proof
end

