-- ==== Sys2Proof/WellFormed.lean ====
section
/-! DEFINITION. Which terms of Syntax.lean are well formed: written operations (spec/30_encoding.md R64, R65, R69),
host programs (R70) and host calls (spec/43_host_sequences.md R103). -/

namespace Sys2Proof

/-- The ports each operation reads, in the order of R64. -/
def Mnemonic.reads : Mnemonic → List InPort
  | .bcdDec => [.a]
  | .bcdEnc => [.a]
  | .tbUnpack => [.imgI]
  | .tbPack => [.secI, .minI, .hourI, .mdayI, .wdayI, .monI, .yearI]
  | .cdSelect => [.secsI, .a]
  | .ctrl2Ack => [.a]

/-- The range of values a port carries (R65): least and one more than the greatest. -/
def InPort.range : InPort → Int × Int
  | .a | .secI | .minI | .hourI | .mdayI | .wdayI => (0, 256)
  | .monI => (-128, 128)
  | .yearI => (0, 65536)
  | .secsI => (-2147483648, 2147483648)
  | .imgI => (0, 72057594037927936)

/-- The value fits the port (R65). -/
abbrev InPort.Fits (p : InPort) (v : Int) : Prop := p.range.1 ≤ v ∧ v < p.range.2

/-- A written value has the port's form and fits it: an image is its seven bytes, every other value a number (R65, R69). -/
def Value.fits (p : InPort) : Value → Bool
  | .num v => decide (p ≠ .imgI) && decide (p.Fits v)
  | .image bs => decide (p = .imgI) && bs.length == 7 && bs.all fun b => decide (0 ≤ b ∧ b < 256)

/-- A written operation names the ports it reads, in the order of R64, each with a value that fits it (R65, R69). -/
def Written.wf (w : Written) : Bool :=
  decide (w.operands.map Prod.fst = w.mnemonic.reads) && w.operands.all fun o => o.2.fits o.1

/-- The access lies inside the device's 16 registers (R44; 92 D17). An access of no byte, of which the spec is silent, is taken
to do so at an address up to 0x10 and not from 0x11 up (DESIGN CHOICE, log entry 27; safe). -/
abbrev InDevice (reg n : Nat) : Prop := reg + n ≤ 16

/-- Some line of the program bears the label (R70); more than one may (DESIGN CHOICE, log entry 28; safe). -/
def Program.hasLabel (p : Program) (l : Nat) : Bool := p.any fun line => line.label == some l

/-- A statement is well formed in its program: accesses of at least one byte inside the device (an access of no byte is
log entry 27), labels that exist, and the operand ports of R64 on a block operation. -/
def Stmt.wf (p : Program) : Stmt → Bool
  | .rd reg n _ => decide (InDevice reg n) && decide (1 ≤ n)
  | .wr reg bytes => decide (InDevice reg bytes.length) && decide (1 ≤ bytes.length)
  | .assign _ _ => true
  | .ifGoto _ l => p.hasLabel l
  | .goto l => p.hasLabel l
  | .ret _ => true
  | .block m args => decide (args.map Prod.fst = m.reads)
  | .configureAsInput => true

/-- The statement does not fall through to the next line. -/
def Stmt.ends : Stmt → Bool
  | .ret _ | .goto _ => true
  | .rd _ _ _ | .wr _ _ | .assign _ _ | .ifGoto _ _ | .block _ _ | .configureAsInput => false

/-- A host program is well formed: every statement is, and the last line does not fall off the end (R70). -/
def Program.wf (p : Program) : Bool :=
  p.all (fun line => line.stmt.wf p) &&
    match p.getLast? with
    | some line => line.stmt.ends
    | none => false

/-- The fields fit the calendar ports of TB_PACK (R65, R103). -/
abbrev CalendarTime.Fits (t : CalendarTime) : Prop :=
  InPort.secI.Fits t.sec ∧ InPort.minI.Fits t.mins ∧ InPort.hourI.Fits t.hour ∧ InPort.mdayI.Fits t.mday ∧
    InPort.wdayI.Fits t.wday ∧ InPort.monI.Fits t.mon ∧ InPort.yearI.Fits t.year

/-- The fields are in the nominal ranges of R22, the year in 2000 to 2099 (R85). -/
abbrev CalendarTime.Nominal (t : CalendarTime) : Prop :=
  (0 ≤ t.sec ∧ t.sec ≤ 59) ∧ (0 ≤ t.mins ∧ t.mins ≤ 59) ∧ (0 ≤ t.hour ∧ t.hour ≤ 23) ∧ (1 ≤ t.mday ∧ t.mday ≤ 31) ∧
    (0 ≤ t.wday ∧ t.wday ≤ 6) ∧ (0 ≤ t.mon ∧ t.mon ≤ 11) ∧ (2000 ≤ t.year ∧ t.year ≤ 2099)

/-- The call's values fit the ports they will be presented on; the host rejects a call of which this is false (R103). -/
def HostCall.fits : HostCall → Bool
  | .setTime t => decide t.Fits
  | .setCountdownAlarm n => decide (InPort.secsI.Fits n)
  | .initializeRtc _ _ _ | .getTime | .clearAlarmFlag | .disableAlarm | .custom _ => true

/-- A call is well formed: a program of the caller's own is (R70). -/
def HostCall.wf : HostCall → Bool
  | .custom p => Program.wf p
  | .initializeRtc _ _ _ | .getTime | .setTime _ | .setCountdownAlarm _ | .clearAlarmFlag | .disableAlarm => true

end Sys2Proof
end

