-- ==== Sys2Proof/Decode.lean ====
section
/-! DEFINITION. The encoding of operations on the input ports (spec/30_encoding.md R62 to R69): the decoder, total on any
port values and rejecting the reserved codes by name, and after it the encoder and the written form. -/

namespace Sys2Proof

/-- Why port values or a table word are no operation. -/
inductive DecodeError where
  /-- `op` is one of the reserved codes 0b110 and 0b111 (R66). -/
  | reserved (op : OpCode)
  /-- A word with bits outside the 3-bit `op` field (R62). -/
  | notAnOpCode (w : Nat)
  deriving DecidableEq, Repr

/-- The operation `op` selects, and the reserved codes (R63, R66). -/
def decodeOp (op : OpCode) : Except DecodeError Mnemonic :=
  match op.toNat with
  | 0 => .ok .bcdDec
  | 1 => .ok .bcdEnc
  | 2 => .ok .tbUnpack
  | 3 => .ok .tbPack
  | 4 => .ok .cdSelect
  | 5 => .ok .ctrl2Ack
  | _ => .error (.reserved op)

/-- The operation of this name with the operands it reads from the ports (R64, R65). -/
def Mnemonic.readFrom (m : Mnemonic) (p : Inputs) : Instr :=
  match m with
  | .bcdDec => .bcdDec p.a
  | .bcdEnc => .bcdEnc p.a
  | .tbUnpack => .tbUnpack p.imgI
  | .tbPack => .tbPack p.secI p.minI p.hourI p.mdayI p.wdayI p.monI p.yearI
  | .cdSelect => .cdSelect p.secsI p.a
  | .ctrl2Ack => .ctrl2Ack p.a

/-- The operation presented on the input ports (R62, R63, R64). -/
def decode (p : Inputs) : Except DecodeError Instr :=
  match decodeOp p.op with
  | .ok m => .ok (m.readFrom p)
  | .error e => .error e

/-! ### The encoder -/

/-- Every input port at zero. -/
def Inputs.zero : Inputs :=
  { op := 0, a := 0, imgI := 0, secI := 0, minI := 0, hourI := 0, mdayI := 0, wdayI := 0, monI := 0, yearI := 0,
    secsI := 0 }

/-- The operation's name. -/
def Instr.mnemonic : Instr → Mnemonic
  | .bcdDec _ => .bcdDec
  | .bcdEnc _ => .bcdEnc
  | .tbUnpack _ => .tbUnpack
  | .tbPack _ _ _ _ _ _ _ => .tbPack
  | .cdSelect _ _ => .cdSelect
  | .ctrl2Ack _ => .ctrl2Ack

/-- The operation code of R63. -/
def Mnemonic.code : Mnemonic → OpCode
  | .bcdDec => 0b000
  | .bcdEnc => 0b001
  | .tbUnpack => 0b010
  | .tbPack => 0b011
  | .cdSelect => 0b100
  | .ctrl2Ack => 0b101

/-- Present an operation: drive `op` and the ports the operation reads, and leave the other ports, which are don't-care,
as they are (R16, R64). -/
def Instr.presentOn (i : Instr) (p : Inputs) : Inputs :=
  match i with
  | .bcdDec a => { p with op := 0b000, a := a }
  | .bcdEnc a => { p with op := 0b001, a := a }
  | .tbUnpack img => { p with op := 0b010, imgI := img }
  | .tbPack sec mins hour mday wday mon year =>
    { p with op := 0b011, secI := sec, minI := mins, hourI := hour, mdayI := mday, wdayI := wday, monI := mon,
             yearI := year }
  | .cdSelect secs a => { p with op := 0b100, secsI := secs, a := a }
  | .ctrl2Ack a => { p with op := 0b101, a := a }

/-- The port values of an operation, every don't-care port at zero. -/
def encode (i : Instr) : Inputs := i.presentOn Inputs.zero

/-- The operation the decoder reads from a table word: bits 2:0 are `op`, and no other bit exists (R62). The operand
ports are zero. -/
def decodeTableWord (_nbits w : Nat) : Option Instr :=
  if w < 8 then (decode { Inputs.zero with op := BitVec.ofNat 3 w }).toOption else none

/-! ### The written form (R69) -/

/-- The number of an image written as its bytes 0, 1, ... (R23, R69). -/
def imageNumber : List Int → Int
  | [] => 0
  | b :: bs => b + 256 * imageNumber bs

/-- A written value as the number presented on the port. -/
def Value.number : Value → Int
  | .num v => v
  | .image bs => imageNumber bs

/-- Drive one port with a number, in two's complement where it is negative (R65). -/
def Inputs.drive (p : Inputs) : InPort → Int → Inputs
  | .a, v => { p with a := BitVec.ofInt 8 v }
  | .imgI, v => { p with imgI := BitVec.ofInt 56 v }
  | .secI, v => { p with secI := BitVec.ofInt 8 v }
  | .minI, v => { p with minI := BitVec.ofInt 8 v }
  | .hourI, v => { p with hourI := BitVec.ofInt 8 v }
  | .mdayI, v => { p with mdayI := BitVec.ofInt 8 v }
  | .wdayI, v => { p with wdayI := BitVec.ofInt 8 v }
  | .monI, v => { p with monI := BitVec.ofInt 8 v }
  | .yearI, v => { p with yearI := BitVec.ofInt 16 v }
  | .secsI, v => { p with secsI := BitVec.ofInt 32 v }

/-- Drive several ports, one after another. -/
def Inputs.driveAll (p : Inputs) : List (InPort × Int) → Inputs
  | [] => p
  | o :: os => (p.drive o.1 o.2).driveAll os

/-- The operation with these operand numbers; none where the ports are not those of R64 or a number is too wide for its
port (R65). -/
def Mnemonic.assemble (m : Mnemonic) (operands : List (InPort × Int)) : Option Instr :=
  if operands.map Prod.fst = m.reads ∧ ∀ o ∈ operands, o.1.Fits o.2 then
    some (m.readFrom (Inputs.zero.driveAll operands))
  else none

/-- The operation that is written (R69); none for an ill-formed term. -/
def Written.toInstr (w : Written) : Option Instr :=
  if w.wf then w.mnemonic.assemble (w.operands.map fun o => (o.1, o.2.number)) else none

/-- Byte `k` of an image, as a number (R23). -/
def imageByteNumber (img : Image) (k : Nat) : Int := (img.extractLsb' (8 * k) 8).toNat

/-- How an operation is written (R69). -/
def Instr.written : Instr → Written
  | .bcdDec a => ⟨.bcdDec, [(.a, .num a.toNat)]⟩
  | .bcdEnc a => ⟨.bcdEnc, [(.a, .num a.toNat)]⟩
  | .tbUnpack img => ⟨.tbUnpack, [(.imgI, .image ((List.range 7).map (imageByteNumber img)))]⟩
  | .tbPack sec mins hour mday wday mon year =>
    ⟨.tbPack, [(.secI, .num sec.toNat), (.minI, .num mins.toNat), (.hourI, .num hour.toNat), (.mdayI, .num mday.toNat),
      (.wdayI, .num wday.toNat), (.monI, .num mon.toInt), (.yearI, .num year.toNat)]⟩
  | .cdSelect secs a => ⟨.cdSelect, [(.secsI, .num secs.toInt), (.a, .num a.toNat)]⟩
  | .ctrl2Ack a => ⟨.ctrl2Ack, [(.a, .num a.toNat)]⟩

/-! ### The text of R69 -/

/-- The mnemonic's text (R63). -/
def Mnemonic.text : Mnemonic → String
  | .bcdDec => "BCD_DEC"
  | .bcdEnc => "BCD_ENC"
  | .tbUnpack => "TB_UNPACK"
  | .tbPack => "TB_PACK"
  | .cdSelect => "CD_SELECT"
  | .ctrl2Ack => "CTRL2_ACK"

/-- The port's name in the assembler syntax (the examples of R69). -/
def InPort.text : InPort → String
  | .a => "a"
  | .imgI => "img"
  | .secI => "sec"
  | .minI => "min"
  | .hourI => "hour"
  | .mdayI => "mday"
  | .wdayI => "wday"
  | .monI => "mon"
  | .yearI => "year"
  | .secsI => "secs"

/-- The pieces joined by a separator. -/
def joinText (sep : String) : List String → String
  | [] => ""
  | [x] => x
  | x :: y :: xs => x ++ sep ++ joinText sep (y :: xs)

/-- A value in decimal; an image as its bytes between braces (characters 0x7B and 0x7D). -/
def Value.text : Value → String
  | .num v => toString v
  | .image bs =>
    String.ofList [Char.ofNat 0x7B] ++ joinText "," (bs.map fun b => toString b) ++ String.ofList [Char.ofNat 0x7D]

/-- The written operation as text (R69). -/
def Written.text (w : Written) : String :=
  w.mnemonic.text ++ " " ++ joinText ", " (w.operands.map fun o => o.1.text ++ "=" ++ o.2.text)

end Sys2Proof
end

