-- ==== Sys2Proof/Machine/State.lean ====
section
/-! DEFINITION. The state of the system: the block's ports (spec/10_state.md R18 to R20), the device's registers
(R25 to R37), the host (R38, R39; spec/43_host_sequences.md) and the inputs of the environment; the reasons a step can
stop; and the state after power-up (spec/70_reset_and_hazards.md R130, R131). -/

namespace Sys2Proof.Machine

/-- The values on the output ports (R19, R20). -/
structure Outputs where
  y        : Byte
  imgO     : Image
  secO     : Byte
  minO     : Byte
  hourO    : Byte
  mdayO    : Byte
  wdayO    : Byte
  monO     : Byte
  yearO    : Year
  tctlO    : Byte
  tcntO    : Byte
  ctrl2O   : Byte
  appliedO : Delay
  weTcnt   : Bool
  dis      : Bool
  resMin   : Bool
  oor      : BitVec 7
  ill      : Bool
  deriving DecidableEq, Repr

/-- Every data output at its free value of one draw, and the status outputs at 0 (R11, R20, R21). Each evaluation of the
block starts from one of these and writes the outputs its operation's rule writes. -/
def Outputs.draw (n : Nat) : Outputs :=
  { y := Config.anyBits .y n 8
    imgO := Config.anyBits .imgO n 56
    secO := Config.anyBits .secO n 8
    minO := Config.anyBits .minO n 8
    hourO := Config.anyBits .hourO n 8
    mdayO := Config.anyBits .mdayO n 8
    wdayO := Config.anyBits .wdayO n 8
    monO := Config.anyBits .monO n 8
    yearO := Config.anyBits .yearO n 16
    tctlO := Config.anyBits .tctlO n 8
    tcntO := Config.anyBits .tcntO n 8
    ctrl2O := Config.anyBits .ctrl2O n 8
    appliedO := Config.anyBits .appliedO n 32
    weTcnt := Config.anyBit .weTcnt n
    dis := Config.anyBit .dis n
    resMin := Config.anyBit .resMin n
    oor := 0
    ill := false }

/-- The device's register bytes, by register address: the registers whose content is known, in rising order. A register
that is not listed reads as a free value (R53, R131; 92 D17). -/
abbrev Memory := List Host.Cell

/-- The canonical form: addresses strictly rising. An unlisted register has no one value, so no entry can equal it. -/
abbrev Memory.wf (m : Memory) : Prop := m.Pairwise fun x y => x.1 < y.1

/-- The device (R25, R37; 92 D17). -/
structure Device where
  regs  : Memory
  /-- The premise `Quiet` of 92 D17: no register changes except by writes (log entry 8). -/
  quiet : Bool
  deriving DecidableEq, Repr

/-- The host's configuration (R38). -/
structure ControllerConfig where
  devAddr   : BitVec 7
  busPins   : Option (Int × Int)
  intPin    : Option Int
  errPolicy : ErrPolicy
  deriving DecidableEq, Repr

/-- A host call being run (R70, R71): its program, the next line, the host variables set so far, and whether a failed
transaction ends it (R100). -/
structure Activity where
  call       : HostCall
  program    : Program
  line       : Nat
  vars       : List (Nat × Int)
  propagates : Bool
  deriving DecidableEq, Repr

/-- The host, the Device Controller (R38, R39; 43). -/
structure Controller where
  config      : ControllerConfig
  scratch     : List Byte
  inputPins   : List Int
  initialised : Bool
  requests    : List HostCall
  activity    : Option Activity
  result      : Option HostResult
  deriving DecidableEq, Repr

/-- A transaction on the bus (R46): a read of `n` bytes, or a write of the bytes, from a register on. -/
inductive Transfer where
  | read (reg n : Nat)
  | write (reg : Nat) (bytes : List Byte)
  deriving DecidableEq, Repr

/-- A completed transaction: the bus address (R13), the transfer, and whether it succeeded. -/
structure BusEvent where
  devAddr  : BitVec 7
  transfer : Transfer
  ok       : Bool
  deriving DecidableEq, Repr

/-- The whole state. -/
structure State where
  /-- The input ports (R18). -/
  inputs  : Inputs
  /-- The output ports, as the latest evaluation left them (R19, R20). -/
  outputs : Outputs
  /-- The next draw of free values: the model's own field (log entry 4). -/
  draws   : Nat
  device  : Device
  host    : Controller
  /-- The outcomes of the coming transactions, oldest first (log entry 11). -/
  bus     : List BusOutcome
  /-- The register writes of other callers and agents, one list for each coming step (log entry 15). -/
  others  : List (List Host.Cell)
  /-- The completed transactions, oldest first: the model's own history (log entry 24). -/
  busLog  : List BusEvent
  deriving DecidableEq, Repr

/-- Why the machine stops. -/
inductive Fault where
  /-- A step whose input ports hold a reserved `op` (R66, R117); it carries what the block shows. Safe. -/
  | illegalOp (op : OpCode) (shown : Outputs)
  /-- A transaction that never completes: the host is stuck (R102). Safe. -/
  | stuckTransaction
  deriving DecidableEq, Repr

/-- What has no meaning in the spec. -/
inductive Refusal where
  /-- An instruction without a meaning yet. No arm raises it. Safe. -/
  | notModelled (mnemonic : String)
  /-- A host statement that accesses an address above 0x0F (R45, 91 N5). Safe. -/
  | unnamedRegister (reg n : Nat)
  /-- A `GOTO` to a label its program does not have: not a program of R70. Safe. -/
  | noSuchLabel (label : Nat)
  /-- A host program that runs off its last line: not a program of R70. Safe. -/
  | programEnded
  deriving DecidableEq, Repr

/-- The state right after power-up: the ports at zero (DESIGN CHOICE, log entry 3) and the outputs the function of them
(R130): BCD_DEC of 0x00 gives 0, and the outputs it does not write are free. The device's registers are unspecified
(R131), and the host is created with its default configuration and idle (R38, R100; log entries 8, 12, 14). -/
def State.reset : State :=
  { inputs := Inputs.zero
    outputs := { Outputs.draw 0 with y := 0, oor := 0, ill := false }
    draws := 1
    device := { regs := [], quiet := false }
    host :=
      { config := { devAddr := 0x51, busPins := none, intPin := none, errPolicy := .swallow }
        scratch := []
        inputPins := []
        initialised := false
        requests := []
        activity := none
        result := none }
    bus := []
    others := []
    busLog := [] }

end Sys2Proof.Machine
end

