-- ==== Sys2Proof/Machine/Operands.lean ====
section
/-! DEFINITION. How operand ports and register bytes are read and built: BCD digits (spec/40_bcd.md R72 to R74), image bytes
and lanes (spec/10_state.md R23, spec/41_time_block.md R78 to R80), and the number an output port stands for. -/

namespace Sys2Proof.Machine

/-- `CENTURY_BASE` (R10, R80). -/
def centuryBase : Int := 2000
/-- `CD_THRESHOLD` (R10, R91). -/
def cdThreshold : Int := 270
/-- `CD_MAX_TICKS` (R10). -/
def cdMaxTicks : Int := 255

/-- The tens digit's nibble, bits 7:4 (R51, R72). -/
def hiNibble (b : Byte) : Nat := (b.extractLsb' 4 4).toNat

/-- The units digit's nibble, bits 3:0 (R51, R72). -/
def loNibble (b : Byte) : Nat := (b.extractLsb' 0 4).toNat

/-- A valid BCD byte: both nibbles 0 to 9 (R72). -/
abbrev ValidBcd (b : Byte) : Prop := hiNibble b ≤ 9 ∧ loNibble b ≤ 9

/-- `decodeBCD`: high nibble × 10 + low nibble, for every byte (R73). -/
def decBcd (b : Byte) : Nat := hiNibble b * 10 + loNibble b

/-- `encodeBCD` on 0 to 99: tens in bits 7:4, units in bits 3:0 (R74). -/
def encBcd (v : Nat) : Byte := BitVec.ofNat 4 (v / 10) ++ BitVec.ofNat 4 (v % 10)

/-- The values one BCD byte encodes (R74, R83). -/
abbrev BcdEncodable (v : Int) : Prop := 0 ≤ v ∧ v ≤ 99

/-- One encoded lane: the BCD byte, or the free byte `any` outside 0 to 99 (R74, R82, R83). -/
def encLane (any : Byte) (v : Int) : Byte := if BcdEncodable v then encBcd v.toNat else any

/-- Byte `k` of an image, bits `[8k+7:8k]` (R23). -/
def imgByte (img : Image) (k : Nat) : Byte := img.extractLsb' (8 * k) 8

/-- The image of seven bytes, byte 0 in bits 7:0 (R23, R82). -/
def packImage (b0 b1 b2 b3 b4 b5 b6 : Byte) : Image := b6 ++ b5 ++ b4 ++ b3 ++ b2 ++ b1 ++ b0

/-- The decode mask of lane `k` (R23, R78); the year byte has none (92 D10). -/
def fieldMask : Nat → Byte
  | 0 => 0x7F
  | 1 => 0x7F
  | 2 => 0x3F
  | 3 => 0x3F
  | 4 => 0x07
  | 5 => 0x1F
  | _ => 0xFF

/-- Lane `k` of an image, masked and decoded (R78). -/
def laneValue (img : Image) (k : Nat) : Nat := decBcd (imgByte img k &&& fieldMask k)

/-- The device's 1-based month of the 0-based, two's complement month port (R65, R79). -/
def monthRegister (mon : Byte) : Int := mon.toInt + 1

/-- The year register's offset from 2000 (R80). -/
def yearOffset (year : Year) : Int := year.toNat - centuryBase

/-- The number an input port stands for: unsigned, but for the two's complement `mon_i` and `secs_i` (R18, R65). -/
def inputNumber (p : Inputs) : InPort → Int
  | .a => p.a.toNat
  | .imgI => p.imgI.toNat
  | .secI => p.secI.toNat
  | .minI => p.minI.toNat
  | .hourI => p.hourI.toNat
  | .mdayI => p.mdayI.toNat
  | .wdayI => p.wdayI.toNat
  | .monI => p.monI.toInt
  | .yearI => p.yearI.toNat
  | .secsI => p.secsI.toInt

/-- A one-bit port as a number. -/
def bitNumber (b : Bool) : Int := if b then 1 else 0

/-- The number an output port stands for: unsigned, but for the two's complement `mon_o` and `applied_o` (R19). -/
def Outputs.number (o : Outputs) : OutPort → Int
  | .y => o.y.toNat
  | .imgO => o.imgO.toNat
  | .secO => o.secO.toNat
  | .minO => o.minO.toNat
  | .hourO => o.hourO.toNat
  | .mdayO => o.mdayO.toNat
  | .wdayO => o.wdayO.toNat
  | .monO => o.monO.toInt
  | .yearO => o.yearO.toNat
  | .tctlO => o.tctlO.toNat
  | .tcntO => o.tcntO.toNat
  | .ctrl2O => o.ctrl2O.toNat
  | .appliedO => o.appliedO.toInt
  | .weTcnt => bitNumber o.weTcnt
  | .dis => bitNumber o.dis
  | .resMin => bitNumber o.resMin
  | .oor => o.oor.toNat
  | .ill => bitNumber o.ill

/-- The CalendarTime on the outputs of TB_UNPACK (R19, R22, R105). -/
def Outputs.calendar (o : Outputs) : CalendarTime :=
  { sec := o.secO.toNat, mins := o.minO.toNat, hour := o.hourO.toNat, mday := o.mdayO.toNat, wday := o.wdayO.toNat,
    mon := o.monO.toInt, year := o.yearO.toNat }

/-- The value of some bytes, the first in the low 8 bits (R23, R50). -/
def bytesNumber : List Byte → Nat
  | [] => 0
  | b :: bs => b.toNat + 256 * bytesNumber bs

end Sys2Proof.Machine
end

