-- ==== Sys2Proof/Machine/Flags.lean ====
section
/-! DEFINITION. The block's flags: the status outputs `oor` and `ill` (spec/10_state.md R20, spec/60_exceptions.md R113 to
R116). -/

namespace Sys2Proof.Machine

/-- `raise OutOfRange(k)` on one lane: bit `k` where the value is outside 0 to 99, else nothing (R12, R83, R114). -/
def oorLane (k : Nat) (v : Int) : BitVec 7 := if BcdEncodable v then 0 else BitVec.twoPow 7 k

/-- `oor` of TB_PACK: one bit per out-of-range lane, independently (R82, R116). -/
def oorLanes (v0 v1 v2 v3 v4 v5 v6 : Int) : BitVec 7 :=
  oorLane 0 v0 ||| oorLane 1 v1 ||| oorLane 2 v2 ||| oorLane 3 v3 ||| oorLane 4 v4 ||| oorLane 5 v5 ||| oorLane 6 v6

/-- The status of an operation that raises nothing: `oor` = 0, `ill` = 0 (R20). -/
def Outputs.clearStatus (o : Outputs) : Outputs := { o with oor := 0, ill := false }

/-- `oor` as computed, `ill` = 0 (R20, R116). -/
def Outputs.withOor (o : Outputs) (oor : BitVec 7) : Outputs := { o with oor := oor, ill := false }

end Sys2Proof.Machine
end

