-- ==== Sys2Proof/Machine/Ops.lean ====
section
/-! DEFINITION. The shared operations: evaluating the block (spec/10_state.md R14, R16, R21), the exceptional condition
IllegalOp (spec/00_scope.md R12), the device's registers (spec/20_memory.md R44 to R55; spec/92_eei_decisions.md D17) and the
transport's two transactions (R46). -/

namespace Sys2Proof.Machine

/-! ### The block -/

/-- The state after the block has evaluated an operation: its ports presented (R16), every output drawn afresh and the
operation's own outputs written over that (R11, R21). -/
def State.evaluated (i : Instr) (write : Outputs → Outputs) (s : State) : State :=
  { s with inputs := i.presentOn s.inputs, outputs := write (Outputs.draw s.draws), draws := s.draws + 1 }

/-- Performing an operation of the block: it always completes (R122). -/
def perform (i : Instr) (write : Outputs → Outputs) (s : State) : Host.Outcome State Fault Refusal :=
  .next (s.evaluated i write)

/-- `raise IllegalOp(op)`: `ill` = 1, `oor` = 0, and every data output keeps its free value (R12, R66, R116). The spec
has no trap entry beside this (R113, R118). -/
def Outputs.raiseIllegalOp (o : Outputs) : Outputs := { o with oor := 0, ill := true }

/-! ### Tables by number, for the device's registers and the host's variables -/

/-- The entry at a number. -/
def lookup {α : Type} : List (Nat × α) → Nat → Option α
  | [], _ => none
  | (k, v) :: m, a => if k = a then some v else lookup m a

/-- Set the entry at a number, keeping the numbers rising. -/
def store {α : Type} : List (Nat × α) → Nat → α → List (Nat × α)
  | [], a, v => [(a, v)]
  | (k, w) :: m, a, v =>
    if a < k then (a, v) :: (k, w) :: m
    else if a = k then (a, v) :: m
    else (k, w) :: store m a v

/-- Take out the entry at a number. -/
def erase {α : Type} : List (Nat × α) → Nat → List (Nat × α)
  | [], _ => []
  | (k, w) :: m, a => if k = a then erase m a else (k, w) :: erase m a

/-! ### The device's registers -/

/-- The registers the device has: the 16 of 92 D17, which R131 gives as 0x00 to 0x0F; 0x0D among them, of which R45 names no
use (log entry 10). -/
abbrev Holds (addr : Nat) : Prop := addr < 16

/-- Every known register is one of those. -/
abbrev Memory.inDevice (m : Memory) : Prop := ∀ c ∈ m, Holds c.1

/-- What an unlisted register reads as: the free byte of this draw (R53; 92 D17). -/
def Memory.unlisted (draw addr : Nat) : Byte := Config.anyRegister draw addr

/-- The bits of a register the device changes by itself: the time block, and the flag bits 3:2 of register 0x01; none
under `Quiet` (R55, R125; 92 D17). -/
def Device.volatileBits (d : Device) (addr : Nat) : Byte :=
  if d.quiet then 0
  else if 2 ≤ addr ∧ addr ≤ 8 then 0xFF
  else if addr = 1 then 0x0C
  else 0

/-- The byte a successful read of a register returns: the last byte written, its volatile bits drawn afresh; all drawn
where the content is not known (92 D17). -/
def Device.readByte (d : Device) (draw addr : Nat) : Byte :=
  match lookup d.regs addr with
  | none => Memory.unlisted draw addr
  | some b => (b &&& ~~~(d.volatileBits addr)) ||| (Memory.unlisted draw addr &&& d.volatileBits addr)

/-- A register takes a byte. -/
def Device.writeByte (d : Device) (addr : Nat) (b : Byte) : Device :=
  if Holds addr then { d with regs := store d.regs addr b } else d

/-- A register's content is no longer known (93 U6). -/
def Device.loseByte (d : Device) (addr : Nat) : Device := { d with regs := erase d.regs addr }

/-- After a read of a register whose content was not known, it is known under `Quiet`, since the register does not change;
without `Quiet` nothing is known (log entry 8). -/
def Device.afterRead (d : Device) (draw addr : Nat) : Device :=
  if d.quiet = true ∧ lookup d.regs addr = none then d.writeByte addr (Memory.unlisted draw addr) else d

/-- The bytes of a read of `n` registers in rising order (R47), all of one draw. -/
def Device.readBytes (d : Device) (draw reg : Nat) : Nat → List Byte
  | 0 => []
  | n + 1 => d.readByte draw reg :: Device.readBytes d draw (reg + 1) n

/-- The device after a read of `n` registers. -/
def Device.afterReads (d : Device) (draw reg : Nat) : Nat → Device
  | 0 => d
  | n + 1 => (d.afterRead draw reg).afterReads draw (reg + 1) n

/-- The bytes a failed read leaves the host with: `ANY_8` each (R101). -/
def anyBytes (draw reg : Nat) : Nat → List Byte
  | 0 => []
  | n + 1 => Config.anyRegister draw reg :: anyBytes draw (reg + 1) n

/-- Write bytes to registers in rising order (R46, R47). -/
def Device.writeBytes (d : Device) (reg : Nat) : List Byte → Device
  | [] => d
  | b :: bs => (d.writeByte reg b).writeBytes (reg + 1) bs

/-- A failed write of `n` bytes: none of its registers is known afterwards (91 N24; 93 U6). -/
def Device.loseBytes (d : Device) (reg : Nat) : Nat → Device
  | 0 => d
  | n + 1 => (d.loseByte reg).loseBytes (reg + 1) n

/-- Register writes by another caller or agent (R54, R136). -/
def Device.takeCells (d : Device) : List Host.Cell → Device
  | [] => d
  | c :: cs => (d.writeByte c.1 c.2).takeCells cs

/-- The register writes of other callers and agents that come before this step (log entry 15). -/
def State.landOthers (s : State) : State :=
  match s.others with
  | [] => s
  | cells :: rest => { s with device := s.device.takeCells cells, others := rest }

/-! ### The transport -/

/-- How the next transaction ends: as the `bus` input says, or freely where it says nothing (log entry 11). -/
def State.nextOutcome (s : State) : BusOutcome :=
  match s.bus with
  | o :: _ => o
  | [] => Config.busOutcome s.draws

/-- The transaction is over: its outcome is used up, it is in the log, and the host's scratch buffer holds the bytes it
staged (R39). -/
def State.completed (s : State) (t : Transfer) (ok : Bool) (staged : List Byte) : State :=
  { s with
    bus := s.bus.tail
    draws := s.draws + 1
    busLog := s.busLog ++ [{ devAddr := s.host.config.devAddr, transfer := t, ok := ok }]
    host := { s.host with scratch := staged } }

/-- The bytes a read transaction leaves the host with (R46, R101). -/
def State.readResult (s : State) (reg n : Nat) (ok : Bool) : List Byte :=
  if ok then s.device.readBytes s.draws reg n else anyBytes s.draws reg n

/-- `writeReadTransaction` (R46) that ended with success or TransportError. -/
def State.afterReadTransaction (s : State) (reg n : Nat) (ok : Bool) : State :=
  { s.completed (.read reg n) ok (s.readResult reg n ok) with
    device := if ok then s.device.afterReads s.draws reg n else s.device }

/-- `writeTransaction` (R46) that ended with success or TransportError; the staged bytes are the register address and
then the data. -/
def State.afterWriteTransaction (s : State) (reg : Nat) (bytes : List Byte) (ok : Bool) : State :=
  { s.completed (.write reg bytes) ok (BitVec.ofNat 8 reg :: bytes) with
    device := if ok then s.device.writeBytes reg bytes else s.device.loseBytes reg bytes.length }

end Sys2Proof.Machine
end

