-- ==== Sys2Proof/Machine/Bcd.lean ====
section
/-! DEFINITION. The BCD family (spec/40_bcd.md). -/

namespace Sys2Proof.Machine

/-- The outputs of BCD_DEC (R73). -/
def bcdDecOut (a : Byte) (o : Outputs) : Outputs := { o.clearStatus with y := BitVec.ofNat 8 (decBcd a) }

/-- BCD_DEC (R73). -/
def execBcdDec (a : Byte) (s : State) : Host.Outcome State Fault Refusal :=
  perform (.bcdDec a) (bcdDecOut a) s

/-- The outputs of BCD_ENC; above 99 `y` keeps its free value and `oor[0]` is set (R74). -/
def bcdEncOut (a : Byte) (o : Outputs) : Outputs :=
  { o.withOor (oorLane 0 a.toNat) with y := encLane o.y a.toNat }

/-- BCD_ENC (R74). -/
def execBcdEnc (a : Byte) (s : State) : Host.Outcome State Fault Refusal :=
  perform (.bcdEnc a) (bcdEncOut a) s

end Sys2Proof.Machine
end

