-- ==== Sys2Proof/Machine/Countdown.lean ====
section
/-! DEFINITION. The countdown family (spec/42_countdown.md). -/

namespace Sys2Proof.Machine

/-- Step 1: control/status 2 with its flag bits cleared (R89). -/
def cdBase (a : Byte) : Byte := a &&& 0xF3

/-- Steps 3: the clamped count; the resolution test uses the request before clamping (R91, R92). -/
def cdTicks (s : Int) : Int :=
  if s < cdThreshold then min s cdMaxTicks else min ((s + 30) / 60) cdMaxTicks

/-- Seconds per tick (R94). -/
def cdUnit (s : Int) : Int := if s < cdThreshold then 1 else 60

/-- Step 2, a negative request: disable; the count and the resolution keep their free values (R90). -/
def cdDisableOut (a : Byte) (o : Outputs) : Outputs :=
  { o.clearStatus with
    dis := true
    ctrl2O := cdBase a &&& 0xFE
    tctlO := 0x03
    weTcnt := false
    appliedO := BitVec.ofInt 32 (-1) }

/-- Steps 3 to 5, a request that is not negative (R91 to R94). -/
def cdArmOut (s : Int) (a : Byte) (o : Outputs) : Outputs :=
  { o.clearStatus with
    dis := false
    resMin := decide (cdThreshold ≤ s)
    tctlO := if s < cdThreshold then 0x82 else 0x83
    tcntO := BitVec.ofInt 8 (cdTicks s)
    weTcnt := true
    ctrl2O := (cdBase a ||| 0x01) &&& 0x7F
    appliedO := BitVec.ofInt 32 (cdTicks s * cdUnit s) }

/-- The outputs of CD_SELECT (R88). -/
def cdSelectOut (secs : Delay) (a : Byte) (o : Outputs) : Outputs :=
  if secs.toInt < 0 then cdDisableOut a o else cdArmOut secs.toInt a o

/-- CD_SELECT (R88). -/
def execCdSelect (secs : Delay) (a : Byte) (s : State) : Host.Outcome State Fault Refusal :=
  perform (.cdSelect secs a) (cdSelectOut secs a) s

/-- The outputs of CTRL2_ACK: the flag bits cleared, every other bit kept (R96). -/
def ctrl2AckOut (a : Byte) (o : Outputs) : Outputs := { o.clearStatus with y := a &&& 0xF3 }

/-- CTRL2_ACK (R96). -/
def execCtrl2Ack (a : Byte) (s : State) : Host.Outcome State Fault Refusal :=
  perform (.ctrl2Ack a) (ctrl2AckOut a) s

end Sys2Proof.Machine
end

