-- ==== Sys2Proof/Machine/TimeBlock.lean ====
section
/-! DEFINITION. The time-block family (spec/41_time_block.md). -/

namespace Sys2Proof.Machine

/-- The outputs of TB_UNPACK: each lane masked, decoded and offset (R78 to R81). -/
def tbUnpackOut (img : Image) (o : Outputs) : Outputs :=
  { o.clearStatus with
    secO := BitVec.ofNat 8 (laneValue img 0)
    minO := BitVec.ofNat 8 (laneValue img 1)
    hourO := BitVec.ofNat 8 (laneValue img 2)
    mdayO := BitVec.ofNat 8 (laneValue img 3)
    wdayO := BitVec.ofNat 8 (laneValue img 4)
    monO := BitVec.ofInt 8 (laneValue img 5 - 1)
    yearO := BitVec.ofInt 16 (centuryBase + laneValue img 6) }

/-- TB_UNPACK (R81). -/
def execTbUnpack (img : Image) (s : State) : Host.Outcome State Fault Refusal :=
  perform (.tbUnpack img) (tbUnpackOut img) s

/-- The outputs of TB_PACK: each field offset and encoded into its own byte, unmasked; an out-of-range lane keeps its free
byte and sets its `oor` bit (R79, R80, R82 to R84). -/
def tbPackOut (sec mins hour mday wday mon : Byte) (year : Year) (o : Outputs) : Outputs :=
  { o.withOor (oorLanes sec.toNat mins.toNat hour.toNat mday.toNat wday.toNat (monthRegister mon) (yearOffset year)) with
    imgO := packImage (encLane (imgByte o.imgO 0) sec.toNat) (encLane (imgByte o.imgO 1) mins.toNat)
      (encLane (imgByte o.imgO 2) hour.toNat) (encLane (imgByte o.imgO 3) mday.toNat)
      (encLane (imgByte o.imgO 4) wday.toNat) (encLane (imgByte o.imgO 5) (monthRegister mon))
      (encLane (imgByte o.imgO 6) (yearOffset year)) }

/-- TB_PACK (R82). -/
def execTbPack (sec mins hour mday wday mon : Byte) (year : Year) (s : State) : Host.Outcome State Fault Refusal :=
  perform (.tbPack sec mins hour mday wday mon year) (tbPackOut sec mins hour mday wday mon year) s

end Sys2Proof.Machine
end

