-- ==== Sys2Proof/Machine/Block.lean ====
section
/-! DEFINITION. The block as one combinational function of its input ports and a draw, reserved codes included
(spec/10_state.md R14, spec/30_encoding.md R66). -/

namespace Sys2Proof.Machine

/-- The outputs an operation writes, over the outputs drawn (R21). -/
def outputsOf : Instr → Outputs → Outputs
  | .bcdDec a => bcdDecOut a
  | .bcdEnc a => bcdEncOut a
  | .tbUnpack img => tbUnpackOut img
  | .tbPack sec mins hour mday wday mon year => tbPackOut sec mins hour mday wday mon year
  | .cdSelect secs a => cdSelectOut secs a
  | .ctrl2Ack a => ctrl2AckOut a

/-- The output ports as a function of the input ports and of the draw (R14), for all eight codes. -/
def blockOutputs (p : Inputs) (draw : Nat) : Outputs :=
  match decode p with
  | .ok i => outputsOf i (Outputs.draw draw)
  | .error _ => (Outputs.draw draw).raiseIllegalOp

/-- The data output ports each operation writes (R64). -/
def dataWrites : Mnemonic → List OutPort
  | .bcdDec | .bcdEnc | .ctrl2Ack => [.y]
  | .tbUnpack => [.secO, .minO, .hourO, .mdayO, .wdayO, .monO, .yearO]
  | .tbPack => [.imgO]
  | .cdSelect => [.dis, .resMin, .tctlO, .tcntO, .weTcnt, .ctrl2O, .appliedO]

/-- The output port's name in the assembler syntax (the examples of R69). -/
def portText : OutPort → String
  | .y => "y"
  | .imgO => "img"
  | .secO => "sec"
  | .minO => "min"
  | .hourO => "hour"
  | .mdayO => "mday"
  | .wdayO => "wday"
  | .monO => "mon"
  | .yearO => "year"
  | .tctlO => "tctl"
  | .tcntO => "tcnt"
  | .ctrl2O => "ctrl2"
  | .appliedO => "applied"
  | .weTcnt => "we_tcnt"
  | .dis => "dis"
  | .resMin => "res_min"
  | .oor => "oor"
  | .ill => "ill"

/-- An output as a written value: an image as its seven bytes (R69). -/
def outputValue (o : Outputs) : OutPort → Value
  | .imgO => .image ((List.range 7).map (imageByteNumber o.imgO))
  | p => .num (o.number p)

/-- An operation and its result as text: the data outputs and then the status outputs after `->` (R69). -/
def performedText (i : Instr) (o : Outputs) : String :=
  i.written.text ++ " -> " ++
    joinText ", " ((dataWrites i.mnemonic ++ [OutPort.oor, OutPort.ill]).map fun p => portText p ++ "=" ++ (outputValue o p).text)

end Sys2Proof.Machine
end

