-- ==== Sys2Proof/Machine/Dispatch.lean ====
section
/-! DEFINITION. One arm per operation of the opcode table. -/

namespace Sys2Proof.Machine

def exec (i : Instr) (s : State) : Host.Outcome State Fault Refusal :=
  match i with
  -- BCD family
  | .bcdDec a => Sys2Proof.Machine.execBcdDec a s
  | .bcdEnc a => Sys2Proof.Machine.execBcdEnc a s
  -- time-block family
  | .tbUnpack img => Sys2Proof.Machine.execTbUnpack img s
  | .tbPack sec mins hour mday wday mon year => Sys2Proof.Machine.execTbPack sec mins hour mday wday mon year s
  -- countdown family
  | .cdSelect secs a => Sys2Proof.Machine.execCdSelect secs a s
  | .ctrl2Ack a => Sys2Proof.Machine.execCtrl2Ack a s

end Sys2Proof.Machine
end

