-- ==== Sys2Proof/Machine/Sequences.lean ====
section
/-! DEFINITION. The host's six public operations as host programs (spec/43_host_sequences.md R104 to R109;
spec/30_encoding.md R71). Host variable 0 is the `r` or `v` of the spec's listings. -/

namespace Sys2Proof.Machine

/-- A line without a label. -/
def plain (st : Stmt) : Line := { label := none, stmt := st }

/-- A line marked by a label. -/
def marked (l : Nat) (st : Stmt) : Line := { label := some l, stmt := st }

/-- Byte `k` of an output port, its slice `[8k+7:8k]` (R50). -/
def portByte (p : OutPort) (k : Nat) : Expr := .slice (.port p) (8 * k + 7) (8 * k)

/-- `initialize` (R104, R134): the pin if there is a valid one, 0x00 twice to register 0x00, then 0x03 to 0x0E. Label 0 is
`cfg` and label 1 is `regs`. -/
def initializeProgram : Program :=
  [ plain (.ifGoto .validPin 0),
    plain (.goto 1),
    marked 0 .configureAsInput,
    marked 1 (.wr 0x00 [.lit 0x00]),
    plain (.wr 0x00 [.lit 0x00]),
    plain (.wr 0x0E [.lit 0x03]),
    plain (.ret .success) ]

/-- `getTime` (R105). -/
def getTimeProgram : Program :=
  [ plain (.rd 0x02 7 0),
    plain (.block .tbUnpack [(.imgI, .var 0)]),
    plain (.ret .calendar) ]

/-- `setTime` (R106): the image is written whatever `oor` says (R103). -/
def setTimeProgram (t : CalendarTime) : Program :=
  [ plain (.block .tbPack [(.secI, .lit t.sec), (.minI, .lit t.mins), (.hourI, .lit t.hour), (.mdayI, .lit t.mday),
      (.wdayI, .lit t.wday), (.monI, .lit t.mon), (.yearI, .lit t.year)]),
    plain (.wr 0x02 [portByte .imgO 0, portByte .imgO 1, portByte .imgO 2, portByte .imgO 3, portByte .imgO 4,
      portByte .imgO 5, portByte .imgO 6]),
    plain (.ret .success) ]

/-- `setCountdownAlarm` (R107, R138). Label 0 is `arm`. -/
def setCountdownAlarmProgram (afterSeconds : Int) : Program :=
  [ plain (.rd 0x01 1 0),
    plain (.block .cdSelect [(.secsI, .lit afterSeconds), (.a, .var 0)]),
    plain (.ifGoto (.eq (.port .dis) (.lit 0)) 0),
    plain (.wr 0x01 [.port .ctrl2O]),
    plain (.wr 0x0E [.port .tctlO]),
    plain (.ret (.value (.port .appliedO))),
    marked 0 (.wr 0x0E [.port .tctlO]),
    plain (.wr 0x0F [.port .tcntO]),
    plain (.wr 0x01 [.port .ctrl2O]),
    plain (.ret (.value (.port .appliedO))) ]

/-- `clearAlarmFlag` (R108). -/
def clearAlarmFlagProgram : Program :=
  [ plain (.rd 0x01 1 0),
    plain (.block .ctrl2Ack [(.a, .var 0)]),
    plain (.wr 0x01 [.port .y]),
    plain (.ret .success) ]

/-- `disableAlarm` (R109). -/
def disableAlarmProgram : Program :=
  [ plain (.wr 0x09 [.lit 0x80, .lit 0x80, .lit 0x80, .lit 0x80]),
    plain (.wr 0x0E [.lit 0x00]),
    plain (.wr 0x01 [.lit 0x00]),
    plain (.ret .success) ]

/-- The sequence a call expands to (R71). -/
def expand : HostCall → Program
  | .initializeRtc _ _ _ => initializeProgram
  | .getTime => getTimeProgram
  | .setTime t => setTimeProgram t
  | .setCountdownAlarm n => setCountdownAlarmProgram n
  | .clearAlarmFlag => clearAlarmFlagProgram
  | .disableAlarm => disableAlarmProgram
  | .custom p => p

/-- Whether a failed transaction ends the call with its error: always for `getTime` and `setTime`, and for the others as
HOST_ERR_POLICY says (R100). -/
def propagatesErrors (policy : ErrPolicy) : HostCall → Bool
  | .getTime | .setTime _ => true
  | .initializeRtc _ _ _ | .setCountdownAlarm _ | .clearAlarmFlag | .disableAlarm | .custom _ => policy == .firstFailure

end Sys2Proof.Machine
end

