-- ==== Sys2Proof/Machine/HostRun.lean ====
section
/-! DEFINITION. The host runs its calls statement by statement (spec/30_encoding.md R70, R71; spec/43_host_sequences.md R100 to
R109; spec/20_memory.md R56), and what one move of the whole system is. -/

namespace Sys2Proof.Machine

/-! ### Expressions and conditions -/

/-- The value of a host variable; free where no statement has set it (log entry 18). -/
def varValue (vars : List (Nat × Int)) (x : Nat) : Int := (lookup vars x).getD (Config.unsetVariable x)

/-- Bitwise NOT on two's complement of any width. -/
def notNumber (v : Int) : Int := -v - 1

/-- Bitwise AND on two's complement of any width. -/
def andNumber : Int → Int → Int
  | .ofNat m, .ofNat n => .ofNat (m &&& n)
  | .ofNat m, .negSucc n => .ofNat (m ^^^ (m &&& n))
  | .negSucc m, .ofNat n => .ofNat (n ^^^ (n &&& m))
  | .negSucc m, .negSucc n => .negSucc (m ||| n)

/-- Bitwise OR on two's complement of any width. -/
def orNumber (a b : Int) : Int := notNumber (andNumber (notNumber a) (notNumber b))

/-- The bits `[hi:lo]` of a value, in two's complement (spec/00_scope.md part 4): a port value below 0 gives the bits of its
port. The spec defines a slice from `hi` down to `lo` only: with `hi` below `lo` its value is free (DESIGN CHOICE, log entry
18; safe). -/
def sliceOfNumber (v : Int) (hi lo : Nat) : Int :=
  if lo ≤ hi then v / ((2 ^ lo : Nat) : Int) % ((2 ^ (hi + 1 - lo) : Nat) : Int) else Config.reversedSlice v hi lo

/-- `trunc_N`: the low `w` bits of a value (0 where `w` is 0, log entry 18). -/
def truncNumber (w : Nat) (v : Int) : Int := v % ((2 ^ w : Nat) : Int)

/-- `signed_N`: the low `w` bits read as two's complement (0 where `w` is 0, log entry 18). -/
def signedNumber (w : Nat) (v : Int) : Int := v.bmod (2 ^ w)

/-- `a div b`, rounding toward zero; free where `b` is 0 (log entry 18). -/
def divNumber (a b : Int) : Int := if b = 0 then Config.divByZero a else a.tdiv b

/-- `a mod b`, the remainder of `div`; free where `b` is 0 (log entry 18). -/
def modNumber (a b : Int) : Int := if b = 0 then Config.modByZero a else a.tmod b

/-- The value of an expression (R70; spec/00_scope.md part 4; log entry 18). -/
def evalExpr (o : Outputs) (vars : List (Nat × Int)) : Expr → Int
  | .lit v => v
  | .var x => varValue vars x
  | .port p => o.number p
  | .band e f => andNumber (evalExpr o vars e) (evalExpr o vars f)
  | .bor e f => orNumber (evalExpr o vars e) (evalExpr o vars f)
  | .bxor e f => Int.xor (evalExpr o vars e) (evalExpr o vars f)
  | .bnot w e => truncNumber w (notNumber (evalExpr o vars e))
  | .add e f => evalExpr o vars e + evalExpr o vars f
  | .sub e f => evalExpr o vars e - evalExpr o vars f
  | .mul e f => evalExpr o vars e * evalExpr o vars f
  | .div e f => divNumber (evalExpr o vars e) (evalExpr o vars f)
  | .mod e f => modNumber (evalExpr o vars e) (evalExpr o vars f)
  | .min e f => Min.min (evalExpr o vars e) (evalExpr o vars f)
  | .slice e hi lo => sliceOfNumber (evalExpr o vars e) hi lo
  | .concat e w f => evalExpr o vars e * ((2 ^ w : Nat) : Int) + truncNumber w (evalExpr o vars f)
  | .signed w e => signedNumber w (evalExpr o vars e)

/-- `intPin` is a valid pin (R104; PIN_VALID, 92 D24). -/
def pinIsValid : Option Int → Bool
  | none => false
  | some pin => Config.pinValid pin

/-- A condition holds (R70, R104; log entry 18). -/
def holds (o : Outputs) (vars : List (Nat × Int)) (intPin : Option Int) : Cond → Bool
  | .eq e f => decide (evalExpr o vars e = evalExpr o vars f)
  | .ne e f => decide (evalExpr o vars e ≠ evalExpr o vars f)
  | .lt e f => decide (evalExpr o vars e < evalExpr o vars f)
  | .le e f => decide (evalExpr o vars e ≤ evalExpr o vars f)
  | .validPin => pinIsValid intPin
  | .and c d => holds o vars intPin c && holds o vars intPin d
  | .or c d => holds o vars intPin c || holds o vars intPin d
  | .not c => !holds o vars intPin c

/-- What a `RET` returns. -/
def retResult (o : Outputs) (vars : List (Nat × Int)) : RetExpr → HostResult
  | .success => .success
  | .outOfRange => .outOfRange
  | .value e => .value (evalExpr o vars e)
  | .calendar => .time o.calendar false

/-! ### Moves of the host -/

/-- The pins configured as inputs, with one more (R104); rising, without repeats. -/
def addPin : List Int → Int → List Int
  | [], p => [p]
  | q :: ps, p => if p < q then p :: q :: ps else if p = q then q :: ps else q :: addPin ps p

/-- The next line of the activity. -/
def Activity.onward (act : Activity) : Activity := { act with line := act.line + 1 }

/-- The activity with a host variable set, at its next line. -/
def Activity.assign (act : Activity) (x : Nat) (v : Int) : Activity :=
  { act with line := act.line + 1, vars := store act.vars x v }

/-- The host goes on with this activity. -/
def State.resume (s : State) (act : Activity) : State := { s with host := { s.host with activity := some act } }

/-- Whether `initialize` has run once a call has ended with this result (R133). -/
def initialisedAfter (before : Bool) : HostCall → HostResult → Bool
  | .initializeRtc _ _ _, .success => true
  | _, _ => before

/-- The call ends with this result. -/
def State.finish (s : State) (act : Activity) (r : HostResult) : State :=
  { s with
    host :=
      { s.host with
        activity := none
        result := some r
        initialised := initialisedAfter s.host.initialised act.call r } }

/-- The line a label marks: the first of them, where a label marks two, of which R70 says nothing (DESIGN CHOICE, log entry
28; safe). -/
def Program.find (p : Program) (l : Nat) : Option Nat := p.findIdx? fun line => line.label == some l

/-- Go to a label. -/
def State.jump (s : State) (act : Activity) (l : Nat) : Host.Outcome State Fault Refusal :=
  match Program.find act.program l with
  | some k => .next (s.resume { act with line := k })
  | none => .refused (.noSuchLabel l)

/-- `RD reg, n -> x` (R13, R70, R100 to R102). A read of 0 bytes, of which the spec is silent, is run as a transaction
of no byte, logged and using up an outcome (DESIGN CHOICE, log entry 27; safe). -/
def runRead (act : Activity) (reg n x : Nat) (s : State) : Host.Outcome State Fault Refusal :=
  if InDevice reg n then
    match s.nextOutcome with
    | .never => .fault .stuckTransaction
    | .ok => .next ((s.afterReadTransaction reg n true).resume (act.assign x (bytesNumber (s.readResult reg n true))))
    | .error =>
      if act.propagates then .next ((s.afterReadTransaction reg n false).finish act .transportError)
      else .next ((s.afterReadTransaction reg n false).resume (act.assign x (bytesNumber (s.readResult reg n false))))
  else .refused (.unnamedRegister reg n)

/-- `WR reg, b0, b1, ...` with the bytes computed (R13, R70, R100, R102). A write with no data byte, of which the spec is
silent, is run as the transaction of the address byte alone, logged and using up an outcome (DESIGN CHOICE, log entry 27;
safe). -/
def runWrite (act : Activity) (reg : Nat) (bytes : List Byte) (s : State) : Host.Outcome State Fault Refusal :=
  if InDevice reg bytes.length then
    match s.nextOutcome with
    | .never => .fault .stuckTransaction
    | .ok => .next ((s.afterWriteTransaction reg bytes true).resume act.onward)
    | .error =>
      if act.propagates then .next ((s.afterWriteTransaction reg bytes false).finish act .transportError)
      else .next ((s.afterWriteTransaction reg bytes false).resume act.onward)
  else .refused (.unnamedRegister reg bytes.length)

/-- A block operation of the host: present it and go on with its outputs (R16, R70); the host rejects an operand too wide
for its port before the block is used (R65, R103). -/
def runBlock (act : Activity) (m : Mnemonic) (operands : List (InPort × Int)) (s : State) :
    Host.Outcome State Fault Refusal :=
  match m.assemble operands with
  | some i => exec i (s.resume act.onward)
  | none => .next (s.finish act .rejected)

/-- The pins configured as inputs once the interrupt pin is (R104). -/
def Controller.configuredPins (h : Controller) : List Int :=
  match h.config.intPin with
  | some pin => addPin h.inputPins pin
  | none => h.inputPins

/-- `configureAsInput(intPin)`, and on to the next line (R104). -/
def State.configure (s : State) (act : Activity) : State :=
  { s with host := { s.host with activity := some act.onward, inputPins := s.host.configuredPins } }

/-- One host statement (R70). -/
def runStmt (act : Activity) (st : Stmt) (s : State) : Host.Outcome State Fault Refusal :=
  match st with
  | .rd reg n x => runRead act reg n x s
  | .wr reg es => runWrite act reg (es.map fun e => BitVec.ofInt 8 (evalExpr s.outputs act.vars e)) s
  | .assign x e => .next (s.resume (act.assign x (evalExpr s.outputs act.vars e)))
  | .ifGoto c l =>
    if holds s.outputs act.vars s.host.config.intPin c then s.jump act l else .next (s.resume act.onward)
  | .goto l => s.jump act l
  | .ret r => .next (s.finish act (retResult s.outputs act.vars r))
  | .block m args => runBlock act m (args.map fun a => (a.1, evalExpr s.outputs act.vars a.2)) s
  | .configureAsInput => .next (s.configure act)

/-- The activity of a call at its first line. -/
def Activity.start (policy : ErrPolicy) (c : HostCall) : Activity :=
  { call := c, program := expand c, line := 0, vars := [], propagates := propagatesErrors policy c }

/-- The configuration a call leaves: `initialize` gives the bus pins and the interrupt pin (R38, R104; log entry 13). -/
def ControllerConfig.forCall (cfg : ControllerConfig) : HostCall → ControllerConfig
  | .initializeRtc scl sda pin => { cfg with busPins := some (scl, sda), intPin := pin }
  | .getTime | .setTime _ | .setCountdownAlarm _ | .clearAlarmFlag | .disableAlarm | .custom _ => cfg

/-- The host takes up the oldest waiting call; it rejects one whose values are too wide (R103). -/
def State.startCall (s : State) (c : HostCall) (rest : List HostCall) : State :=
  if c.fits then
    { s with
      host :=
        { s.host with
          requests := rest
          config := s.host.config.forCall c
          activity := some (Activity.start s.host.config.errPolicy c)
          result := none } }
  else { s with host := { s.host with requests := rest, result := some .rejected } }

/-- The caller queues a call: an input from outside (R58, R111). -/
def State.call (s : State) (c : HostCall) : State :=
  { s with host := { s.host with requests := s.host.requests ++ [c] } }

/-- The host is created anew with a configuration: an event from outside, which the device and the rest of the system
outlive (R131; log entry 12). -/
def State.restartHost (s : State) (cfg : ControllerConfig) : State :=
  { s with host := { State.reset.host with config := cfg } }

/-- The host runs the next line of its activity. -/
def runActivity (act : Activity) (s : State) : Host.Outcome State Fault Refusal :=
  match act.program[act.line]? with
  | some line => runStmt act line.stmt s
  | none => .refused .programEnded

/-- The block evaluates what is on its ports (R14, R16); a reserved code faults whoever presents it (R66, R117). -/
def runPorts (s : State) : Host.Outcome State Fault Refusal :=
  match decode s.inputs with
  | .ok i => exec i s
  | .error _ => .fault (.illegalOp s.inputs.op (blockOutputs s.inputs s.draws))

/-- One move: of the host's activity if it has one, else the start of a waiting call, else an evaluation of the block
(log entry 1). -/
def move (s : State) : Host.Outcome State Fault Refusal :=
  match s.host.activity with
  | some act => runActivity act s
  | none =>
    match s.host.requests with
    | c :: rest => .next (s.startCall c rest)
    | [] => runPorts s

end Sys2Proof.Machine
end

