-- ==== Sys2Proof/Machine/Step.lean ====
section
/-! DEFINITION. One step of the system, and how an operation is placed where the next step runs it. -/

namespace Sys2Proof.Machine

/-- One step: the register writes of other callers land (R54, R136), and then one move. -/
def step (s : State) : Host.Outcome State Fault Refusal := move s.landOthers

/-- The table word on `op`, the operand ports at zero, and the host idle, so that the next step evaluates exactly that
operation (R16; log entry 2). -/
def State.withFetchWord (s : State) (_nbits w : Nat) : State :=
  { s with
    inputs := { Inputs.zero with op := BitVec.ofNat 3 w }
    host := { s.host with activity := none, requests := [] } }

end Sys2Proof.Machine
end

