-- ==== Sys2Proof/Machine/Registers.lean ====
section
/-! DEFINITION. The device's register map by name (spec/10_state.md R25 to R36, spec/20_memory.md R45) and the fields the
source names. -/

namespace Sys2Proof.Machine

/-- The named registers (R45). -/
inductive RegName where
  | control1 | control2 | second | minute | hour | day | weekday | month | year
  | alarm0 | alarm1 | alarm2 | alarm3 | timerControl | timerCount
  deriving DecidableEq, Repr

/-- The register's address (R26 to R36). -/
def RegName.address : RegName → Nat
  | .control1 => 0x00
  | .control2 => 0x01
  | .second => 0x02
  | .minute => 0x03
  | .hour => 0x04
  | .day => 0x05
  | .weekday => 0x06
  | .month => 0x07
  | .year => 0x08
  | .alarm0 => 0x09
  | .alarm1 => 0x0A
  | .alarm2 => 0x0B
  | .alarm3 => 0x0C
  | .timerControl => 0x0E
  | .timerCount => 0x0F

/-- What is known of a register's content. -/
def Device.known (d : Device) (r : RegName) : Option Byte := lookup d.regs r.address

/-- Control/status 2, bit 0: the alarm/timer enable bit (R27). -/
def enableBit (b : Byte) : Bool := b.getLsbD 0

/-- Control/status 2, bits 3:2: the two alarm/timer flag bits (R27). -/
def flagBits (b : Byte) : BitVec 2 := b.extractLsb' 2 2

/-- Control/status 2, bit 7: the test bit (R27). -/
def testBit (b : Byte) : Bool := b.getLsbD 7

/-- The seconds register, bit 7: the VL bit (R28, R40). -/
def vlBit (b : Byte) : Bool := b.getLsbD 7

/-- An alarm compare register, bit 7: the field is disabled (R34). -/
def alarmDisabled (b : Byte) : Bool := b.getLsbD 7

/-- The four values of timer control that the source names (R35, R124). -/
inductive TimerMode where
  | disabled | idle | secondResolution | minuteResolution
  deriving DecidableEq, Repr

/-- The timer mode of a timer-control byte; none for a byte the source does not name (R35). -/
def timerMode (b : Byte) : Option TimerMode :=
  if b = 0x00 then some .disabled
  else if b = 0x03 then some .idle
  else if b = 0x82 then some .secondResolution
  else if b = 0x83 then some .minuteResolution
  else none

end Sys2Proof.Machine
end

