-- ==== Sys2Proof/Safety.lean ====
section
/-! DEFINITION. The terms claims use: runs of steps, the invariant of a well-formed system, a settled block, and the duties
of callers. -/

namespace Sys2Proof.Machine

/-- `k` steps, stopping at the first fault or refusal. -/
def run : Nat → State → Host.Outcome State Fault Refusal
  | 0, s => .next s
  | k + 1, s =>
    match step s with
    | .next t => run k t
    | .fault r => .fault r
    | .refused r => .refused r

/-- The host is idle and its only waiting call is `c`. -/
def State.Ready (s : State) (c : HostCall) : Prop := s.host.activity = none ∧ s.host.requests = [c]

/-- The call is over and no call waits; it returned `r`. -/
def State.Returned (s : State) (r : HostResult) : Prop :=
  s.host.activity = none ∧ s.host.requests = [] ∧ s.host.result = some r

/-- The input ports drive the block: no call is running or waiting. -/
def State.Idle (s : State) : Prop := s.host.activity = none ∧ s.host.requests = []

/-- The transactions the log holds since it was `before`. -/
def State.Logged (s : State) (before : List BusEvent) (events : List BusEvent) : Prop := s.busLog = before ++ events

/-- A completed transaction of a host. -/
def Controller.event (h : Controller) (t : Transfer) (ok : Bool) : BusEvent :=
  { devAddr := h.config.devAddr, transfer := t, ok := ok }

/-- A running call is well formed: its program is, the next line exists, its variables are in canonical form. -/
def Activity.Ok (act : Activity) : Prop :=
  Program.wf act.program = true ∧ act.line < act.program.length ∧ act.vars.Pairwise fun x y => x.1 < y.1

/-- The invariant of the system: the known registers are in canonical form and inside the device, the waiting calls and
the running call are well formed, and the pins configured as inputs are listed rising without repeats. -/
def State.Inv (s : State) : Prop :=
  s.device.regs.wf ∧ s.device.regs.inDevice ∧ (∀ c ∈ s.host.requests, c.wf = true) ∧
    (∀ act, s.host.activity = some act → act.Ok) ∧ s.host.inputPins.Pairwise (· < ·)

/-- The output ports are the function of the input ports and of one earlier draw (R14, R135). -/
def State.Settled (s : State) : Prop := ∃ d, d < s.draws ∧ s.outputs = blockOutputs s.inputs d

/-- A caller's duty (R133): `initialize` runs before any other operation. -/
def State.MayCall (s : State) (c : HostCall) : Prop :=
  s.host.initialised = true ∨ ∃ scl sda pin, c = .initializeRtc scl sda pin

/-- A host transaction is one of the widths and addresses of R48. -/
def UsedAccess (write : Bool) (reg n : Nat) : Prop :=
  match write with
  | false => (reg = 0x01 ∧ n = 1) ∨ (reg = 0x02 ∧ n = 7)
  | true =>
    (n = 1 ∧ (reg = 0x00 ∨ reg = 0x01 ∨ reg = 0x0E ∨ reg = 0x0F)) ∨ (reg = 0x09 ∧ n = 4) ∨ (reg = 0x02 ∧ n = 7)

/-- A statement makes no transaction but those of R48 (a write's address byte is not counted). -/
def usesOnlyR48 : Stmt → Prop
  | .rd reg n _ => UsedAccess false reg n
  | .wr reg bytes => UsedAccess true reg bytes.length
  | .assign _ _ | .ifGoto _ _ | .goto _ | .ret _ | .block _ _ | .configureAsInput => True

end Sys2Proof.Machine
end

