-- ==== Sys2Proof/Certificates/Slice0/Obligations.lean ====
section
/-! DEFINITION. The statements for the provers. The helpers of namespace `Sys2Proof.Claims` say the spec's arithmetic on plain
numbers, apart from the model's own definitions. -/

namespace Sys2Proof.Claims

open Sys2Proof.Machine

/-- 10 × high nibble + low nibble of a byte's number (R73). -/
def dec (n : Nat) : Nat := n / 16 * 10 + n % 16

/-- The byte with tens digit and units digit of `v` (R74). -/
def enc (v : Int) : Int := 16 * (v / 10) + v % 10

/-- Byte `k` of an image as a number: bits `[8k+7:8k]` (R23). -/
def byteAt (img : Image) (k : Nat) : Nat := img.toNat / 256 ^ k % 256

/-- The CalendarTime TB_UNPACK gives for an image (R78 to R81). -/
def calendarOf (img : Image) : CalendarTime :=
  { sec := dec (byteAt img 0 &&& 0x7F), mins := dec (byteAt img 1 &&& 0x7F), hour := dec (byteAt img 2 &&& 0x3F),
    mday := dec (byteAt img 3 &&& 0x3F), wday := dec (byteAt img 4 &&& 0x07),
    mon := dec (byteAt img 5 &&& 0x1F) - 1, year := 2000 + dec (byteAt img 6) }

/-- The lanes of TB_PACK with their offset values (R79, R80, R82). -/
def lanes (sec mins hour mday wday mon : Byte) (year : Year) : List (Nat × Int) :=
  [(0, sec.toNat), (1, mins.toNat), (2, hour.toNat), (3, mday.toNat), (4, wday.toNat), (5, mon.toInt + 1),
    (6, year.toNat - 2000)]

/-- The ticks of a request that is not negative (R91, R92). -/
def ticks (n : Int) : Int := if n < 270 then min n 255 else min ((n + 30) / 60) 255

/-- The delay a request that is not negative is given (R94). -/
def applied (n : Int) : Int := if n < 270 then ticks n else 60 * ticks n

/-- A transaction that completes, with success or with TransportError. -/
def outcome (ok : Bool) : BusOutcome := if ok then .ok else .error

/-- The host goes on past these transactions: it swallows errors, or there are none (R100). -/
def GoesOn (s : State) (oks : List Bool) : Prop :=
  s.host.config.errPolicy = .swallow ∨ ∀ ok ∈ oks, ok = true

/-- A failed write of `n` bytes: none of its registers is known, and every other one is as it was. -/
def LosesRegisters (d e : Device) (reg n : Nat) : Prop :=
  ∀ a, lookup e.regs a = if reg ≤ a ∧ a < reg + n then none else lookup d.regs a

/-- A successful write of these bytes: each of its registers is known as its byte, and every other one is as it was. -/
def TakesBytes (d e : Device) (reg : Nat) (bytes : List Byte) : Prop :=
  (∀ i b, bytes[i]? = some b → lookup e.regs (reg + i) = some b) ∧
    ∀ a, a < reg ∨ reg + bytes.length ≤ a → lookup e.regs a = lookup d.regs a

/-- Every register but the listed ones is as it was. -/
def KeepsOtherRegisters (d e : Device) (written : List Nat) : Prop :=
  ∀ a, a ∉ written → lookup e.regs a = lookup d.regs a

/-- How many bits an output port has (R19, R20). -/
def portWidth : OutPort → Nat
  | .imgO => 56
  | .appliedO => 32
  | .yearO => 16
  | .oor => 7
  | .weTcnt | .dis | .resMin | .ill => 1
  | .y | .secO | .minO | .hourO | .mdayO | .wdayO | .monO | .tctlO | .tcntO | .ctrl2O => 8

/-- The bits on an output port, as a number that is not negative, on the two's complement ports too (R19). -/
def portBits (o : Outputs) : OutPort → Nat
  | .monO => o.monO.toNat
  | .appliedO => o.appliedO.toNat
  | p => (o.number p).toNat

end Sys2Proof.Claims

open Sys2Proof Sys2Proof.Machine Sys2Proof.Claims

/-! ### Reset, encoding, the step -/

/-- Power-up (R130, R131): the outputs are the block's function of the inputs, no register is known, the host has its
default configuration (R38, R100). R131 gives `oor` and `ill` no reset value: that they are 0 holds because the model's input
ports are 0 at power-up (log entry 3, DESIGN CHOICE). The input ports' own values are that choice and not stated. -/
def Obligations.ResetOutputsFollowInputs : Prop :=
  State.reset.outputs = blockOutputs State.reset.inputs 0 ∧ State.reset.outputs.oor = 0 ∧
    State.reset.outputs.ill = false ∧ (∀ a, lookup State.reset.device.regs a = none) ∧
    State.reset.host.config.devAddr = 0x51 ∧ State.reset.host.config.errPolicy = .swallow

/-- R63 (with the operands of R64): what each code of `op` decodes to, on any port values. -/
def Obligations.OpCodeSelectsOperation : Prop :=
  ∀ p : Inputs,
    (p.op = 0b000 → decode p = .ok (.bcdDec p.a)) ∧
    (p.op = 0b001 → decode p = .ok (.bcdEnc p.a)) ∧
    (p.op = 0b010 → decode p = .ok (.tbUnpack p.imgI)) ∧
    (p.op = 0b011 → decode p = .ok (.tbPack p.secI p.minI p.hourI p.mdayI p.wdayI p.monI p.yearI)) ∧
    (p.op = 0b100 → decode p = .ok (.cdSelect p.secsI p.a)) ∧
    (p.op = 0b101 → decode p = .ok (.ctrl2Ack p.a)) ∧
    (p.op = 0b110 → decode p = .error (.reserved 0b110)) ∧
    (p.op = 0b111 → decode p = .error (.reserved 0b111))

/-- Words written out from the table of R63, and the port values of spec/95_test_vectors.md P1, P2, P3 and P5. That a table
word leaves the operand ports at 0, and that a word wider than `op` is no operation, is the model's reading of the table (log
entry 25, DEDUCED) and no rule. -/
def Obligations.WrittenWordsDecode : Prop :=
  decodeTableWord 8 0b000 = some (.bcdDec 0) ∧ decodeTableWord 8 0b001 = some (.bcdEnc 0) ∧
    decodeTableWord 8 0b010 = some (.tbUnpack 0) ∧ decodeTableWord 8 0b011 = some (.tbPack 0 0 0 0 0 0 0) ∧
    decodeTableWord 8 0b100 = some (.cdSelect 0 0) ∧ decodeTableWord 8 0b101 = some (.ctrl2Ack 0) ∧
    decodeTableWord 8 0b110 = none ∧ decodeTableWord 8 0b111 = none ∧ decodeTableWord 8 0b1000 = none ∧
    decode { Inputs.zero with op := 0b100, secsI := 0x0000012C, a := 0x1C } = .ok (.cdSelect 300 28) ∧
    decode { Inputs.zero with op := 0b100, secsI := 0xFFFFFFFF, a := 0x8F } = .ok (.cdSelect (-1) 143) ∧
    decode { Inputs.zero with op := 0b011, secI := 0x2D, minI := 0x1E, hourI := 0x0C, mdayI := 0x0F, wdayI := 0x03,
                              monI := 0x05, yearI := 0x07E8 } = .ok (.tbPack 45 30 12 15 3 5 2024) ∧
    decode { Inputs.zero with op := 0b010, imgI := 0x24060315123045 } =
      .ok (.tbUnpack (packImage 0x45 0x30 0x12 0x15 0x03 0x06 0x24)) ∧
    decode { Inputs.zero with op := 0b101, a := 0x1D } = .ok (.ctrl2Ack 29)

/-- An operation is performed by presenting it (R16): a step with the host idle is exec of the operation the ports hold; a step
at a block statement of the host is exec of the operation that statement writes. What one step is, is the model's choice (log
entry 1, DESIGN CHOICE: the spec has no step), and so is that the writes of other callers land before either (log entry 15). A
table word placed with `withFetchWord` is run by the next step (log entry 2). -/
def Obligations.StepRunsPresentedOperation : Prop :=
  (∀ (s : State) (i : Instr), s.Idle → decode s.inputs = .ok i → step s = exec i s.landOthers) ∧
    (∀ (s : State) (nbits w : Nat) (i : Instr), decodeTableWord nbits w = some i →
      step (s.withFetchWord nbits w) = exec i (s.withFetchWord nbits w).landOthers) ∧
    ∀ (s : State) (act : Activity) (l : Option Nat) (m : Mnemonic) (args : List (InPort × Expr)) (i : Instr),
      s.host.activity = some act → act.program[act.line]? = some ⟨l, .block m args⟩ →
      m.assemble (args.map fun a => (a.1, evalExpr s.outputs act.vars a.2)) = some i →
      step s = exec i (s.landOthers.resume act.onward)

/-- R66: a reserved code faults the step, the block showing `ill` = 1, `oor` = 0 and every data output free. -/
def Obligations.ReservedCodeFaults : Prop :=
  ∀ s : State, s.Idle → (s.inputs.op = 0b110 ∨ s.inputs.op = 0b111) →
    ∃ shown : Outputs, step s = .fault (.illegalOp s.inputs.op shown) ∧ shown.ill = true ∧ shown.oor = 0 ∧
      ∀ p : OutPort, p ≠ .oor → p ≠ .ill → shown.number p = (Outputs.draw s.draws).number p

/-- The written form, the ports and the decoder agree: every well-formed written operation is one operation, which is
written so, and which decodes to itself whatever the don't-care ports hold; and every operation is written well formed. -/
def Obligations.WrittenOperationsRoundTrip : Prop :=
  (∀ w : Written, w.wf = true →
    ∃ i, w.toInstr = some i ∧ i.written = w ∧ ∀ p : Inputs, decode (i.presentOn p) = .ok i) ∧
    ∀ i : Instr, i.written.wf = true ∧ i.written.toInstr = some i

/-- Decoding loses nothing an operation reads: presenting what was decoded changes no port (of a port the operation does not
read, this is how the model's host presents: log entry 6, DEDUCED); and the codes that decode to nothing are the two reserved
ones (R66, R67). -/
def Obligations.DecodedOperationPresentsItself : Prop :=
  ∀ p : Inputs,
    (∀ i, decode p = .ok i → i.presentOn p = p) ∧ ((∃ e, decode p = .error e) ↔ 6 ≤ p.op.toNat)

/-! ### The BCD family -/

/-- R73. -/
def Obligations.BcdDecResult : Prop :=
  ∀ (a : Byte) (s : State), ∃ t, exec (.bcdDec a) s = .next t ∧ t.inputs.op = 0b000 ∧ t.inputs.a = a ∧
    t.outputs.y.toNat = dec a.toNat ∧ dec a.toNat ≤ 165 ∧ t.outputs.oor = 0 ∧ t.outputs.ill = false

/-- R74: out of range the result is the free value, and bit 0 of `oor` is set. -/
def Obligations.BcdEncResult : Prop :=
  ∀ (a : Byte) (s : State), ∃ t, exec (.bcdEnc a) s = .next t ∧ t.inputs.op = 0b001 ∧ t.inputs.a = a ∧
    t.outputs.ill = false ∧
    (a.toNat ≤ 99 → (t.outputs.y.toNat : Int) = enc a.toNat ∧ ValidBcd t.outputs.y ∧ t.outputs.oor = 0) ∧
    (99 < a.toNat → t.outputs.y = Config.anyBits .y s.draws 8 ∧ t.outputs.oor = 0b0000001)

/-- R75. -/
def Obligations.BcdDecAfterEnc : Prop :=
  ∀ (v : Byte) (s s' : State), v.toNat ≤ 99 →
    ∃ t u, exec (.bcdEnc v) s = .next t ∧ exec (.bcdDec t.outputs.y) s' = .next u ∧ u.outputs.y = v

/-- R76; for a byte with a nibble above 9 no encode that is in range gives it back. -/
def Obligations.BcdEncAfterDec : Prop :=
  ∀ (b : Byte) (s s' : State),
    ∃ t u, exec (.bcdDec b) s = .next t ∧ exec (.bcdEnc t.outputs.y) s' = .next u ∧
      (b.toNat / 16 ≤ 9 → b.toNat % 16 ≤ 9 →
        t.outputs.y.toNat = 10 * (b.toNat / 16) + b.toNat % 16 ∧ t.outputs.y.toNat ≤ 99 ∧ u.outputs.y = b ∧
          u.outputs.oor = 0) ∧
      (9 < b.toNat / 16 ∨ 9 < b.toNat % 16 → u.outputs.oor = 0 → u.outputs.y ≠ b) ∧
      (b = 0x0A → t.outputs.y = 10 ∧ u.outputs.y = 0x10)

/-- R77. -/
def Obligations.BcdDecBounds : Prop :=
  ∀ (b : Byte) (m : Byte) (bound : Nat) (s : State),
    (m, bound) ∈ [((0xFF : Byte), 165), (0x7F, 85), (0x3F, 45), (0x1F, 25), (0x07, 7)] →
    ∃ t, exec (.bcdDec (b &&& m)) s = .next t ∧ t.outputs.y.toNat ≤ bound

/-! ### The time-block family -/

/-- R78, R81. -/
def Obligations.TbUnpackResult : Prop :=
  ∀ (img : Image) (s : State), ∃ t, exec (.tbUnpack img) s = .next t ∧ t.inputs.op = 0b010 ∧ t.inputs.imgI = img ∧
    t.outputs.secO.toNat = dec (byteAt img 0 &&& 0x7F) ∧ t.outputs.minO.toNat = dec (byteAt img 1 &&& 0x7F) ∧
    t.outputs.hourO.toNat = dec (byteAt img 2 &&& 0x3F) ∧ t.outputs.mdayO.toNat = dec (byteAt img 3 &&& 0x3F) ∧
    t.outputs.wdayO.toNat = dec (byteAt img 4 &&& 0x07) ∧ t.outputs.monO.toInt = dec (byteAt img 5 &&& 0x1F) - 1 ∧
    t.outputs.yearO.toNat = 2000 + dec (byteAt img 6) ∧ t.outputs.oor = 0 ∧ t.outputs.ill = false

/-- The bits above the decode masks, the VL bit and the century bit among them, never reach an output of TB_UNPACK
(R40, R78): two images that differ only there give the same outputs. -/
def Obligations.MaskedBitsNeverReachOutputs : Prop :=
  ∀ (img img' : Image) (s : State),
    img &&& 0xFF1F073F3F7F7F = img' &&& 0xFF1F073F3F7F7F →
    ∃ t t', exec (.tbUnpack img) s = .next t ∧ exec (.tbUnpack img') s = .next t' ∧ t.outputs = t'.outputs

/-- R82, R83: lane by lane, the BCD byte in range, and the free byte with its `oor` bit outside. -/
def Obligations.TbPackResult : Prop :=
  ∀ (sec mins hour mday wday mon : Byte) (year : Year) (s : State),
    ∃ t, exec (.tbPack sec mins hour mday wday mon year) s = .next t ∧ t.inputs.op = 0b011 ∧ t.outputs.ill = false ∧
      ∀ k v, (k, v) ∈ lanes sec mins hour mday wday mon year →
        (0 ≤ v ∧ v ≤ 99 → (byteAt t.outputs.imgO k : Int) = enc v ∧ t.outputs.oor.getLsbD k = false) ∧
        (v < 0 ∨ 99 < v →
          byteAt t.outputs.imgO k = byteAt (Config.anyBits .imgO s.draws 56) k ∧ t.outputs.oor.getLsbD k = true)

/-- R84: no mask on encode; the bits above the decode masks are 0 for nominal fields, and the VL and century positions for
the wider ranges the rule gives, but not for a second from 80 to 99. -/
def Obligations.TbPackAppliesNoMask : Prop :=
  ∀ (sec mins hour mday wday mon : Byte) (year : Year) (s : State),
    ∃ t, exec (.tbPack sec mins hour mday wday mon year) s = .next t ∧
      (∀ k v, (k, v) ∈ lanes sec mins hour mday wday mon year → 0 ≤ v → v ≤ 99 →
        (byteAt t.outputs.imgO k : Int) = enc v) ∧
      (sec.toNat ≤ 79 → byteAt t.outputs.imgO 0 < 0x80) ∧ (mins.toNat ≤ 59 → byteAt t.outputs.imgO 1 < 0x80) ∧
      (hour.toNat ≤ 23 → byteAt t.outputs.imgO 2 < 0x40) ∧ (mday.toNat ≤ 31 → byteAt t.outputs.imgO 3 < 0x40) ∧
      (wday.toNat ≤ 6 → byteAt t.outputs.imgO 4 < 0x08) ∧
      (-1 ≤ mon.toInt → mon.toInt ≤ 18 → byteAt t.outputs.imgO 5 < 0x20) ∧
      (80 ≤ sec.toNat → sec.toNat ≤ 99 → 0x80 ≤ byteAt t.outputs.imgO 0)

/-- R85. -/
def Obligations.TimeBlockRoundTrip : Prop :=
  ∀ (sec mins hour mday wday mon : Byte) (year : Year) (s s' : State),
    sec.toNat ≤ 59 → mins.toNat ≤ 59 → hour.toNat ≤ 23 → 1 ≤ mday.toNat → mday.toNat ≤ 31 → wday.toNat ≤ 6 →
    mon.toNat ≤ 11 → 2000 ≤ year.toNat → year.toNat ≤ 2099 →
    ∃ t u, exec (.tbPack sec mins hour mday wday mon year) s = .next t ∧ t.outputs.oor = 0 ∧
      exec (.tbUnpack t.outputs.imgO) s' = .next u ∧ u.outputs.secO = sec ∧ u.outputs.minO = mins ∧
      u.outputs.hourO = hour ∧ u.outputs.mdayO = mday ∧ u.outputs.wdayO = wday ∧ u.outputs.monO = mon ∧
      u.outputs.yearO = year

/-- R86: the round trip of R85 on the wider ranges, `oor` = 0 included, and where it fails just outside. -/
def Obligations.WiderRoundTripAndItsEdge : Prop :=
  ∀ (sec mins hour mday wday mon : Byte) (year : Year) (s s' : State),
    ∃ t u, exec (.tbPack sec mins hour mday wday mon year) s = .next t ∧
      exec (.tbUnpack t.outputs.imgO) s' = .next u ∧
      (sec.toNat ≤ 79 → mins.toNat ≤ 79 → hour.toNat ≤ 39 → mday.toNat ≤ 39 → wday.toNat ≤ 7 →
        -1 ≤ mon.toInt → mon.toInt ≤ 18 → 2000 ≤ year.toNat → year.toNat ≤ 2099 →
        t.outputs.oor = 0 ∧ u.outputs.secO = sec ∧ u.outputs.minO = mins ∧ u.outputs.hourO = hour ∧
          u.outputs.mdayO = mday ∧ u.outputs.wdayO = wday ∧ u.outputs.monO = mon ∧ u.outputs.yearO = year) ∧
      (sec.toNat = 80 → byteAt t.outputs.imgO 0 = 0x80 ∧ u.outputs.secO = 0) ∧
      (mon.toInt = 19 → byteAt t.outputs.imgO 5 = 0x20 ∧ u.outputs.monO.toInt = -1)

/-- R87. -/
def Obligations.UnpackedYearRange : Prop :=
  ∀ (img : Image) (s : State), ∃ t, exec (.tbUnpack img) s = .next t ∧ 2000 ≤ t.outputs.yearO.toNat ∧
    t.outputs.yearO.toNat ≤ 2165 ∧
    (byteAt img 6 / 16 ≤ 9 → byteAt img 6 % 16 ≤ 9 → t.outputs.yearO.toNat ≤ 2099)

/-! ### The countdown family -/

/-- R88 (with R91 and R92): every request, on the disable path, at second and at minute resolution. -/
def Obligations.CdSelectResult : Prop :=
  ∀ (secs : Delay) (a : Byte) (s : State),
    ∃ t, exec (.cdSelect secs a) s = .next t ∧ t.inputs.op = 0b100 ∧ t.inputs.secsI = secs ∧ t.inputs.a = a ∧
      t.outputs.oor = 0 ∧ t.outputs.ill = false ∧
      (secs.toInt < 0 →
        t.outputs.dis = true ∧ t.outputs.ctrl2O = a &&& 0xF2 ∧ t.outputs.tctlO = 0x03 ∧ t.outputs.weTcnt = false ∧
          t.outputs.appliedO.toInt = -1 ∧ t.outputs.tcntO = Config.anyBits .tcntO s.draws 8 ∧
          t.outputs.resMin = Config.anyBit .resMin s.draws) ∧
      (0 ≤ secs.toInt →
        t.outputs.dis = false ∧ t.outputs.ctrl2O = (a &&& 0x73) ||| 0x01 ∧ t.outputs.weTcnt = true ∧
          (t.outputs.tcntO.toNat : Int) = ticks secs.toInt ∧ t.outputs.appliedO.toInt = applied secs.toInt) ∧
      (0 ≤ secs.toInt → secs.toInt < 270 → t.outputs.resMin = false ∧ t.outputs.tctlO = 0x82) ∧
      (270 ≤ secs.toInt → t.outputs.resMin = true ∧ t.outputs.tctlO = 0x83)

/-- R97. -/
def Obligations.CdSelectLaws : Prop :=
  ∀ (secs : Delay) (a : Byte) (s : State), ∃ t, exec (.cdSelect secs a) s = .next t ∧
    (0 ≤ secs.toInt →
      0 ≤ t.outputs.appliedO.toInt ∧ t.outputs.appliedO.toInt ≤ 15300 ∧
        (t.outputs.resMin = false → (t.outputs.tcntO.toNat : Int) = t.outputs.appliedO.toInt) ∧
        (t.outputs.resMin = true → (t.outputs.tcntO.toNat : Int) = t.outputs.appliedO.toInt / 60) ∧
        t.outputs.ctrl2O.getLsbD 0 = true ∧ t.outputs.ctrl2O.getLsbD 7 = false ∧
        t.outputs.ctrl2O.getLsbD 3 = false ∧ t.outputs.ctrl2O.getLsbD 2 = false) ∧
    (secs.toInt < 0 →
      t.outputs.appliedO.toInt = -1 ∧ t.outputs.ctrl2O.getLsbD 0 = false ∧ t.outputs.ctrl2O.getLsbD 3 = false ∧
        t.outputs.ctrl2O.getLsbD 2 = false)

/-- R98: where the applied delay is the request, how far it is from it, and that it never decreases. -/
def Obligations.AppliedDelayLaws : Prop :=
  ∀ (secs secs' : Delay) (a a' : Byte) (s s' : State),
    ∃ t t', exec (.cdSelect secs a) s = .next t ∧ exec (.cdSelect secs' a') s' = .next t' ∧
      (0 ≤ secs.toInt →
        (t.outputs.appliedO.toInt = secs.toInt ↔
          secs.toInt ≤ 255 ∨ (300 ≤ secs.toInt ∧ secs.toInt ≤ 15300 ∧ secs.toInt % 60 = 0))) ∧
      (270 ≤ secs.toInt → secs.toInt ≤ 15329 →
        t.outputs.appliedO.toInt - secs.toInt ≤ 30 ∧ secs.toInt - t.outputs.appliedO.toInt ≤ 30) ∧
      (0 ≤ secs.toInt → secs.toInt ≤ secs'.toInt → t.outputs.appliedO.toInt ≤ t'.outputs.appliedO.toInt)

/-- R96. -/
def Obligations.Ctrl2AckResult : Prop :=
  ∀ (a : Byte) (s : State), ∃ t, exec (.ctrl2Ack a) s = .next t ∧ t.inputs.op = 0b101 ∧ t.inputs.a = a ∧
    t.outputs.y = a &&& 0xF3 ∧ t.outputs.y.getLsbD 2 = false ∧ t.outputs.y.getLsbD 3 = false ∧
    (∀ k, k ≠ 2 → k ≠ 3 → t.outputs.y.getLsbD k = a.getLsbD k) ∧ t.outputs.oor = 0 ∧ t.outputs.ill = false

/-- R89, R99: the acknowledged byte is the `base` that both paths of CD_SELECT start from. -/
def Obligations.AckIsCountdownBase : Prop :=
  ∀ (a : Byte) (secs : Delay) (s s' : State),
    ∃ t u, exec (.ctrl2Ack a) s = .next t ∧ exec (.cdSelect secs a) s' = .next u ∧ t.outputs.y = a &&& 0xF3 ∧
      t.outputs.y = cdBase a ∧
      (secs.toInt < 0 → u.outputs.ctrl2O = t.outputs.y &&& 0xFE) ∧
      (0 ≤ secs.toInt → u.outputs.ctrl2O = (t.outputs.y ||| 0x01) &&& 0x7F)

/-- What the bytes for the device mean there (R27, R28, R35, R124): arming enables the timer at its resolution with the flags
and the test bit clear, disabling idles it, acknowledging keeps the enable bit, and a nominal second leaves VL clear. -/
def Obligations.BytesAsDeviceFields : Prop :=
  (∀ (secs : Delay) (a : Byte) (s : State), ∃ t, exec (.cdSelect secs a) s = .next t ∧
    flagBits t.outputs.ctrl2O = 0 ∧
    (0 ≤ secs.toInt → enableBit t.outputs.ctrl2O = true ∧ testBit t.outputs.ctrl2O = false ∧
      timerMode t.outputs.tctlO = some (if secs.toInt < 270 then .secondResolution else .minuteResolution)) ∧
    (secs.toInt < 0 → enableBit t.outputs.ctrl2O = false ∧ testBit t.outputs.ctrl2O = testBit a ∧
      timerMode t.outputs.tctlO = some .idle)) ∧
  (∀ (a : Byte) (s : State), ∃ t, exec (.ctrl2Ack a) s = .next t ∧ flagBits t.outputs.y = 0 ∧
    enableBit t.outputs.y = enableBit a ∧ testBit t.outputs.y = testBit a) ∧
  ∀ (sec mins hour mday wday mon : Byte) (year : Year) (s : State),
    ∃ t, exec (.tbPack sec mins hour mday wday mon year) s = .next t ∧
      (sec.toNat ≤ 79 → vlBit (imgByte t.outputs.imgO 0) = false)

/-! ### All operations of the block -/

/-- R43 and the frame of all six operations: no access to the device or the bus, nothing of the host, and no input port
but `op` and those the operation reads. -/
def Obligations.BlockOperationsFrame : Prop :=
  ∀ (i : Instr) (s : State), ∃ t, exec i s = .next t ∧ t.device = s.device ∧ t.host = s.host ∧ t.bus = s.bus ∧
    t.others = s.others ∧ t.busLog = s.busLog ∧
    (∀ draw addr, t.device.readByte draw addr = s.device.readByte draw addr) ∧
    ∀ p : InPort, p ∉ i.mnemonic.reads → inputNumber t.inputs p = inputNumber s.inputs p

/-- What an operation leaves on the outputs is a function of the ports and of the draw alone (R14, R11), the ports being those
presented (R16, R64). That the ports the operation does not read keep what they held is log entry 6 (DEDUCED), and the counter
of the draws is the model's own (log entry 4, DESIGN CHOICE). -/
def Obligations.OutputsAreFunctionOfInputs : Prop :=
  ∀ (i : Instr) (s : State), ∃ t, exec i s = .next t ∧ t.inputs = i.presentOn s.inputs ∧
    t.outputs = blockOutputs t.inputs s.draws ∧ t.draws = s.draws + 1

/-- R64 (with R21): ports an operation does not read have no effect on any output, and ports it does not write are free. -/
def Obligations.PortsReadAndWritten : Prop :=
  (∀ (p q : Inputs) (draw : Nat), p.op = q.op →
    (∀ m, decodeOp p.op = .ok m → ∀ port ∈ m.reads, inputNumber p port = inputNumber q port) →
    blockOutputs p draw = blockOutputs q draw) ∧
  (∀ (i : Instr) (s : State) (port : OutPort), port ≠ .oor → port ≠ .ill → port ∉ dataWrites i.mnemonic →
    ∃ t, exec i s = .next t ∧ t.outputs.number port = (Outputs.draw s.draws).number port) ∧
  (∀ (p : Inputs) (draw : Nat) (e : DecodeError), decode p = .error e →
    (blockOutputs p draw).ill = true ∧ (blockOutputs p draw).oor = 0 ∧
      ∀ port : OutPort, port ≠ .oor → port ≠ .ill →
        (blockOutputs p draw).number port = (Outputs.draw draw).number port)

/-! ### Invariants and whole-machine rules -/

/-- Every step keeps the invariant, from every state that meets it. -/
def Obligations.StepKeepsInvariant : Prop := ∀ s t : State, s.Inv → step s = .next t → t.Inv

/-- The power-up state meets the invariant and is settled (log entry 4); and queueing a well-formed call and creating the
host anew keep the invariant, the latter with the device's registers kept (R131). -/
def Obligations.ResetMeetsInvariant : Prop :=
  State.reset.Inv ∧ State.reset.Settled ∧ (∀ (s : State) (c : HostCall), s.Inv → c.wf = true → (s.call c).Inv) ∧
    ∀ (s : State) (cfg : ControllerConfig), s.Inv → (s.restartHost cfg).Inv ∧ (s.restartHost cfg).device = s.device

/-- A system that meets the invariant never meets a refusal; it stops only at a reserved code on the ports, or at a
transaction that never completes (R66, R102). -/
def Obligations.WellFormedSystemsGoOn : Prop :=
  ∀ s : State, s.Inv →
    (∃ t, step s = .next t) ∨ (s.Idle ∧ 6 ≤ s.inputs.op.toNat ∧ ∃ shown, step s = .fault (.illegalOp s.inputs.op shown)) ∨
      (s.nextOutcome = .never ∧ step s = .fault .stuckTransaction)

/-- R14, R135: the outputs stay a function of the inputs now present and of an earlier draw; a step that evaluates uses a
draw of its own. -/
def Obligations.OutputsStaySettled : Prop :=
  ∀ s t : State, step s = .next t →
    (s.Settled → t.Settled) ∧
      ((t.outputs = blockOutputs t.inputs s.draws ∧ t.draws = s.draws + 1) ∨
        (t.outputs = s.outputs ∧ t.inputs = s.inputs))

/-- Each transaction completes before the next starts (R56), and only the host makes any (R43): a step makes at most one
transaction, that of the host's line with the outcome that comes next, which joins the end of the log, uses up a draw and leaves
the device as a read or write with that outcome does (R46; after a failed write 93 U6); a step that makes none leaves the device
as the writes of other callers left it. That a step is so fine is the model's choice (log entry 1, DESIGN CHOICE), and so are the
counter of the draws (log entry 4), that a failed write changes no register but its own (log entry 9), the low 8 bits that WR
sends (log entry 18), the log (log entry 24), and that other callers' writes land before the step (log entry 15). -/
def Obligations.OneTransactionPerStep : Prop :=
  ∀ s t : State, step s = .next t →
    (t.busLog = s.busLog ∧ t.device = s.landOthers.device) ∨
    ∃ (act : Activity) (l : Option Nat) (ok : Bool), s.host.activity = some act ∧ s.nextOutcome = outcome ok ∧
      t.draws = s.draws + 1 ∧
      ((∃ reg n x, act.program[act.line]? = some ⟨l, .rd reg n x⟩ ∧
          t.busLog = s.busLog ++ [s.host.event (.read reg n) ok] ∧
          (ok = true → t.device = s.landOthers.device.afterReads s.draws reg n) ∧
          (ok = false → t.device = s.landOthers.device)) ∨
        ∃ reg es bytes, act.program[act.line]? = some ⟨l, .wr reg es⟩ ∧
          bytes = es.map (fun e => BitVec.ofInt 8 (evalExpr s.outputs act.vars e)) ∧
          t.busLog = s.busLog ++ [s.host.event (.write reg bytes) ok] ∧
          (ok = true → TakesBytes s.landOthers.device t.device reg bytes) ∧
          (ok = false → LosesRegisters s.landOthers.device t.device reg bytes.length))

/-- A step changes neither the bus address (R38, R112) nor the error policy (R100), nor the premise `Quiet` (92 D17), which the
model has as a field that no step changes (log entry 8, DESIGN CHOICE); a running call keeps the waiting ones waiting (R58, in the
form of log entry 15, DESIGN CHOICE: one call of this host at a time, in the order they came); a call of `initialize` (R133) that
returns success, and nothing else, marks the host initialised, and the mark stays (the mark is the model's, log entry 16,
DEDUCED); and the bus pins and the interrupt pin change only as a call of `initialize` starts, to its arguments (log entry 13,
DEDUCED). -/
def Obligations.StepKeepsConfiguration : Prop :=
  ∀ s t : State, step s = .next t →
    t.host.config.devAddr = s.host.config.devAddr ∧ t.host.config.errPolicy = s.host.config.errPolicy ∧
      t.device.quiet = s.device.quiet ∧
      (∀ act, s.host.activity = some act → t.host.requests = s.host.requests) ∧
      (s.host.initialised = true → t.host.initialised = true) ∧
      (t.host.initialised = true → s.host.initialised = true ∨
        ∃ act l scl sda pin, s.host.activity = some act ∧ act.call = .initializeRtc scl sda pin ∧
          act.program[act.line]? = some ⟨l, .ret .success⟩ ∧ t.host.activity = none ∧ t.host.result = some .success) ∧
      (∀ act l scl sda pin, s.host.activity = some act → act.call = .initializeRtc scl sda pin →
        act.program[act.line]? = some ⟨l, .ret .success⟩ →
        t.host.initialised = true ∧ t.host.activity = none ∧ t.host.result = some .success) ∧
      (t.host.config = s.host.config ∨
        ∃ scl sda pin rest, s.host.activity = none ∧ s.host.requests = .initializeRtc scl sda pin :: rest ∧
          t.host.config.busPins = some (scl, sda) ∧ t.host.config.intPin = pin)

/-! ### The device and the transport -/

/-- R47: the byte at position `i` of a transaction is register `reg + i`; no other register is written. A write is kept in
each of the 16 registers of 92 D17, of which `Holds` says that it is one (0x0D among them, log entry 10). -/
def Obligations.TransactionsRunInRisingOrder : Prop :=
  ∀ (d : Device) (draw reg n : Nat) (bytes : List Byte),
    (∀ i, i < n → (d.readBytes draw reg n)[i]? = some (d.readByte draw (reg + i))) ∧
    (∀ i b, bytes[i]? = some b → Holds (reg + i) → lookup (d.writeBytes reg bytes).regs (reg + i) = some b) ∧
    ∀ a, a < reg ∨ reg + bytes.length ≤ a → lookup (d.writeBytes reg bytes).regs a = lookup d.regs a

/-- R53: under `Quiet` a successful read of known registers gives their contents and changes nothing. -/
def Obligations.QuietReadsGiveTheRegisters : Prop :=
  ∀ (d : Device) (draw reg : Nat) (bytes : List Byte), d.quiet = true →
    (∀ i b, bytes[i]? = some b → lookup d.regs (reg + i) = some b) →
    d.readBytes draw reg bytes.length = bytes ∧ d.afterReads draw reg bytes.length = d

/-- Under `Quiet` a register does not change between reads: reading again gives the same bytes, known or not (R125; 92 D17;
log entry 8). This is of each of the 16 registers of 92 D17, 0x0D among them (log entry 10). -/
def Obligations.QuietReadsRepeat : Prop :=
  ∀ (d : Device) (draw draw' reg n : Nat), d.quiet = true → (∀ i, i < n → Holds (reg + i)) →
    (d.afterReads draw reg n).readBytes draw' reg n = d.readBytes draw reg n

/-- 92 D17: with or without `Quiet`, a register outside the time block reads as the last byte written, but for bits 3:2 of
register 0x01 (of register 0x0F, which 93 U15 leaves open while the timer runs, this is the model's choice: log entry 20, DESIGN
CHOICE; of 0x0D it is log entry 10); without `Quiet` a byte of the time block reads as the free value of the draw, and so do
bits 3:2 of register 0x01; and so does, in either case, a byte whose content is not known. -/
def Obligations.DeviceReadsAreLastWrittenOrFree : Prop :=
  ∀ (d : Device) (draw addr : Nat) (b : Byte),
    (Holds addr → addr < 2 ∨ 8 < addr → addr ≠ 1 → (d.writeByte addr b).readByte draw addr = b) ∧
    (∀ k, k ≠ 2 → k ≠ 3 → ((d.writeByte 1 b).readByte draw 1).getLsbD k = b.getLsbD k) ∧
    (d.quiet = false → 2 ≤ addr → addr ≤ 8 → d.readByte draw addr = Config.anyRegister draw addr) ∧
    (d.quiet = false → ∀ k, k = 2 ∨ k = 3 →
      (d.readByte draw 1).getLsbD k = (Config.anyRegister draw 1).getLsbD k) ∧
    (lookup d.regs addr = none → d.readByte draw addr = Config.anyRegister draw addr)

/-- After a failed write none of its registers is known (93 U6; 91 N24), and every other register is as it was (the model's
choice: log entry 9, DESIGN CHOICE). -/
def Obligations.FailedWriteLosesItsRegisters : Prop :=
  ∀ (s : State) (reg : Nat) (bytes : List Byte),
    LosesRegisters s.device (s.afterWriteTransaction reg bytes false).device reg bytes.length

/-- What a host statement does when its transaction ends with TransportError (R100, R101; 93 U6), and which calls stop there
(R100). A failed transaction is over like another: it is in the log and its draw is used up, so that the next one is free anew.
That a failed write changes no register but its own is the model's choice (log entry 9, DESIGN CHOICE), and so are the step
in which a call starts (log entry 1), the counter of the draws (log entry 4), the landing of other callers' writes (log entry
15), the low 8 bits that WR sends (log entry 18) and the log (log entry 24); first_failure is read as in log entry 23. -/
def Obligations.TransportErrorPolicy : Prop :=
  (∀ p, propagatesErrors p .getTime = true) ∧ (∀ p c, propagatesErrors p (.setTime c) = true) ∧
  (∀ p scl sda pin, propagatesErrors p (.initializeRtc scl sda pin) = decide (p = .firstFailure)) ∧
  (∀ p n, propagatesErrors p (.setCountdownAlarm n) = decide (p = .firstFailure)) ∧
  (∀ p, propagatesErrors p .clearAlarmFlag = decide (p = .firstFailure)) ∧
  (∀ p, propagatesErrors p .disableAlarm = decide (p = .firstFailure)) ∧
  (∀ s c, c.fits = true → (s : State).Ready c →
    ∃ t, step s = .next t ∧
      t.host.activity = some (Activity.start s.host.config.errPolicy c) ∧
      (Activity.start s.host.config.errPolicy c).propagates = propagatesErrors s.host.config.errPolicy c) ∧
  ∀ (s : State) (act : Activity) (l : Option Nat) (reg n x : Nat) (es : List Expr),
    s.host.activity = some act → s.nextOutcome = .error →
    (act.program[act.line]? = some ⟨l, .rd reg n x⟩ → InDevice reg n →
      ∃ t, step s = .next t ∧ t.busLog = s.busLog ++ [s.host.event (.read reg n) false] ∧ t.draws = s.draws + 1 ∧
        t.device = s.landOthers.device ∧ t.outputs = s.outputs ∧
        (act.propagates = true → t.host.activity = none ∧ t.host.result = some .transportError) ∧
        (act.propagates = false →
          t.host.activity = some (act.assign x (bytesNumber (anyBytes s.draws reg n))) ∧
            t.host.result = s.host.result)) ∧
    (act.program[act.line]? = some ⟨l, .wr reg es⟩ → InDevice reg es.length →
      ∃ t, step s = .next t ∧
        t.busLog = s.busLog ++ [s.host.event (.write reg
          (es.map fun e => BitVec.ofInt 8 (evalExpr s.outputs act.vars e))) false] ∧
        t.draws = s.draws + 1 ∧ LosesRegisters s.landOthers.device t.device reg es.length ∧ t.outputs = s.outputs ∧
        (act.propagates = true → t.host.activity = none ∧ t.host.result = some .transportError) ∧
        (act.propagates = false → t.host.activity = some act.onward ∧ t.host.result = s.host.result))

/-- R102: a transaction that never completes gives the host no next step. -/
def Obligations.StuckTransactionHasNoNextStep : Prop :=
  ∀ (s : State) (act : Activity) (l : Option Nat) (reg n x : Nat) (es : List Expr),
    s.host.activity = some act → s.nextOutcome = .never →
    (act.program[act.line]? = some ⟨l, .rd reg n x⟩ → InDevice reg n → step s = .fault .stuckTransaction) ∧
    (act.program[act.line]? = some ⟨l, .wr reg es⟩ → InDevice reg es.length → step s = .fault .stuckTransaction)

/-! ### The host's operations -/

/-- R70: what each host statement does, a transaction being one that succeeds (R13, R46); no statement here is a block operation,
so the outputs stay. A transaction leaves the bytes it staged in the scratch buffer (R39; log entry 14), and uses up a draw, so
that what the next one reads is free anew (93 U6; the counter is log entry 4, DESIGN CHOICE). Of a program of the
caller's own it is the model's choice (log entry 18, DESIGN CHOICE) that WR sends the low 8 bits of each value, that RD makes the
number with byte 0 in the low 8 bits whatever the length (R50 says so of the time block), and what expressions and conditions
are; and what RD, WR and RET may name is log entry 30. That other callers' writes land before the line (`landOthers`) is log entry 15, that a transaction of no byte is one like the
others is log entry 27, and that a label that marks two lines is the first of them is log entry 28. -/
def Obligations.HostStatementsRun : Prop :=
  ∀ (s : State) (act : Activity) (l : Option Nat), s.host.activity = some act →
    (∀ reg n x, act.program[act.line]? = some ⟨l, .rd reg n x⟩ → InDevice reg n → s.nextOutcome = .ok →
      ∃ t, step s = .next t ∧ t.busLog = s.busLog ++ [s.host.event (.read reg n) true] ∧
        t.host.scratch = s.landOthers.device.readBytes s.draws reg n ∧
        t.host.activity = some { act with
          line := act.line + 1
          vars := store act.vars x (bytesNumber (s.landOthers.device.readBytes s.draws reg n)) } ∧
        t.device = s.landOthers.device.afterReads s.draws reg n ∧ t.draws = s.draws + 1 ∧ t.outputs = s.outputs) ∧
    (∀ reg es, act.program[act.line]? = some ⟨l, .wr reg es⟩ → InDevice reg es.length → s.nextOutcome = .ok →
      ∃ t bytes, step s = .next t ∧ bytes = es.map (fun e => BitVec.ofInt 8 (evalExpr s.outputs act.vars e)) ∧
        t.busLog = s.busLog ++ [s.host.event (.write reg bytes) true] ∧
        t.host.scratch = BitVec.ofNat 8 reg :: bytes ∧ t.device = s.landOthers.device.writeBytes reg bytes ∧
        t.host.activity = some { act with line := act.line + 1 } ∧ t.draws = s.draws + 1 ∧ t.outputs = s.outputs) ∧
    (∀ x e, act.program[act.line]? = some ⟨l, .assign x e⟩ →
      ∃ t, step s = .next t ∧ t.busLog = s.busLog ∧ t.device = s.landOthers.device ∧ t.outputs = s.outputs ∧
        t.host.activity = some { act with
          line := act.line + 1, vars := store act.vars x (evalExpr s.outputs act.vars e) }) ∧
    (∀ c g k, act.program[act.line]? = some ⟨l, .ifGoto c g⟩ →
      holds s.outputs act.vars s.host.config.intPin c = true → Program.find act.program g = some k →
      ∃ t, step s = .next t ∧ t.busLog = s.busLog ∧ t.device = s.landOthers.device ∧ t.outputs = s.outputs ∧
        t.host.activity = some { act with line := k }) ∧
    (∀ c g, act.program[act.line]? = some ⟨l, .ifGoto c g⟩ →
      holds s.outputs act.vars s.host.config.intPin c = false →
      ∃ t, step s = .next t ∧ t.busLog = s.busLog ∧ t.device = s.landOthers.device ∧ t.outputs = s.outputs ∧
        t.host.activity = some { act with line := act.line + 1 }) ∧
    (∀ g k, act.program[act.line]? = some ⟨l, .goto g⟩ → Program.find act.program g = some k →
      ∃ t, step s = .next t ∧ t.busLog = s.busLog ∧ t.device = s.landOthers.device ∧ t.outputs = s.outputs ∧
        t.host.activity = some { act with line := k }) ∧
    (∀ r, act.program[act.line]? = some ⟨l, .ret r⟩ →
      ∃ t, step s = .next t ∧ t.busLog = s.busLog ∧ t.device = s.landOthers.device ∧ t.outputs = s.outputs ∧
        t.host.activity = none ∧ t.host.result = some (retResult s.outputs act.vars r)) ∧
    (act.program[act.line]? = some ⟨l, .configureAsInput⟩ →
      ∃ t, step s = .next t ∧ t.busLog = s.busLog ∧ t.device = s.landOthers.device ∧ t.outputs = s.outputs ∧
        t.host.activity = some { act with line := act.line + 1 } ∧
        ∀ p, p ∈ t.host.inputPins ↔ p ∈ s.host.inputPins ∨ s.host.config.intPin = some p)

/-- Where a host line is refused by name: an access above register 0x0F (R45, log entry 10; one of no byte from 0x11 up is taken as
such, log entry 27), a jump to a label its program does
not have, and a line past the last one. Neither R70 nor another rule says what such a program does: the stops are the model's
choice (log entry 18, DESIGN CHOICE). The refused access takes no outcome, so it is refused whatever the bus would do. -/
def Obligations.IllFormedLinesAreRefused : Prop :=
  ∀ (s : State) (act : Activity) (l : Option Nat), s.host.activity = some act →
    (∀ reg n x, act.program[act.line]? = some ⟨l, .rd reg n x⟩ → 16 < reg + n →
      step s = .refused (.unnamedRegister reg n)) ∧
    (∀ reg es, act.program[act.line]? = some ⟨l, .wr reg es⟩ → 16 < reg + es.length →
      step s = .refused (.unnamedRegister reg es.length)) ∧
    (∀ c g, act.program[act.line]? = some ⟨l, .ifGoto c g⟩ →
      holds s.outputs act.vars s.host.config.intPin c = true → Program.find act.program g = none →
      step s = .refused (.noSuchLabel g)) ∧
    (∀ g, act.program[act.line]? = some ⟨l, .goto g⟩ → Program.find act.program g = none →
      step s = .refused (.noSuchLabel g)) ∧
    (act.program.length ≤ act.line → step s = .refused .programEnded)

/-- The values of host expressions and conditions (R70, with the operators of spec/00_scope.md part 4; which of them a host
program may use is log entry 18): a slice of an output port is those bits of the port, on the two's complement ports too, from
which `signed` gives their number back; and what each operator gives on values that are not negative. -/
def Obligations.HostExpressionsCompute : Prop :=
  ∀ (o : Outputs) (vars : List (Nat × Int)) (pin : Option Int),
    (∀ p hi lo, lo ≤ hi → hi < portWidth p →
      evalExpr o vars (.slice (.port p) hi lo) = ((portBits o p / 2 ^ lo % 2 ^ (hi + 1 - lo) : Nat) : Int)) ∧
    (∀ p, p = .monO ∨ p = .appliedO →
      evalExpr o vars (.signed (portWidth p) (.slice (.port p) (portWidth p - 1) 0)) = o.number p) ∧
    (∀ (e f : Expr) (a b : Nat), evalExpr o vars e = a → evalExpr o vars f = b →
      evalExpr o vars (.band e f) = ((a &&& b : Nat) : Int) ∧ evalExpr o vars (.bor e f) = ((a ||| b : Nat) : Int) ∧
        evalExpr o vars (.bxor e f) = ((a ^^^ b : Nat) : Int) ∧
        (∀ w, a < 2 ^ w → evalExpr o vars (.bnot w e) = ((2 ^ w - 1 - a : Nat) : Int)) ∧
        evalExpr o vars (.add e f) = (a : Int) + b ∧ evalExpr o vars (.sub e f) = (a : Int) - b ∧
        evalExpr o vars (.mul e f) = (a : Int) * b ∧ evalExpr o vars (.min e f) = min (a : Int) b ∧
        (b ≠ 0 → evalExpr o vars (.div e f) = ((a / b : Nat) : Int) ∧
          evalExpr o vars (.mod e f) = ((a % b : Nat) : Int)) ∧
        (∀ w, b < 2 ^ w → evalExpr o vars (.concat e w f) = ((a * 2 ^ w + b : Nat) : Int))) ∧
    ∀ (e f : Expr) (c d : Cond),
      (holds o vars pin (.eq e f) = true ↔ evalExpr o vars e = evalExpr o vars f) ∧
        (holds o vars pin (.ne e f) = true ↔ evalExpr o vars e ≠ evalExpr o vars f) ∧
        (holds o vars pin (.lt e f) = true ↔ evalExpr o vars e < evalExpr o vars f) ∧
        (holds o vars pin (.le e f) = true ↔ evalExpr o vars e ≤ evalExpr o vars f) ∧
        (holds o vars pin .validPin = true ↔ ∃ p, pin = some p ∧ Config.pinValid p = true) ∧
        (holds o vars pin (.and c d) = true ↔ holds o vars pin c = true ∧ holds o vars pin d = true) ∧
        (holds o vars pin (.or c d) = true ↔ holds o vars pin c = true ∨ holds o vars pin d = true) ∧
        (holds o vars pin (.not c) = true ↔ holds o vars pin c = false)

/-- R48: the six public operations make no transactions but those of the listed widths and registers. -/
def Obligations.HostUsesOnlyListedAccesses : Prop :=
  ∀ c : HostCall, (∀ p, c ≠ .custom p) → ∀ line ∈ expand c, usesOnlyR48 line.stmt

/-- R103, R65: a call with a value too wide for its port is rejected before any transaction or block operation, and so is an
operand too wide for its port in a caller's own program (log entry 17). That the rejection takes one step is the model's grain
(log entry 1, DESIGN CHOICE). -/
def Obligations.TooWideValuesAreRejected : Prop :=
  (∀ (s : State) (c : HostCall), s.Ready c → c.fits = false →
    ∃ t, step s = .next t ∧ t.Returned .rejected ∧ t.busLog = s.busLog ∧ t.outputs = s.outputs ∧
      t.inputs = s.inputs ∧ t.device = s.landOthers.device) ∧
  (∀ n : Int, (HostCall.setCountdownAlarm n).fits = true ↔ -2147483648 ≤ n ∧ n ≤ 2147483647) ∧
  ∀ (s : State) (act : Activity) (l : Option Nat) (m : Mnemonic) (args : List (InPort × Expr)) (arg : InPort × Expr),
    s.host.activity = some act → act.program[act.line]? = some ⟨l, .block m args⟩ → arg ∈ args →
    ¬arg.1.Fits (evalExpr s.outputs act.vars arg.2) →
    ∃ t, step s = .next t ∧ t.host.activity = none ∧ t.host.result = some .rejected ∧ t.busLog = s.busLog ∧
      t.outputs = s.outputs ∧ t.inputs = s.inputs

/-- `initialize` (R104, R134), whatever the three writes return where errors are swallowed (R100). That a failed write changes no
register but its own is the model's choice (log entry 9, DESIGN CHOICE), and so is the grain of the 7 steps (log entry 1, DESIGN
CHOICE). -/
def Obligations.InitializeSequence : Prop :=
  ∀ (s : State) (scl sda : Int) (pin : Option Int) (ok1 ok2 ok3 : Bool) (rest : List BusOutcome),
    s.Ready (.initializeRtc scl sda pin) → s.others = [] → GoesOn s [ok1, ok2, ok3] →
    s.bus = outcome ok1 :: outcome ok2 :: outcome ok3 :: rest →
    ∃ t, run 7 s = .next t ∧ t.Returned .success ∧ t.outputs = s.outputs ∧
      t.Logged s.busLog [s.host.event (.write 0x00 [0x00]) ok1, s.host.event (.write 0x00 [0x00]) ok2,
        s.host.event (.write 0x0E [0x03]) ok3] ∧
      (∀ p, pin = some p → Config.pinValid p = true → p ∈ t.host.inputPins) ∧
      (∀ p, p ∈ t.host.inputPins → p ∈ s.host.inputPins ∨ (pin = some p ∧ Config.pinValid p = true)) ∧
      (ok2 = true → t.device.known .control1 = some 0x00) ∧
      (ok3 = true → t.device.known .timerControl = some 0x03) ∧
      KeepsOtherRegisters s.device t.device [0x00, 0x0E]

/-- `getTime` (R105), on success and on TransportError; the registers outside the time block keep what is known of them (R55: no
side effect of a read is named). The grain of the 4 and 2 steps is the model's choice (log entry 1, DESIGN CHOICE). -/
def Obligations.GetTimeSequence : Prop :=
  ∀ (s : State) (ok : Bool) (rest : List BusOutcome), s.Ready .getTime → s.others = [] → s.bus = outcome ok :: rest →
    (ok = true → ∃ img t, run 4 s = .next t ∧
      (∀ k, k < 7 → byteAt img k = (s.device.readByte s.draws (2 + k)).toNat) ∧
      t.Returned (.time (calendarOf img) false) ∧ t.Logged s.busLog [s.host.event (.read 0x02 7) true] ∧
      KeepsOtherRegisters s.device t.device [2, 3, 4, 5, 6, 7, 8]) ∧
    (ok = false → ∃ t, run 2 s = .next t ∧ t.Returned .transportError ∧ t.outputs = s.outputs ∧
      t.Logged s.busLog [s.host.event (.read 0x02 7) false] ∧ t.device = s.device)

/-- R106: `setTime` writes the image TB_PACK gives, whatever `oor` says, in one transaction. That after a failed write none of
the seven registers is known is 93 U6, and that every other register is as it was is log entry 9 (DESIGN CHOICE). The grain of
the 4 and 3 steps is the model's choice (log entry 1, DESIGN CHOICE). -/
def Obligations.SetTimeSequence : Prop :=
  ∀ (s : State) (c : CalendarTime) (ok : Bool) (rest : List BusOutcome), c.Fits → s.Ready (.setTime c) →
    s.others = [] → s.bus = outcome ok :: rest →
    ∃ p, exec (.tbPack (BitVec.ofInt 8 c.sec) (BitVec.ofInt 8 c.mins) (BitVec.ofInt 8 c.hour) (BitVec.ofInt 8 c.mday)
        (BitVec.ofInt 8 c.wday) (BitVec.ofInt 8 c.mon) (BitVec.ofInt 16 c.year)) s = .next p ∧
      (ok = true → ∃ t, run 4 s = .next t ∧ t.Returned .success ∧
        t.Logged s.busLog [s.host.event (.write 0x02 ((List.range 7).map (imgByte p.outputs.imgO))) true] ∧
        (∀ k, k < 7 → lookup t.device.regs (2 + k) = some (imgByte p.outputs.imgO k)) ∧
        KeepsOtherRegisters s.device t.device [2, 3, 4, 5, 6, 7, 8]) ∧
      (ok = false → ∃ t, run 3 s = .next t ∧ t.Returned .transportError ∧
        t.Logged s.busLog [s.host.event (.write 0x02 ((List.range 7).map (imgByte p.outputs.imgO))) false] ∧
        (∀ k, k < 7 → lookup t.device.regs (2 + k) = none) ∧
        KeepsOtherRegisters s.device t.device [2, 3, 4, 5, 6, 7, 8])

/-- R85 at the host (spec/95_test_vectors.md X2, P3): under `Quiet` (92 D17), `setTime` then `getTime` returns the same nominal
time. That the two waiting calls are served in the order they came is the model's choice (log entry 15, DESIGN CHOICE), and so is
the grain of the 8 steps (log entry 1, DESIGN CHOICE). -/
def Obligations.SetTimeThenGetTime : Prop :=
  ∀ (s : State) (c : CalendarTime) (rest : List BusOutcome), c.Nominal → s.host.activity = none →
    s.host.requests = [.setTime c, .getTime] → s.others = [] → s.device.quiet = true →
    s.bus = .ok :: .ok :: rest →
    ∃ t, run 8 s = .next t ∧ t.Returned (.time c false)

/-- `setCountdownAlarm` (R107, R138) on the arm and on the disable path, whatever its transactions return where errors are
swallowed (R100); after a failed read the byte is free (R101). That a failed write changes no register but its own is the model's
choice (log entry 9, DESIGN CHOICE), and so is the grain of the steps (log entry 1, DESIGN CHOICE). -/
def Obligations.SetCountdownAlarmSequence : Prop :=
  ∀ (s : State) (n : Int) (ok1 ok2 ok3 ok4 : Bool) (rest : List BusOutcome), InPort.secsI.Fits n →
    s.Ready (.setCountdownAlarm n) → s.others = [] → GoesOn s [ok1, ok2, ok3, ok4] →
    s.bus = outcome ok1 :: outcome ok2 :: outcome ok3 :: outcome ok4 :: rest →
    ∃ r p, (ok1 = true → r = s.device.readByte s.draws 0x01) ∧ (ok1 = false → r = Config.anyRegister s.draws 0x01) ∧
      exec (.cdSelect (BitVec.ofInt 32 n) r) s = .next p ∧
      (0 ≤ n → ∃ t, run 8 s = .next t ∧ t.Returned (.value p.outputs.appliedO.toInt) ∧
        t.Logged s.busLog [s.host.event (.read 0x01 1) ok1, s.host.event (.write 0x0E [p.outputs.tctlO]) ok2,
          s.host.event (.write 0x0F [p.outputs.tcntO]) ok3, s.host.event (.write 0x01 [p.outputs.ctrl2O]) ok4] ∧
        (ok2 = true → t.device.known .timerControl = some p.outputs.tctlO) ∧
        (ok3 = true → t.device.known .timerCount = some p.outputs.tcntO) ∧
        (ok4 = true → t.device.known .control2 = some p.outputs.ctrl2O) ∧
        KeepsOtherRegisters s.device t.device [0x01, 0x0E, 0x0F]) ∧
      (n < 0 → ∃ t, run 7 s = .next t ∧ t.Returned (.value (-1)) ∧
        t.Logged s.busLog [s.host.event (.read 0x01 1) ok1, s.host.event (.write 0x01 [p.outputs.ctrl2O]) ok2,
          s.host.event (.write 0x0E [0x03]) ok3] ∧
        (ok2 = true → t.device.known .control2 = some p.outputs.ctrl2O) ∧
        (ok3 = true → t.device.known .timerControl = some 0x03) ∧
        KeepsOtherRegisters s.device t.device [0x01, 0x0E])

/-- The five requests the source gives (R110), with no other agent writing. The grain of the 7 and 8 steps is the model's choice
(log entry 1, DESIGN CHOICE). -/
def Obligations.SetCountdownAlarmExamples : Prop :=
  ∀ (s : State) (n : Int) (rest : List BusOutcome), s.Ready (.setCountdownAlarm n) → s.others = [] →
    s.bus = .ok :: .ok :: .ok :: .ok :: rest →
    (n = -1 → ∃ t b, run 7 s = .next t ∧ t.Returned (.value (-1)) ∧ t.device.known .timerControl = some 0x03 ∧
      t.device.known .control2 = some b ∧ enableBit b = false) ∧
    ∀ (r : Int) (mode count : Byte),
      (n, r, mode, count) ∈ [((100 : Int), (100 : Int), (0x82 : Byte), (100 : Byte)), (260, 255, 0x82, 255),
        (300, 300, 0x83, 5), (20000, 15300, 0x83, 255)] →
      ∃ t, run 8 s = .next t ∧ t.Returned (.value r) ∧ t.device.known .timerControl = some mode ∧
        t.device.known .timerCount = some count

/-- `clearAlarmFlag` (R108) makes exactly one read and one write, whatever they return where errors are swallowed (R100); after a
failed read the byte is free (R101). That a failed write changes no register but its own is the model's choice (log entry 9,
DESIGN CHOICE), and so is the grain of the 5 steps (log entry 1, DESIGN CHOICE). -/
def Obligations.ClearAlarmFlagSequence : Prop :=
  ∀ (s : State) (ok1 ok2 : Bool) (rest : List BusOutcome), s.Ready .clearAlarmFlag → s.others = [] →
    GoesOn s [ok1, ok2] → s.bus = outcome ok1 :: outcome ok2 :: rest →
    ∃ r t, (ok1 = true → r = s.device.readByte s.draws 0x01) ∧ (ok1 = false → r = Config.anyRegister s.draws 0x01) ∧
      run 5 s = .next t ∧ t.Returned .success ∧
      t.Logged s.busLog [s.host.event (.read 0x01 1) ok1, s.host.event (.write 0x01 [r &&& 0xF3]) ok2] ∧
      (ok2 = true → t.device.known .control2 = some (r &&& 0xF3)) ∧ KeepsOtherRegisters s.device t.device [0x01]

/-- R136: in `clearAlarmFlag` and in `setCountdownAlarm`, a write by another caller at any moment between the read of register
0x01 and the write to it is not seen: the byte written back is from the earlier read, with bits 3:2 as 0. It takes `Quiet`
(92 D17), under which the writes that `others` holds count as writes (log entry 8), and these land between two steps (log entry
15). `k` says between which: 0 is right after the read. The grain of the steps is the model's choice (log entry 1, DESIGN
CHOICE). -/
def Obligations.StaleReadIsWrittenBack : Prop :=
  ∀ (s : State) (r : Byte) (cells : List Host.Cell) (k : Nat) (rest : List BusOutcome),
    s.device.quiet = true → s.device.known .control2 = some r →
    s.others = [] :: [] :: (List.replicate k [] ++ [cells]) →
    (s.Ready .clearAlarmFlag → k ≤ 1 → s.bus = .ok :: .ok :: rest →
      ∃ t, run 5 s = .next t ∧ t.Returned .success ∧ t.device.known .control2 = some (r &&& 0xF3) ∧
        KeepsOtherRegisters (s.device.takeCells cells) t.device [0x01]) ∧
    ∀ n : Int, InPort.secsI.Fits n → s.Ready (.setCountdownAlarm n) → s.bus = .ok :: .ok :: .ok :: .ok :: rest →
      (0 ≤ n → k ≤ 4 →
        ∃ t, run 8 s = .next t ∧ t.Returned (.value (applied n)) ∧
          t.device.known .control2 = some ((r &&& 0x73) ||| 0x01) ∧
          KeepsOtherRegisters (s.device.takeCells cells) t.device [0x01, 0x0E, 0x0F]) ∧
      (n < 0 → k ≤ 2 →
        ∃ t, run 7 s = .next t ∧ t.Returned (.value (-1)) ∧ t.device.known .control2 = some (r &&& 0xF2) ∧
          KeepsOtherRegisters (s.device.takeCells cells) t.device [0x01, 0x0E])

/-- `disableAlarm` (R109) makes exactly its three writes, whatever they return where errors are swallowed (R100). That a failed
write changes no register but its own is the model's choice (log entry 9, DESIGN CHOICE), and so is the grain of the 5 steps (log
entry 1, DESIGN CHOICE). -/
def Obligations.DisableAlarmSequence : Prop :=
  ∀ (s : State) (ok1 ok2 ok3 : Bool) (rest : List BusOutcome), s.Ready .disableAlarm → s.others = [] →
    GoesOn s [ok1, ok2, ok3] → s.bus = outcome ok1 :: outcome ok2 :: outcome ok3 :: rest →
    ∃ t, run 5 s = .next t ∧ t.Returned .success ∧ t.outputs = s.outputs ∧
      t.Logged s.busLog [s.host.event (.write 0x09 [0x80, 0x80, 0x80, 0x80]) ok1,
        s.host.event (.write 0x0E [0x00]) ok2, s.host.event (.write 0x01 [0x00]) ok3] ∧
      (ok1 = true → ∀ k, k < 4 → lookup t.device.regs (9 + k) = some 0x80) ∧
      (ok2 = true → t.device.known .timerControl = some 0x00) ∧
      (ok3 = true → t.device.known .control2 = some 0x00) ∧
      KeepsOtherRegisters s.device t.device [0x01, 0x09, 0x0A, 0x0B, 0x0C, 0x0E]

/-- Every public operation ends, within 8 steps, whenever its transactions complete, with success or not, and whatever
other callers write. What the bound counts, one step, is the model's grain (log entry 1, DESIGN CHOICE). -/
def Obligations.HostCallsReturn : Prop :=
  ∀ (s : State) (c : HostCall), (∀ p, c ≠ .custom p) → s.Ready c → 4 ≤ s.bus.length → (∀ o ∈ s.bus, o ≠ .never) →
    ∃ k t r, k ≤ 8 ∧ run k s = .next t ∧ t.Returned r
end

