-- ==== Sys2Proof/Laws/State.lean ====
section
/-! SUPPORT. What each named update of State leaves in each field. -/

namespace Sys2Proof.Machine

variable (s : State) (act : Activity)

section evaluated
variable (i : Instr) (w : Outputs → Outputs)
@[simp] theorem evaluated_inputs : (s.evaluated i w).inputs = i.presentOn s.inputs := rfl
@[simp] theorem evaluated_outputs : (s.evaluated i w).outputs = w (Outputs.draw s.draws) := rfl
@[simp] theorem evaluated_draws : (s.evaluated i w).draws = s.draws + 1 := rfl
@[simp] theorem evaluated_device : (s.evaluated i w).device = s.device := rfl
@[simp] theorem evaluated_host : (s.evaluated i w).host = s.host := rfl
@[simp] theorem evaluated_bus : (s.evaluated i w).bus = s.bus := rfl
@[simp] theorem evaluated_others : (s.evaluated i w).others = s.others := rfl
@[simp] theorem evaluated_busLog : (s.evaluated i w).busLog = s.busLog := rfl
end evaluated

section resume
@[simp] theorem resume_inputs : (s.resume act).inputs = s.inputs := rfl
@[simp] theorem resume_outputs : (s.resume act).outputs = s.outputs := rfl
@[simp] theorem resume_draws : (s.resume act).draws = s.draws := rfl
@[simp] theorem resume_device : (s.resume act).device = s.device := rfl
@[simp] theorem resume_bus : (s.resume act).bus = s.bus := rfl
@[simp] theorem resume_others : (s.resume act).others = s.others := rfl
@[simp] theorem resume_busLog : (s.resume act).busLog = s.busLog := rfl
@[simp] theorem resume_config : (s.resume act).host.config = s.host.config := rfl
@[simp] theorem resume_scratch : (s.resume act).host.scratch = s.host.scratch := rfl
@[simp] theorem resume_inputPins : (s.resume act).host.inputPins = s.host.inputPins := rfl
@[simp] theorem resume_initialised : (s.resume act).host.initialised = s.host.initialised := rfl
@[simp] theorem resume_requests : (s.resume act).host.requests = s.host.requests := rfl
@[simp] theorem resume_activity : (s.resume act).host.activity = some act := rfl
@[simp] theorem resume_result : (s.resume act).host.result = s.host.result := rfl
end resume

section finish
variable (r : HostResult)
@[simp] theorem finish_inputs : (s.finish act r).inputs = s.inputs := rfl
@[simp] theorem finish_outputs : (s.finish act r).outputs = s.outputs := rfl
@[simp] theorem finish_draws : (s.finish act r).draws = s.draws := rfl
@[simp] theorem finish_device : (s.finish act r).device = s.device := rfl
@[simp] theorem finish_bus : (s.finish act r).bus = s.bus := rfl
@[simp] theorem finish_others : (s.finish act r).others = s.others := rfl
@[simp] theorem finish_busLog : (s.finish act r).busLog = s.busLog := rfl
@[simp] theorem finish_config : (s.finish act r).host.config = s.host.config := rfl
@[simp] theorem finish_scratch : (s.finish act r).host.scratch = s.host.scratch := rfl
@[simp] theorem finish_inputPins : (s.finish act r).host.inputPins = s.host.inputPins := rfl
@[simp] theorem finish_initialised :
    (s.finish act r).host.initialised = initialisedAfter s.host.initialised act.call r := rfl
@[simp] theorem finish_requests : (s.finish act r).host.requests = s.host.requests := rfl
@[simp] theorem finish_activity : (s.finish act r).host.activity = none := rfl
@[simp] theorem finish_result : (s.finish act r).host.result = some r := rfl
end finish

section configure
@[simp] theorem configure_inputs : (s.configure act).inputs = s.inputs := rfl
@[simp] theorem configure_outputs : (s.configure act).outputs = s.outputs := rfl
@[simp] theorem configure_draws : (s.configure act).draws = s.draws := rfl
@[simp] theorem configure_device : (s.configure act).device = s.device := rfl
@[simp] theorem configure_bus : (s.configure act).bus = s.bus := rfl
@[simp] theorem configure_others : (s.configure act).others = s.others := rfl
@[simp] theorem configure_busLog : (s.configure act).busLog = s.busLog := rfl
@[simp] theorem configure_config : (s.configure act).host.config = s.host.config := rfl
@[simp] theorem configure_scratch : (s.configure act).host.scratch = s.host.scratch := rfl
@[simp] theorem configure_inputPins : (s.configure act).host.inputPins = s.host.configuredPins := rfl
@[simp] theorem configure_initialised : (s.configure act).host.initialised = s.host.initialised := rfl
@[simp] theorem configure_requests : (s.configure act).host.requests = s.host.requests := rfl
@[simp] theorem configure_activity : (s.configure act).host.activity = some act.onward := rfl
@[simp] theorem configure_result : (s.configure act).host.result = s.host.result := rfl
end configure

section afterRead
variable (reg n : Nat) (ok : Bool)
@[simp] theorem afterRead_inputs : (s.afterReadTransaction reg n ok).inputs = s.inputs := rfl
@[simp] theorem afterRead_outputs : (s.afterReadTransaction reg n ok).outputs = s.outputs := rfl
@[simp] theorem afterRead_draws : (s.afterReadTransaction reg n ok).draws = s.draws + 1 := rfl
@[simp] theorem afterRead_device : (s.afterReadTransaction reg n ok).device =
    if ok then s.device.afterReads s.draws reg n else s.device := rfl
@[simp] theorem afterRead_bus : (s.afterReadTransaction reg n ok).bus = s.bus.tail := rfl
@[simp] theorem afterRead_others : (s.afterReadTransaction reg n ok).others = s.others := rfl
@[simp] theorem afterRead_busLog : (s.afterReadTransaction reg n ok).busLog =
    s.busLog ++ [s.host.event (.read reg n) ok] := rfl
@[simp] theorem afterRead_host : (s.afterReadTransaction reg n ok).host =
    { s.host with scratch := s.readResult reg n ok } := rfl
end afterRead

section afterWrite
variable (reg : Nat) (bytes : List Byte) (ok : Bool)
@[simp] theorem afterWrite_inputs : (s.afterWriteTransaction reg bytes ok).inputs = s.inputs := rfl
@[simp] theorem afterWrite_outputs : (s.afterWriteTransaction reg bytes ok).outputs = s.outputs := rfl
@[simp] theorem afterWrite_draws : (s.afterWriteTransaction reg bytes ok).draws = s.draws + 1 := rfl
@[simp] theorem afterWrite_device : (s.afterWriteTransaction reg bytes ok).device =
    if ok then s.device.writeBytes reg bytes else s.device.loseBytes reg bytes.length := rfl
@[simp] theorem afterWrite_bus : (s.afterWriteTransaction reg bytes ok).bus = s.bus.tail := rfl
@[simp] theorem afterWrite_others : (s.afterWriteTransaction reg bytes ok).others = s.others := rfl
@[simp] theorem afterWrite_busLog : (s.afterWriteTransaction reg bytes ok).busLog =
    s.busLog ++ [s.host.event (.write reg bytes) ok] := rfl
@[simp] theorem afterWrite_host : (s.afterWriteTransaction reg bytes ok).host =
    { s.host with scratch := BitVec.ofNat 8 reg :: bytes } := rfl
end afterWrite

section startCall
variable (c : HostCall) (rest : List HostCall)
@[simp] theorem startCall_inputs : (s.startCall c rest).inputs = s.inputs := by unfold State.startCall; split <;> rfl
@[simp] theorem startCall_outputs : (s.startCall c rest).outputs = s.outputs := by unfold State.startCall; split <;> rfl
@[simp] theorem startCall_draws : (s.startCall c rest).draws = s.draws := by unfold State.startCall; split <;> rfl
@[simp] theorem startCall_device : (s.startCall c rest).device = s.device := by unfold State.startCall; split <;> rfl
@[simp] theorem startCall_bus : (s.startCall c rest).bus = s.bus := by unfold State.startCall; split <;> rfl
@[simp] theorem startCall_others : (s.startCall c rest).others = s.others := by unfold State.startCall; split <;> rfl
@[simp] theorem startCall_busLog : (s.startCall c rest).busLog = s.busLog := by unfold State.startCall; split <;> rfl
@[simp] theorem startCall_requests : (s.startCall c rest).host.requests = rest := by
  unfold State.startCall; split <;> rfl
@[simp] theorem startCall_scratch : (s.startCall c rest).host.scratch = s.host.scratch := by
  unfold State.startCall; split <;> rfl
@[simp] theorem startCall_inputPins : (s.startCall c rest).host.inputPins = s.host.inputPins := by
  unfold State.startCall; split <;> rfl
@[simp] theorem startCall_initialised : (s.startCall c rest).host.initialised = s.host.initialised := by
  unfold State.startCall; split <;> rfl
@[simp] theorem startCall_config : (s.startCall c rest).host.config =
    if c.fits then s.host.config.forCall c else s.host.config := by
  unfold State.startCall; split <;> rfl
@[simp] theorem startCall_activity : (s.startCall c rest).host.activity =
    if c.fits then some (Activity.start s.host.config.errPolicy c) else s.host.activity := by
  unfold State.startCall; split <;> rfl
@[simp] theorem startCall_result : (s.startCall c rest).host.result =
    if c.fits then none else some .rejected := by
  unfold State.startCall; split <;> rfl
end startCall

section landOthers
@[simp] theorem landOthers_inputs : s.landOthers.inputs = s.inputs := by unfold State.landOthers; split <;> rfl
@[simp] theorem landOthers_outputs : s.landOthers.outputs = s.outputs := by unfold State.landOthers; split <;> rfl
@[simp] theorem landOthers_draws : s.landOthers.draws = s.draws := by unfold State.landOthers; split <;> rfl
@[simp] theorem landOthers_host : s.landOthers.host = s.host := by unfold State.landOthers; split <;> rfl
@[simp] theorem landOthers_bus : s.landOthers.bus = s.bus := by unfold State.landOthers; split <;> rfl
@[simp] theorem landOthers_busLog : s.landOthers.busLog = s.busLog := by unfold State.landOthers; split <;> rfl
@[simp] theorem landOthers_others : s.landOthers.others = s.others.tail := by
  unfold State.landOthers; split <;> simp_all
theorem landOthers_of_none (h : s.others = []) : s.landOthers = s := by unfold State.landOthers; simp [h]
end landOthers

section withFetchWord
variable (nbits w : Nat)
@[simp] theorem withFetchWord_inputs : (s.withFetchWord nbits w).inputs =
    { Inputs.zero with op := BitVec.ofNat 3 w } := rfl
@[simp] theorem withFetchWord_outputs : (s.withFetchWord nbits w).outputs = s.outputs := rfl
@[simp] theorem withFetchWord_draws : (s.withFetchWord nbits w).draws = s.draws := rfl
@[simp] theorem withFetchWord_device : (s.withFetchWord nbits w).device = s.device := rfl
@[simp] theorem withFetchWord_activity : (s.withFetchWord nbits w).host.activity = none := rfl
@[simp] theorem withFetchWord_requests : (s.withFetchWord nbits w).host.requests = [] := rfl
@[simp] theorem withFetchWord_config : (s.withFetchWord nbits w).host.config = s.host.config := rfl
@[simp] theorem withFetchWord_others : (s.withFetchWord nbits w).others = s.others := rfl
end withFetchWord

section activity
variable (x : Nat) (v : Int)
@[simp] theorem onward_line : act.onward.line = act.line + 1 := rfl
@[simp] theorem onward_program : act.onward.program = act.program := rfl
@[simp] theorem onward_vars : act.onward.vars = act.vars := rfl
@[simp] theorem onward_call : act.onward.call = act.call := rfl
@[simp] theorem onward_propagates : act.onward.propagates = act.propagates := rfl
@[simp] theorem assign_line : (act.assign x v).line = act.line + 1 := rfl
@[simp] theorem assign_program : (act.assign x v).program = act.program := rfl
@[simp] theorem assign_vars : (act.assign x v).vars = store act.vars x v := rfl
@[simp] theorem assign_call : (act.assign x v).call = act.call := rfl
@[simp] theorem assign_propagates : (act.assign x v).propagates = act.propagates := rfl
end activity

end Sys2Proof.Machine
end

