-- ==== Sys2Proof/Laws/Exec.lean ====
section
/-! SUPPORT. What performing an operation does, once for all six, and what one step can be. -/

namespace Sys2Proof.Machine

/-- Every operation completes: its ports presented, its outputs written over the draw, one draw used up. -/
theorem exec_eq_evaluated (i : Instr) (s : State) : exec i s = .next (s.evaluated i (outputsOf i)) := by
  cases i <;> rfl

/-- Where exec answers a next state, it is that one. -/
theorem eq_of_exec {i : Instr} {s t : State} (h : exec i s = .next t) : t = s.evaluated i (outputsOf i) := by
  rw [exec_eq_evaluated] at h
  exact (Host.Outcome.next.inj h).symm

theorem mnemonic_readFrom_presentOn (i : Instr) (p : Inputs) : i.mnemonic.readFrom (i.presentOn p) = i := by
  cases i <;> rfl

theorem presentOn_op (i : Instr) (p : Inputs) : (i.presentOn p).op = i.mnemonic.code := by cases i <;> rfl

/-- One move is the host's next line, the start of a call, or an evaluation of the block. -/
theorem move_cases (s : State) :
    (∃ act, s.host.activity = some act ∧ move s = runActivity act s) ∨
    (∃ c rest, s.host.activity = none ∧ s.host.requests = c :: rest ∧ move s = .next (s.startCall c rest)) ∨
    (s.Idle ∧ move s = runPorts s) := by
  unfold move State.Idle
  cases h : s.host.activity with
  | some act => exact .inl ⟨act, rfl, rfl⟩
  | none =>
    cases h' : s.host.requests with
    | cons c rest => exact .inr (.inl ⟨c, rest, rfl, rfl, rfl⟩)
    | nil => exact .inr (.inr ⟨⟨rfl, rfl⟩, rfl⟩)

/-- Where an evaluation of the ports answers a next state, the ports hold an operation and it is performed. -/
theorem runPorts_next {s t : State} (h : runPorts s = .next t) :
    ∃ i, decode s.inputs = .ok i ∧ t = s.evaluated i (outputsOf i) := by
  unfold runPorts at h
  split at h
  · exact ⟨_, ‹_›, eq_of_exec h⟩
  · cases h

/-- Where a read answers a next state: the transaction succeeded, or failed and ended the call, or failed and the host
goes on with free bytes. -/
theorem runRead_next {act : Activity} {reg n x : Nat} {s t : State} (h : runRead act reg n x s = .next t) :
    (s.nextOutcome = .ok ∧
      t = (s.afterReadTransaction reg n true).resume (act.assign x (bytesNumber (s.readResult reg n true)))) ∨
    (s.nextOutcome = .error ∧ act.propagates = true ∧
      t = (s.afterReadTransaction reg n false).finish act .transportError) ∨
    (s.nextOutcome = .error ∧ act.propagates = false ∧
      t = (s.afterReadTransaction reg n false).resume (act.assign x (bytesNumber (s.readResult reg n false)))) := by
  unfold runRead at h
  split at h
  · cases ho : s.nextOutcome with
    | ok => rw [ho] at h; exact .inl ⟨rfl, (Host.Outcome.next.inj h).symm⟩
    | never => rw [ho] at h; cases h
    | error =>
      rw [ho] at h
      cases hp : act.propagates with
      | true => simp only [hp, if_true] at h; exact .inr (.inl ⟨rfl, rfl, (Host.Outcome.next.inj h).symm⟩)
      | false =>
        simp only [hp, Bool.false_eq_true, if_false] at h
        exact .inr (.inr ⟨rfl, rfl, (Host.Outcome.next.inj h).symm⟩)
  · cases h

/-- Where a write answers a next state: as for a read. -/
theorem runWrite_next {act : Activity} {reg : Nat} {bytes : List Byte} {s t : State}
    (h : runWrite act reg bytes s = .next t) :
    (s.nextOutcome = .ok ∧ t = (s.afterWriteTransaction reg bytes true).resume act.onward) ∨
    (s.nextOutcome = .error ∧ act.propagates = true ∧
      t = (s.afterWriteTransaction reg bytes false).finish act .transportError) ∨
    (s.nextOutcome = .error ∧ act.propagates = false ∧
      t = (s.afterWriteTransaction reg bytes false).resume act.onward) := by
  unfold runWrite at h
  split at h
  · cases ho : s.nextOutcome with
    | ok => rw [ho] at h; exact .inl ⟨rfl, (Host.Outcome.next.inj h).symm⟩
    | never => rw [ho] at h; cases h
    | error =>
      rw [ho] at h
      cases hp : act.propagates with
      | true => simp only [hp, if_true] at h; exact .inr (.inl ⟨rfl, rfl, (Host.Outcome.next.inj h).symm⟩)
      | false =>
        simp only [hp, Bool.false_eq_true, if_false] at h
        exact .inr (.inr ⟨rfl, rfl, (Host.Outcome.next.inj h).symm⟩)
  · cases h

/-- A read that answers a next state lies inside the device. -/
theorem inDevice_of_runRead {act : Activity} {reg n x : Nat} {s t : State} (h : runRead act reg n x s = .next t) :
    InDevice reg n := by
  by_contra hd
  rw [runRead, if_neg hd] at h
  cases h

/-- A write that answers a next state lies inside the device. -/
theorem inDevice_of_runWrite {act : Activity} {reg : Nat} {bytes : List Byte} {s t : State}
    (h : runWrite act reg bytes s = .next t) : InDevice reg bytes.length := by
  by_contra hd
  rw [runWrite, if_neg hd] at h
  cases h

/-- Where a jump answers a next state, the label marks a line and the host goes on there. -/
theorem jump_next {s t : State} {act : Activity} {l : Nat} (h : s.jump act l = .next t) :
    ∃ k, Program.find act.program l = some k ∧ t = s.resume { act with line := k } := by
  unfold State.jump at h
  split at h
  · exact ⟨_, ‹_›, (Host.Outcome.next.inj h).symm⟩
  · cases h

/-- What one host statement can do where it answers a next state. -/
theorem runStmt_next {act : Activity} {st : Stmt} {s t : State} (h : runStmt act st s = .next t) :
    (∃ reg n x, st = .rd reg n x ∧ runRead act reg n x s = .next t) ∨
    (∃ reg es, st = .wr reg es ∧
      runWrite act reg (es.map fun e => BitVec.ofInt 8 (evalExpr s.outputs act.vars e)) s = .next t) ∨
    (∃ x e, st = .assign x e ∧ t = s.resume (act.assign x (evalExpr s.outputs act.vars e))) ∨
    (∃ c l, st = .ifGoto c l ∧ holds s.outputs act.vars s.host.config.intPin c = false ∧ t = s.resume act.onward) ∨
    (∃ l k, ((∃ c, st = .ifGoto c l ∧ holds s.outputs act.vars s.host.config.intPin c = true) ∨ st = .goto l) ∧
      Program.find act.program l = some k ∧ t = s.resume { act with line := k }) ∨
    (∃ r, st = .ret r ∧ t = s.finish act (retResult s.outputs act.vars r)) ∨
    (∃ m args i, st = .block m args ∧
      m.assemble (args.map fun a => (a.1, evalExpr s.outputs act.vars a.2)) = some i ∧
      t = (s.resume act.onward).evaluated i (outputsOf i)) ∨
    (∃ m args, st = .block m args ∧
      m.assemble (args.map fun a => (a.1, evalExpr s.outputs act.vars a.2)) = none ∧ t = s.finish act .rejected) ∨
    (st = .configureAsInput ∧ t = s.configure act) := by
  cases st with
  | rd reg n x => exact .inl ⟨reg, n, x, rfl, h⟩
  | wr reg es => exact .inr (.inl ⟨reg, es, rfl, h⟩)
  | assign x e => exact .inr (.inr (.inl ⟨x, e, rfl, (Host.Outcome.next.inj h).symm⟩))
  | ifGoto c l =>
    simp only [runStmt] at h
    split at h
    · obtain ⟨k, hk, ht⟩ := jump_next h
      exact .inr (.inr (.inr (.inr (.inl ⟨l, k, .inl ⟨c, rfl, ‹_›⟩, hk, ht⟩))))
    · rename_i hc
      exact .inr (.inr (.inr (.inl ⟨c, l, rfl, by simpa using hc, (Host.Outcome.next.inj h).symm⟩)))
  | goto l =>
    obtain ⟨k, hk, ht⟩ := jump_next h
    exact .inr (.inr (.inr (.inr (.inl ⟨l, k, .inr rfl, hk, ht⟩))))
  | ret r => exact .inr (.inr (.inr (.inr (.inr (.inl ⟨r, rfl, (Host.Outcome.next.inj h).symm⟩)))))
  | block m args =>
    simp only [runStmt, runBlock] at h
    split at h
    · exact .inr (.inr (.inr (.inr (.inr (.inr (.inl ⟨m, args, _, rfl, ‹_›, eq_of_exec h⟩))))))
    · exact .inr (.inr (.inr (.inr (.inr (.inr (.inr (.inl
        ⟨m, args, rfl, ‹_›, (Host.Outcome.next.inj h).symm⟩)))))))
  | configureAsInput =>
    exact .inr (.inr (.inr (.inr (.inr (.inr (.inr (.inr ⟨rfl, (Host.Outcome.next.inj h).symm⟩)))))))

/-- Where the host's next line answers a next state, the line exists and its statement does. -/
theorem runActivity_next {act : Activity} {s t : State} (h : runActivity act s = .next t) :
    ∃ line, act.program[act.line]? = some line ∧ runStmt act line.stmt s = .next t := by
  unfold runActivity at h
  split at h
  · exact ⟨_, ‹_›, h⟩
  · cases h

end Sys2Proof.Machine
end

