-- ==== Sys2Proof/Laws/Words.lean ====
section
/-! SUPPORT. The arithmetic of digits, lanes and images: each definition of Operands.lean and Flags.lean on plain numbers. -/

namespace Sys2Proof.Machine

theorem hiNibble_eq (b : Byte) : hiNibble b = b.toNat / 16 := by
  have := b.isLt
  simp only [hiNibble, BitVec.extractLsb'_toNat, Nat.shiftRight_eq_div_pow]
  omega

theorem loNibble_eq (b : Byte) : loNibble b = b.toNat % 16 := by
  simp [loNibble, BitVec.extractLsb'_toNat]

theorem decBcd_eq (b : Byte) : decBcd b = b.toNat / 16 * 10 + b.toNat % 16 := by
  rw [decBcd, hiNibble_eq, loNibble_eq]

theorem decBcd_le (b : Byte) : decBcd b ≤ 165 := by
  have := b.isLt
  rw [decBcd_eq]; omega

theorem encBcd_toNat (v : Nat) (h : v ≤ 99) : (encBcd v).toNat = 16 * (v / 10) + v % 10 := by
  simp only [encBcd, BitVec.toNat_append, BitVec.toNat_ofNat]
  rw [Nat.shiftLeft_eq, ← Nat.shiftLeft_eq, ← Nat.shiftLeft_add_eq_or_of_lt (by omega), Nat.shiftLeft_eq]
  omega

theorem decBcd_encBcd (v : Nat) (h : v ≤ 99) : decBcd (encBcd v) = v := by
  rw [decBcd_eq, encBcd_toNat v h]; omega

theorem encBcd_validBcd (v : Nat) (h : v ≤ 99) : ValidBcd (encBcd v) := by
  rw [ValidBcd, hiNibble_eq, loNibble_eq, encBcd_toNat v h]; omega

theorem encBcd_decBcd (b : Byte) (h : ValidBcd b) : encBcd (decBcd b) = b := by
  rw [ValidBcd, hiNibble_eq, loNibble_eq] at h
  have := b.isLt
  apply BitVec.eq_of_toNat_eq
  rw [encBcd_toNat _ (by rw [decBcd_eq]; omega), decBcd_eq]
  omega

theorem encLane_of_encodable {v : Int} (any : Byte) (h : BcdEncodable v) : encLane any v = encBcd v.toNat := if_pos h
theorem encLane_of_not {v : Int} (any : Byte) (h : ¬BcdEncodable v) : encLane any v = any := if_neg h

theorem imgByte_toNat (img : Image) (k : Nat) : (imgByte img k).toNat = img.toNat / 256 ^ k % 256 := by
  simp only [imgByte, BitVec.extractLsb'_toNat, Nat.shiftRight_eq_div_pow, Nat.pow_mul]

section packImage
variable (b0 b1 b2 b3 b4 b5 b6 : Byte)

theorem packImage_toNat : (packImage b0 b1 b2 b3 b4 b5 b6).toNat =
    b0.toNat + 256 * (b1.toNat + 256 * (b2.toNat + 256 * (b3.toNat + 256 * (b4.toNat + 256 * (b5.toNat +
      256 * b6.toNat))))) := by
  have h0 := b0.isLt; have h1 := b1.isLt; have h2 := b2.isLt; have h3 := b3.isLt; have h4 := b4.isLt
  have h5 := b5.isLt
  simp only [packImage, BitVec.toNat_append]
  repeat rw [← Nat.shiftLeft_add_eq_or_of_lt (by assumption), Nat.shiftLeft_eq]
  omega

@[simp] theorem imgByte_packImage_0 : imgByte (packImage b0 b1 b2 b3 b4 b5 b6) 0 = b0 := by
  apply BitVec.eq_of_toNat_eq; rw [imgByte_toNat, packImage_toNat]; have := b0.isLt; omega
@[simp] theorem imgByte_packImage_1 : imgByte (packImage b0 b1 b2 b3 b4 b5 b6) 1 = b1 := by
  apply BitVec.eq_of_toNat_eq; rw [imgByte_toNat, packImage_toNat]
  have := b0.isLt; have := b1.isLt; omega
@[simp] theorem imgByte_packImage_2 : imgByte (packImage b0 b1 b2 b3 b4 b5 b6) 2 = b2 := by
  apply BitVec.eq_of_toNat_eq; rw [imgByte_toNat, packImage_toNat]
  have := b0.isLt; have := b1.isLt; have := b2.isLt; omega
@[simp] theorem imgByte_packImage_3 : imgByte (packImage b0 b1 b2 b3 b4 b5 b6) 3 = b3 := by
  apply BitVec.eq_of_toNat_eq; rw [imgByte_toNat, packImage_toNat]
  have := b0.isLt; have := b1.isLt; have := b2.isLt; have := b3.isLt; omega
@[simp] theorem imgByte_packImage_4 : imgByte (packImage b0 b1 b2 b3 b4 b5 b6) 4 = b4 := by
  apply BitVec.eq_of_toNat_eq; rw [imgByte_toNat, packImage_toNat]
  have := b0.isLt; have := b1.isLt; have := b2.isLt; have := b3.isLt; have := b4.isLt; omega
@[simp] theorem imgByte_packImage_5 : imgByte (packImage b0 b1 b2 b3 b4 b5 b6) 5 = b5 := by
  apply BitVec.eq_of_toNat_eq; rw [imgByte_toNat, packImage_toNat]
  have := b0.isLt; have := b1.isLt; have := b2.isLt; have := b3.isLt; have := b4.isLt; have := b5.isLt; omega
@[simp] theorem imgByte_packImage_6 : imgByte (packImage b0 b1 b2 b3 b4 b5 b6) 6 = b6 := by
  apply BitVec.eq_of_toNat_eq; rw [imgByte_toNat, packImage_toNat]
  have := b0.isLt; have := b1.isLt; have := b2.isLt; have := b3.isLt; have := b4.isLt; have := b5.isLt
  have := b6.isLt; omega
end packImage

theorem bytesNumber_lt (bs : List Byte) : bytesNumber bs < 256 ^ bs.length := by
  induction bs with
  | nil => simp [bytesNumber]
  | cons b bs ih =>
    have := b.isLt
    simp only [bytesNumber, List.length_cons, Nat.pow_succ]
    omega

theorem bytesNumber_byte (bs : List Byte) (k : Nat) (h : k < bs.length) :
    bytesNumber bs / 256 ^ k % 256 = bs[k].toNat := by
  induction bs generalizing k with
  | nil => simp at h
  | cons b bs ih =>
    have hb := b.isLt
    cases k with
    | zero => simp only [bytesNumber, List.getElem_cons_zero]; omega
    | succ k =>
      have hk : k < bs.length := by simpa using h
      rw [List.getElem_cons_succ, ← ih k hk, bytesNumber, Nat.pow_succ', ← Nat.div_div_eq_div_mul]
      congr 2
      omega

/-- A slice of a value that is not negative is that slice of its bits. -/
theorem sliceOfNumber_natCast (n : Nat) {hi lo : Nat} (h : lo ≤ hi) :
    sliceOfNumber n hi lo = ((n / 2 ^ lo % 2 ^ (hi + 1 - lo) : Nat) : Int) := by
  simp [sliceOfNumber, h]

/-- The byte a host writes from byte `k` of an image port is that byte of the image (R50). -/
theorem ofInt_byteSlice (img : Image) (k : Nat) :
    BitVec.ofInt 8 (sliceOfNumber img.toNat (8 * k + 7) (8 * k)) = imgByte img k := by
  apply BitVec.eq_of_toNat_eq
  rw [imgByte_toNat, sliceOfNumber_natCast _ (by omega), BitVec.ofInt_natCast, BitVec.toNat_ofNat,
    show 8 * k + 7 + 1 - 8 * k = 8 by omega, Nat.pow_mul, show 2 ^ 8 = 256 from rfl]
  omega

/-- `&` on host values is AND on two's complement. -/
theorem andNumber_eq_land (a b : Int) : andNumber a b = Int.land a b := by
  have ldiff (m n : Nat) : m ^^^ (m &&& n) = Nat.ldiff m n := Nat.eq_of_testBit_eq fun i => by
    simp only [Nat.testBit_xor, Nat.testBit_and, Nat.testBit_ldiff]
    cases m.testBit i <;> cases n.testBit i <;> rfl
  cases a <;> cases b <;> simp [andNumber, Int.land, ldiff]

/-- `|` on host values is OR on two's complement. -/
theorem orNumber_eq_lor (a b : Int) : orNumber a b = Int.lor a b := by
  have not_eq (v : Int) : notNumber v = Int.lnot v := by cases v <;> simp only [notNumber, Int.lnot, Int.ofNat_eq_natCast] <;> omega
  have de_morgan : Int.lnot (Int.land (Int.lnot a) (Int.lnot b)) = Int.lor a b := by
    cases a <;> cases b <;> rfl
  rw [← de_morgan, orNumber, andNumber_eq_land, not_eq, not_eq, not_eq]

/-- The byte a host writes from an 8-bit port is the port's byte. -/
theorem ofInt_toNat (b : Byte) : BitVec.ofInt 8 (b.toNat : Int) = b := by simp

theorem oorLane_getLsbD (k j : Nat) (v : Int) :
    (oorLane k v).getLsbD j = (decide (j < 7) && decide (j = k) && !decide (BcdEncodable v)) := by
  unfold oorLane
  split <;> rename_i h
  · simp [h]
  · simp only [h, decide_false, Bool.not_false, Bool.and_true, BitVec.getLsbD_twoPow]
    by_cases hk : j = k
    · subst hk; simp
    · simp [hk, Ne.symm hk]

/-! ### Ports as numbers -/

/-- The byte on `y` after BCD_DEC is the decoded value: no bit is lost. -/
theorem ofNat_decBcd (b : Byte) : (BitVec.ofNat 8 (decBcd b)).toNat = decBcd b := by
  have := decBcd_le b; simp; omega

theorem toNat_ofInt_byte (v : Int) (h : 0 ≤ v ∧ v < 256) : ((BitVec.ofInt 8 v).toNat : Int) = v := by
  rw [BitVec.toNat_ofInt]; norm_num; omega
theorem toNat_ofInt_year (v : Int) (h : 0 ≤ v ∧ v < 65536) : ((BitVec.ofInt 16 v).toNat : Int) = v := by
  rw [BitVec.toNat_ofInt]; norm_num; omega
theorem toInt_ofInt_byte (v : Int) (h : -128 ≤ v ∧ v < 128) : (BitVec.ofInt 8 v).toInt = v := by
  rw [BitVec.toInt_ofInt_eq_self] <;> norm_num <;> omega
theorem toInt_ofInt_delay (v : Int) (h : -2147483648 ≤ v ∧ v < 2147483648) : (BitVec.ofInt 32 v).toInt = v := by
  rw [BitVec.toInt_ofInt_eq_self] <;> norm_num <;> omega

/-! ### Lanes and images -/

/-- The byte on a field port after TB_UNPACK is the lane's value: no bit is lost. -/
theorem ofNat_laneValue (img : Image) (k : Nat) : (BitVec.ofNat 8 (laneValue img k)).toNat = laneValue img k :=
  ofNat_decBcd _

theorem laneValue_eq (img : Image) (k : Nat) :
    laneValue img k = ((imgByte img k).toNat &&& (fieldMask k).toNat) / 16 * 10 +
      ((imgByte img k).toNat &&& (fieldMask k).toNat) % 16 := by
  rw [laneValue, decBcd_eq, BitVec.toNat_and]

/-- The year lane is decoded whole (R78; 92 D10). -/
theorem laneValue_year (img : Image) : laneValue img 6 = decBcd (imgByte img 6) := by
  rw [laneValue, show fieldMask 6 = BitVec.allOnes 8 from rfl, BitVec.and_allOnes]

theorem laneValue_month_le (img : Image) : laneValue img 5 ≤ 25 := by
  have h : ∀ b : Byte, decBcd (b &&& fieldMask 5) ≤ 25 := by decide
  exact h _

theorem month_toInt (img : Image) : (BitVec.ofInt 8 ((laneValue img 5 : Int) - 1)).toInt = (laneValue img 5 : Int) - 1 := by
  have := laneValue_month_le img
  exact toInt_ofInt_byte _ (by omega)

theorem year_toNat (img : Image) :
    (BitVec.ofInt 16 (centuryBase + (laneValue img 6 : Int))).toNat = 2000 + laneValue img 6 := by
  have h := decBcd_le (imgByte img 6)
  rw [laneValue_year, BitVec.toNat_ofInt]; simp [centuryBase]; omega

/-- An encoded value that its mask leaves alone decodes, masked, to itself (R86). -/
theorem decBcd_encLane_masked (v : Int) (any m : Byte) (limit : Nat) (hl : limit ≤ 99) (h0 : 0 ≤ v) (h : v ≤ limit)
    (hm : ∀ w : Fin 100, w.val ≤ limit → encBcd w.val &&& m = encBcd w.val) :
    (decBcd (encLane any v &&& m) : Int) = v := by
  obtain ⟨n, rfl⟩ := Int.eq_ofNat_of_zero_le h0
  rw [encLane_of_encodable _ ⟨by omega, by omega⟩, Int.toNat_natCast, hm ⟨n, by omega⟩ (by simpa using h),
    decBcd_encBcd _ (by omega)]

/-- Two images with the same seven bytes are the same. -/
theorem image_ext {x y : Image} (h : ∀ k, k < 7 → imgByte x k = imgByte y k) : x = y := by
  apply BitVec.eq_of_toNat_eq
  have hx := x.isLt; have hy := y.isLt
  have e : ∀ k, k < 7 → x.toNat / 256 ^ k % 256 = y.toNat / 256 ^ k % 256 := fun k hk => by
    rw [← imgByte_toNat, ← imgByte_toNat, h k hk]
  have h0 := e 0 (by omega); have h1 := e 1 (by omega); have h2 := e 2 (by omega); have h3 := e 3 (by omega)
  have h4 := e 4 (by omega); have h5 := e 5 (by omega); have h6 := e 6 (by omega)
  omega

/-- An image put together again from its bytes (R23, R50). -/
theorem ofNat_bytesNumber_image (img : Image) :
    BitVec.ofNat 56 (bytesNumber ((List.range 7).map (imgByte img))) = img := by
  apply BitVec.eq_of_toNat_eq
  have := img.isLt
  simp only [List.range, List.range.loop, List.map, bytesNumber, imgByte_toNat, BitVec.toNat_ofNat]
  omega

/-! ### The countdown -/

theorem cdTicks_range {s : Int} (h : 0 ≤ s) : 0 ≤ cdTicks s ∧ cdTicks s ≤ 255 := by
  unfold cdTicks cdThreshold cdMaxTicks; split <;> omega

theorem cdApplied_range {s : Int} (h : 0 ≤ s) : 0 ≤ cdTicks s * cdUnit s ∧ cdTicks s * cdUnit s ≤ 15300 := by
  have := cdTicks_range h
  unfold cdUnit; split <;> omega

end Sys2Proof.Machine
end

