-- ==== Sys2Proof/Laws/Encoding.lean ====
section
/-! SUPPORT. Presenting, decoding and assembling operations: what the host presents for the operand numbers it computed. -/

namespace Sys2Proof.Machine

theorem decode_presentOn (i : Instr) (p : Inputs) : decode (i.presentOn p) = .ok i := by cases i <;> rfl

theorem evaluated_blockOutputs (s : State) (i : Instr) :
    (s.evaluated i (outputsOf i)).outputs = blockOutputs (i.presentOn s.inputs) s.draws := by cases i <;> rfl

/-- The bytes of a 7-byte read, presented on `img_i` (R50, R105). -/
theorem assemble_tbUnpack (bytes : List Byte) (h : bytes.length = 7) :
    Mnemonic.tbUnpack.assemble [(.imgI, (bytesNumber bytes : Int))] =
      some (.tbUnpack (BitVec.ofNat 56 (bytesNumber bytes))) := by
  have := bytesNumber_lt bytes
  rw [h] at this
  refine (if_pos ⟨rfl, ?fit⟩).trans ?eqn
  case fit => simp [InPort.Fits, InPort.range]; omega
  case eqn => simp [Mnemonic.readFrom, Inputs.driveAll, Inputs.drive]

/-- The fields of a CalendarTime that fits, presented to TB_PACK (R106). -/
theorem assemble_tbPack (c : CalendarTime) (h : c.Fits) :
    Mnemonic.tbPack.assemble [(.secI, c.sec), (.minI, c.mins), (.hourI, c.hour), (.mdayI, c.mday), (.wdayI, c.wday),
        (.monI, c.mon), (.yearI, c.year)] =
      some (.tbPack (BitVec.ofInt 8 c.sec) (BitVec.ofInt 8 c.mins) (BitVec.ofInt 8 c.hour) (BitVec.ofInt 8 c.mday)
        (BitVec.ofInt 8 c.wday) (BitVec.ofInt 8 c.mon) (BitVec.ofInt 16 c.year)) := by
  obtain ⟨h1, h2, h3, h4, h5, h6, h7⟩ := h
  exact (if_pos ⟨rfl, by simp only [List.forall_mem_cons]; exact ⟨h1, h2, h3, h4, h5, h6, h7, by simp⟩⟩).trans rfl

/-- A delay that fits and the byte read from register 0x01, presented to CD_SELECT (R107). -/
theorem assemble_cdSelect (n : Int) (r : Byte) (h : InPort.secsI.Fits n) :
    Mnemonic.cdSelect.assemble [(.secsI, n), (.a, (bytesNumber [r] : Int))] = some (.cdSelect (BitVec.ofInt 32 n) r) := by
  have := r.isLt
  refine (if_pos ⟨rfl, ?fit⟩).trans ?eqn
  case fit => simp [bytesNumber]; exact ⟨h, by simp [InPort.Fits, InPort.range]; omega⟩
  case eqn => simp [Mnemonic.readFrom, Inputs.driveAll, Inputs.drive, bytesNumber]

/-- The byte read from register 0x01, presented to CTRL2_ACK (R108). -/
theorem assemble_ctrl2Ack (r : Byte) :
    Mnemonic.ctrl2Ack.assemble [(.a, (bytesNumber [r] : Int))] = some (.ctrl2Ack r) := by
  have := r.isLt
  refine (if_pos ⟨rfl, ?fit⟩).trans ?eqn
  case fit => simp [bytesNumber, InPort.Fits, InPort.range]; omega
  case eqn => simp [Mnemonic.readFrom, Inputs.driveAll, Inputs.drive, bytesNumber]

/-! ### Written images -/

theorem imageByteNumber_eq (img : Image) (k : Nat) :
    imageByteNumber img k = ((img.toNat / 256 ^ k % 256 : Nat) : Int) := by
  have := imgByte_toNat img k
  unfold imgByte at this
  unfold imageByteNumber
  rw [this]

theorem imageNumber_range (bs : List Int) (h : ∀ b ∈ bs, 0 ≤ b ∧ b < 256) :
    0 ≤ imageNumber bs ∧ imageNumber bs < 256 ^ bs.length := by
  induction bs with
  | nil => simp [imageNumber]
  | cons b bs ih =>
    have h1 := h b (by simp)
    have h2 := ih fun c hc => h c (by simp [hc])
    simp only [imageNumber, List.length_cons, pow_succ]
    omega

/-- An image put together again from its written bytes. -/
theorem ofInt_imageNumber (img : Image) :
    BitVec.ofInt 56 (imageNumber ((List.range 7).map (imageByteNumber img))) = img := by
  apply BitVec.eq_of_toNat_eq
  have := img.isLt
  simp only [List.range, List.range.loop, List.map, imageNumber, imageByteNumber_eq, BitVec.toNat_ofInt]
  norm_num
  omega

end Sys2Proof.Machine
end

