-- ==== Sys2Proof/Laws/Memory.lean ====
section
/-! SUPPORT. The tables by number and the device's registers: read after write, and that every operation keeps the
canonical form and stays inside the device. -/

namespace Sys2Proof.Machine

section table
variable {α : Type}

/-- The canonical form of a table. -/
abbrev Rising (m : List (Nat × α)) : Prop := m.Pairwise fun x y => x.1 < y.1

theorem lookup_store (m : List (Nat × α)) (a b : Nat) (v : α) :
    lookup (store m a v) b = if b = a then some v else lookup m b := by
  induction m with
  | nil => simp only [store, lookup]; split <;> simp_all [eq_comm]
  | cons c m ih =>
    obtain ⟨k, w⟩ := c
    simp only [store]
    split
    · simp only [lookup]; split <;> simp_all [eq_comm]
    · split
      · subst_vars; simp only [lookup]; split <;> simp_all [eq_comm]
      · simp only [lookup, ih]; split <;> split <;> simp_all

theorem lookup_erase (m : List (Nat × α)) (a b : Nat) :
    lookup (erase m a) b = if b = a then none else lookup m b := by
  induction m with
  | nil => simp [erase, lookup]
  | cons c m ih =>
    obtain ⟨k, w⟩ := c
    simp only [erase]
    split
    · subst_vars; rw [ih]; simp only [lookup]; by_cases hb : b = k <;> simp_all [eq_comm]
    · simp only [lookup, ih]; split <;> split <;> simp_all

theorem mem_store {m : List (Nat × α)} {a : Nat} {v : α} {c : Nat × α} (h : c ∈ store m a v) :
    c = (a, v) ∨ c ∈ m := by
  induction m with
  | nil => simpa [store] using h
  | cons d m ih =>
    obtain ⟨k, w⟩ := d
    simp only [store] at h
    split at h
    · simpa using h
    · split at h
      · simp only [List.mem_cons] at h ⊢; tauto
      · simp only [List.mem_cons] at h ⊢
        rcases h with h | h
        · tauto
        · rcases ih h with h | h <;> tauto

theorem mem_erase {m : List (Nat × α)} {a : Nat} {c : Nat × α} (h : c ∈ erase m a) : c ∈ m := by
  induction m with
  | nil => exact h
  | cons d m ih =>
    obtain ⟨k, w⟩ := d
    simp only [erase] at h
    split at h
    · exact List.mem_cons_of_mem _ (ih h)
    · simp only [List.mem_cons] at h ⊢
      exact h.imp id ih

theorem store_rising {m : List (Nat × α)} (h : Rising m) (a : Nat) (v : α) : Rising (store m a v) := by
  induction m with
  | nil => simp [store]
  | cons d m ih =>
    obtain ⟨k, w⟩ := d
    obtain ⟨h1, h2⟩ := List.pairwise_cons.1 h
    simp only [store]
    split
    · refine List.pairwise_cons.2 ⟨fun c hc => ?_, h⟩
      rcases List.mem_cons.1 hc with rfl | hc
      · assumption
      · exact Nat.lt_trans ‹_› (h1 c hc)
    · split
      · subst_vars; exact List.pairwise_cons.2 ⟨h1, h2⟩
      · refine List.pairwise_cons.2 ⟨fun c hc => ?_, ih h2⟩
        rcases mem_store hc with rfl | hc
        · exact Nat.lt_of_le_of_ne (Nat.not_lt.1 ‹_›) (Ne.symm ‹_›)
        · exact h1 c hc

theorem erase_rising {m : List (Nat × α)} (h : Rising m) (a : Nat) : Rising (erase m a) := by
  induction m with
  | nil => exact h
  | cons d m ih =>
    obtain ⟨k, w⟩ := d
    obtain ⟨h1, h2⟩ := List.pairwise_cons.1 h
    simp only [erase]
    split
    · exact ih h2
    · exact List.pairwise_cons.2 ⟨fun c hc => h1 c (mem_erase hc), ih h2⟩

end table

/-- The known registers are in canonical form and inside the device. -/
def Device.Canonical (d : Device) : Prop := d.regs.wf ∧ d.regs.inDevice

section device
variable {d : Device}

@[simp] theorem writeByte_quiet (a : Nat) (b : Byte) : (d.writeByte a b).quiet = d.quiet := by
  unfold Device.writeByte; split <;> rfl
@[simp] theorem loseByte_quiet (a : Nat) : (d.loseByte a).quiet = d.quiet := rfl
@[simp] theorem afterRead_quiet (n a : Nat) : (d.afterRead n a).quiet = d.quiet := by
  unfold Device.afterRead; split <;> simp

theorem lookup_writeByte (a c : Nat) (b : Byte) :
    lookup (d.writeByte a b).regs c = if Holds a ∧ c = a then some b else lookup d.regs c := by
  unfold Device.writeByte
  by_cases h : Holds a
  · rw [if_pos h]
    by_cases hc : c = a
    · rw [if_pos ⟨h, hc⟩, lookup_store, if_pos hc]
    · rw [if_neg fun x => hc x.2, lookup_store, if_neg hc]
  · rw [if_neg h, if_neg fun x => h x.1]

theorem lookup_loseByte (a c : Nat) :
    lookup (d.loseByte a).regs c = if c = a then none else lookup d.regs c := lookup_erase _ _ _

theorem writeByte_canonical (h : d.Canonical) (a : Nat) (b : Byte) : (d.writeByte a b).Canonical := by
  unfold Device.writeByte
  split
  · refine ⟨store_rising h.1 a b, fun c hc => ?_⟩
    rcases mem_store hc with rfl | hc
    · assumption
    · exact h.2 c hc
  · exact h

theorem loseByte_canonical (h : d.Canonical) (a : Nat) : (d.loseByte a).Canonical :=
  ⟨erase_rising h.1 a, fun c hc => h.2 c (mem_erase hc)⟩

theorem afterRead_canonical (h : d.Canonical) (n a : Nat) : (d.afterRead n a).Canonical := by
  unfold Device.afterRead
  split
  · exact writeByte_canonical h _ _
  · exact h

theorem writeBytes_canonical (h : d.Canonical) (a : Nat) (bs : List Byte) : (d.writeBytes a bs).Canonical := by
  induction bs generalizing d a with
  | nil => exact h
  | cons b bs ih => exact ih (writeByte_canonical h a b) (a + 1)

theorem loseBytes_canonical (h : d.Canonical) (a n : Nat) : (d.loseBytes a n).Canonical := by
  induction n generalizing d a with
  | zero => exact h
  | succ n ih => exact ih (loseByte_canonical h a) (a + 1)

theorem afterReads_canonical (h : d.Canonical) (k a n : Nat) : (d.afterReads k a n).Canonical := by
  induction n generalizing d a with
  | zero => exact h
  | succ n ih => exact ih (afterRead_canonical h k a) (a + 1)

theorem takeCells_canonical (h : d.Canonical) (cs : List Host.Cell) : (d.takeCells cs).Canonical := by
  induction cs generalizing d with
  | nil => exact h
  | cons c cs ih => exact ih (writeByte_canonical h c.1 c.2)

@[simp] theorem writeBytes_quiet (a : Nat) (bs : List Byte) : (d.writeBytes a bs).quiet = d.quiet := by
  induction bs generalizing d a with
  | nil => rfl
  | cons b bs ih => simp [Device.writeBytes, ih]

@[simp] theorem loseBytes_quiet (a n : Nat) : (d.loseBytes a n).quiet = d.quiet := by
  induction n generalizing d a with
  | zero => rfl
  | succ n ih => simp [Device.loseBytes, ih]

@[simp] theorem afterReads_quiet (k a n : Nat) : (d.afterReads k a n).quiet = d.quiet := by
  induction n generalizing d a with
  | zero => rfl
  | succ n ih => simp [Device.afterReads, ih]

@[simp] theorem takeCells_quiet (cs : List Host.Cell) : (d.takeCells cs).quiet = d.quiet := by
  induction cs generalizing d with
  | nil => rfl
  | cons c cs ih => simp [Device.takeCells, ih]

/-- A successful write leaves every register outside its own as it was. -/
theorem lookup_writeBytes_outside (a c : Nat) (bs : List Byte) (h : c < a ∨ a + bs.length ≤ c) :
    lookup (d.writeBytes a bs).regs c = lookup d.regs c := by
  induction bs generalizing d a with
  | nil => rfl
  | cons b bs ih =>
    simp only [List.length_cons] at h
    rw [Device.writeBytes, ih (a + 1) (by omega), lookup_writeByte, if_neg (by omega)]

/-- A register whose content is known keeps it through a read. -/
theorem afterRead_of_known {c : Nat} {b : Byte} (h : lookup d.regs c = some b) (n a : Nat) :
    lookup (d.afterRead n a).regs c = some b := by
  unfold Device.afterRead
  split
  · rename_i hc
    rw [lookup_writeByte, if_neg, h]
    rintro ⟨-, rfl⟩
    simp [hc.2] at h
  · exact h

/-- Under `Quiet` a known register reads as its content (R53; 92 D17). -/
theorem readByte_of_known {b : Byte} {c : Nat} (hq : d.quiet = true) (h : lookup d.regs c = some b) (n : Nat) :
    d.readByte n c = b := by
  simp only [Device.readByte, h, Device.volatileBits, hq, if_true]
  rw [show ~~~(0 : Byte) = BitVec.allOnes 8 from rfl, BitVec.and_allOnes]
  simp

/-- A register outside the time block, other than 0x01, reads as the last byte written (92 D17). -/
theorem readByte_writeByte_plain (a : Nat) (b : Byte) (n : Nat) (ha : Holds a) (hv : a < 2 ∨ 8 < a) (h1 : a ≠ 1) :
    (d.writeByte a b).readByte n a = b := by
  have hl : lookup (d.writeByte a b).regs a = some b := by rw [lookup_writeByte, if_pos ⟨ha, rfl⟩]
  have hvol : (d.writeByte a b).volatileBits a = 0 := by
    simp [Device.volatileBits, show ¬(2 ≤ a ∧ a ≤ 8) by omega, h1]
  simp only [Device.readByte, hl, hvol]
  rw [show ~~~(0 : Byte) = BitVec.allOnes 8 from rfl, BitVec.and_allOnes]
  simp

/-- A failed write takes its own registers out, and no other (93 U6). -/
theorem lookup_loseBytes (reg n a : Nat) :
    lookup (d.loseBytes reg n).regs a = if reg ≤ a ∧ a < reg + n then none else lookup d.regs a := by
  induction n generalizing d reg with
  | zero => simp only [Device.loseBytes]; rw [if_neg (by omega)]
  | succ n ih =>
    simp only [Device.loseBytes]
    rw [ih, lookup_loseByte]
    by_cases h1 : a = reg
    · subst h1; rw [if_neg (by omega), if_pos rfl, if_pos (by omega)]
    · rw [if_neg h1]; congr 1; apply propext; omega

/-- A successful write makes each of its bytes known (R46, R47). -/
theorem lookup_writeBytes_inside (reg i : Nat) (b : Byte) (bytes : List Byte) (hb : bytes[i]? = some b)
    (hh : Holds (reg + i)) : lookup (d.writeBytes reg bytes).regs (reg + i) = some b := by
  induction bytes generalizing d reg i with
  | nil => simp at hb
  | cons c bytes ih =>
    cases i with
    | zero =>
      obtain rfl : c = b := by simpa using hb
      rw [Device.writeBytes, Nat.add_zero, lookup_writeBytes_outside _ _ _ (by omega), lookup_writeByte,
        if_pos ⟨hh, rfl⟩]
    | succ i =>
      have := ih (d := d.writeByte reg c) (reg + 1) i (by simpa using hb)
        (by rw [show reg + 1 + i = reg + (i + 1) by omega]; exact hh)
      rw [Device.writeBytes, ← this]
      congr 1
      omega

theorem readBytes_length (n reg k : Nat) : (d.readBytes n reg k).length = k := by
  induction k generalizing reg with
  | zero => rfl
  | succ k ih => simp [Device.readBytes, ih]

/-- Byte `i` of a read is register `reg + i` (R47). -/
theorem readBytes_getElem? (draw reg n i : Nat) (hi : i < n) :
    (d.readBytes draw reg n)[i]? = some (d.readByte draw (reg + i)) := by
  induction n generalizing reg i with
  | zero => omega
  | succ n ih =>
    cases i with
    | zero => simp [Device.readBytes]
    | succ i =>
      simp only [Device.readBytes, List.getElem?_cons_succ]
      rw [ih (reg + 1) i (by omega)]
      congr 2
      omega

/-- A read leaves every register outside its own as it was. -/
theorem lookup_afterReads_outside (k reg n a : Nat) (h : a < reg ∨ reg + n ≤ a) :
    lookup (d.afterReads k reg n).regs a = lookup d.regs a := by
  induction n generalizing d reg with
  | zero => rfl
  | succ n ih =>
    rw [Device.afterReads, ih _ (by omega)]
    unfold Device.afterRead
    split
    · rw [lookup_writeByte, if_neg (by omega)]
    · rfl

/-- A read of a known register changes nothing. -/
theorem afterRead_known {c : Nat} {b : Byte} (h : lookup d.regs c = some b) (draw : Nat) : d.afterRead draw c = d := by
  unfold Device.afterRead; rw [if_neg]; simp [h]

end device

/-- A read transaction leaves every register outside its own as it was. -/
theorem lookup_afterReadTransaction (s : State) (reg n : Nat) (ok : Bool) (a : Nat) (h : a < reg ∨ reg + n ≤ a) :
    lookup (s.afterReadTransaction reg n ok).device.regs a = lookup s.device.regs a := by
  cases ok
  · rfl
  · exact lookup_afterReads_outside _ _ _ _ h

/-- A write transaction, failed or not, leaves every register outside its own as it was. -/
theorem lookup_afterWriteTransaction (s : State) (reg : Nat) (bytes : List Byte) (ok : Bool) (a : Nat)
    (h : a < reg ∨ reg + bytes.length ≤ a) :
    lookup (s.afterWriteTransaction reg bytes ok).device.regs a = lookup s.device.regs a := by
  cases ok
  · exact (lookup_loseBytes _ _ _).trans (if_neg (by omega))
  · exact lookup_writeBytes_outside _ _ _ h

theorem landOthers_canonical {s : State} (h : s.device.Canonical) : s.landOthers.device.Canonical := by
  unfold State.landOthers
  split
  · exact h
  · exact takeCells_canonical h _

/-- What the writes of other callers leave of the device: the first list has landed. -/
theorem landOthers_device (s : State) : s.landOthers.device = s.device.takeCells (s.others.headD []) := by
  unfold State.landOthers; split <;> simp_all [Device.takeCells]

/-- What a register is after writes of other callers depends on what it was alone. -/
theorem lookup_takeCells_congr {d e : Device} (cells : List Host.Cell) (a : Nat) (h : lookup d.regs a = lookup e.regs a) :
    lookup (d.takeCells cells).regs a = lookup (e.takeCells cells).regs a := by
  induction cells generalizing d e with
  | nil => exact h
  | cons c cells ih => exact ih (by simp only [lookup_writeByte, h])

@[simp] theorem landOthers_quiet (s : State) : s.landOthers.device.quiet = s.device.quiet := by
  unfold State.landOthers; split <;> simp

end Sys2Proof.Machine
end

