-- ==== Sys2Proof/Laws/PerInstr.lean ====
section
/-! SUPPORT. The per-instruction families of LAWS.json. -/

namespace Sys2Proof.Laws

/-- Presented on any port values, the operation decodes to itself: it reads the ports it drives and no other (R62, R64). -/
def Presented.Statement (i : Instr) : Prop :=
  ∀ p : Inputs, decode (i.presentOn p) = .ok i ∧ (i.presentOn p).op = i.mnemonic.code

theorem Presented.bcdDec (a : Byte) : Presented.Statement (.bcdDec a) := fun _ => ⟨rfl, rfl⟩
theorem Presented.bcdEnc (a : Byte) : Presented.Statement (.bcdEnc a) := fun _ => ⟨rfl, rfl⟩
theorem Presented.tbUnpack (img : Image) : Presented.Statement (.tbUnpack img) := fun _ => ⟨rfl, rfl⟩
theorem Presented.tbPack (sec mins hour mday wday mon : Byte) (year : Year) :
    Presented.Statement (.tbPack sec mins hour mday wday mon year) := fun _ => ⟨rfl, rfl⟩
theorem Presented.cdSelect (secs : Delay) (a : Byte) : Presented.Statement (.cdSelect secs a) := fun _ => ⟨rfl, rfl⟩
theorem Presented.ctrl2Ack (a : Byte) : Presented.Statement (.ctrl2Ack a) := fun _ => ⟨rfl, rfl⟩

end Sys2Proof.Laws
end

