-- ==== Sys2Proof/Laws/Run.lean ====
section
/-! SUPPORT. One step and a run of steps, for the host's sequences: what a step can do, and the step at each kind of line
where no other caller writes. -/

namespace Sys2Proof.Machine

/-- What one step can do where it answers a next state: the host's next line, the start of a call, or an evaluation of
what is on the ports. -/
theorem step_cases {s t : State} (h : step s = .next t) :
    (∃ act line, s.host.activity = some act ∧ act.program[act.line]? = some line ∧
      runStmt act line.stmt s.landOthers = .next t) ∨
    (∃ c rest, s.host.activity = none ∧ s.host.requests = c :: rest ∧ t = s.landOthers.startCall c rest) ∨
    (∃ i, s.Idle ∧ decode s.inputs = .ok i ∧ t = s.landOthers.evaluated i (outputsOf i)) := by
  unfold step at h
  rcases move_cases s.landOthers with ⟨act, ha, hm⟩ | ⟨c, rest, ha, hr, hm⟩ | ⟨⟨h1, h2⟩, hm⟩
  · rw [hm] at h
    obtain ⟨line, hl, hs⟩ := runActivity_next h
    exact .inl ⟨act, line, by simpa using ha, hl, hs⟩
  · rw [hm] at h
    exact .inr (.inl ⟨c, rest, by simpa using ha, by simpa using hr, (Host.Outcome.next.inj h).symm⟩)
  · rw [hm] at h
    obtain ⟨i, hd, ht⟩ := runPorts_next h
    exact .inr (.inr ⟨i, ⟨by simpa using h1, by simpa using h2⟩, by simpa using hd, ht⟩)

theorem run_zero (s : State) : run 0 s = .next s := rfl

theorem run_succ {s t : State} {k : Nat} (h : step s = .next t) : run (k + 1) s = run k t := by
  rw [run, h]

variable {s : State} {act : Activity} {l : Option Nat}

/-- A step at a line of the host is that line's statement. -/
theorem step_at {line : Line} (h : s.host.activity = some act) (hl : act.program[act.line]? = some line) :
    step s = runStmt act line.stmt s.landOthers := by
  simp [step, move, h, runActivity, hl]

/-- A step of an idle host with a waiting call is the start of that call. -/
theorem step_start {c : HostCall} {rest : List HostCall} (h : s.host.activity = none)
    (hr : s.host.requests = c :: rest) : step s = .next (s.landOthers.startCall c rest) := by
  simp [step, move, h, hr]

theorem step_rd_ok {reg n x : Nat} (h : s.host.activity = some act) (ho : s.others = [])
    (hl : act.program[act.line]? = some ⟨l, .rd reg n x⟩) (hd : InDevice reg n) (hb : s.nextOutcome = .ok) :
    step s = .next ((s.afterReadTransaction reg n true).resume
      (act.assign x (bytesNumber (s.device.readBytes s.draws reg n)))) := by
  rw [step_at h hl, landOthers_of_none _ ho]
  simp [runStmt, runRead, hd, hb, State.readResult]

theorem step_wr_ok {reg : Nat} {es : List Expr} (h : s.host.activity = some act) (ho : s.others = [])
    (hl : act.program[act.line]? = some ⟨l, .wr reg es⟩) (hd : InDevice reg es.length) (hb : s.nextOutcome = .ok) :
    step s = .next ((s.afterWriteTransaction reg
      (es.map fun e => BitVec.ofInt 8 (evalExpr s.outputs act.vars e)) true).resume act.onward) := by
  rw [step_at h hl, landOthers_of_none _ ho]
  simp [runStmt, runWrite, hd, hb]

theorem step_rd_error {reg n x : Nat} (h : s.host.activity = some act) (ho : s.others = [])
    (hl : act.program[act.line]? = some ⟨l, .rd reg n x⟩) (hd : InDevice reg n) (hb : s.nextOutcome = .error) :
    step s = if act.propagates then .next ((s.afterReadTransaction reg n false).finish act .transportError)
      else .next ((s.afterReadTransaction reg n false).resume
        (act.assign x (bytesNumber (anyBytes s.draws reg n)))) := by
  rw [step_at h hl, landOthers_of_none _ ho]
  simp [runStmt, runRead, hd, hb, State.readResult]

theorem step_wr_error {reg : Nat} {es : List Expr} (h : s.host.activity = some act) (ho : s.others = [])
    (hl : act.program[act.line]? = some ⟨l, .wr reg es⟩) (hd : InDevice reg es.length) (hb : s.nextOutcome = .error) :
    step s =
      if act.propagates then
        .next ((s.afterWriteTransaction reg
          (es.map fun e => BitVec.ofInt 8 (evalExpr s.outputs act.vars e)) false).finish act .transportError)
      else
        .next ((s.afterWriteTransaction reg
          (es.map fun e => BitVec.ofInt 8 (evalExpr s.outputs act.vars e)) false).resume act.onward) := by
  rw [step_at h hl, landOthers_of_none _ ho]
  simp [runStmt, runWrite, hd, hb]

theorem step_block {m : Mnemonic} {args : List (InPort × Expr)} {i : Instr} (h : s.host.activity = some act)
    (ho : s.others = []) (hl : act.program[act.line]? = some ⟨l, .block m args⟩)
    (ha : m.assemble (args.map fun a => (a.1, evalExpr s.outputs act.vars a.2)) = some i) :
    step s = .next ((s.resume act.onward).evaluated i (outputsOf i)) := by
  rw [step_at h hl, landOthers_of_none _ ho]
  simp [runStmt, runBlock, ha, exec_eq_evaluated]

theorem step_ret {r : RetExpr} (h : s.host.activity = some act) (ho : s.others = [])
    (hl : act.program[act.line]? = some ⟨l, .ret r⟩) :
    step s = .next (s.finish act (retResult s.outputs act.vars r)) := by
  rw [step_at h hl, landOthers_of_none _ ho]; rfl

theorem step_goto {g k : Nat} (h : s.host.activity = some act) (ho : s.others = [])
    (hl : act.program[act.line]? = some ⟨l, .goto g⟩) (hk : Program.find act.program g = some k) :
    step s = .next (s.resume { act with line := k }) := by
  rw [step_at h hl, landOthers_of_none _ ho]
  simp [runStmt, State.jump, hk]

theorem step_ifGoto {c : Cond} {g k : Nat} (h : s.host.activity = some act) (ho : s.others = [])
    (hl : act.program[act.line]? = some ⟨l, .ifGoto c g⟩) (hk : Program.find act.program g = some k) :
    step s = .next (s.resume
      (if holds s.outputs act.vars s.host.config.intPin c then { act with line := k } else act.onward)) := by
  rw [step_at h hl, landOthers_of_none _ ho]
  simp only [runStmt, State.jump, hk]
  split <;> rfl

theorem step_configure (h : s.host.activity = some act) (ho : s.others = [])
    (hl : act.program[act.line]? = some ⟨l, .configureAsInput⟩) : step s = .next (s.configure act) := by
  rw [step_at h hl, landOthers_of_none _ ho]; rfl

/-- The next transaction ends as the first listed outcome says. -/
theorem nextOutcome_cons {o : BusOutcome} {rest : List BusOutcome} (h : s.bus = o :: rest) : s.nextOutcome = o := by
  simp [State.nextOutcome, h]

/-- A read that completes either way, where the host goes on past an error. -/
theorem step_rd_any {reg n x : Nat} {ok : Bool} {rest : List BusOutcome} (h : s.host.activity = some act)
    (ho : s.others = []) (hl : act.program[act.line]? = some ⟨l, .rd reg n x⟩) (hd : InDevice reg n)
    (hb : s.bus = (if ok then .ok else .error) :: rest) (hp : act.propagates = false ∨ ok = true) :
    step s = .next ((s.afterReadTransaction reg n ok).resume
      (act.assign x (bytesNumber (s.readResult reg n ok)))) := by
  cases ok with
  | true => exact step_rd_ok h ho hl hd (nextOutcome_cons hb)
  | false => rw [step_rd_error h ho hl hd (nextOutcome_cons hb)]; simp at hp; simp [hp, State.readResult]

/-- A write that completes either way, where the host goes on past an error. -/
theorem step_wr_any {reg : Nat} {es : List Expr} {ok : Bool} {rest : List BusOutcome} (h : s.host.activity = some act)
    (ho : s.others = []) (hl : act.program[act.line]? = some ⟨l, .wr reg es⟩) (hd : InDevice reg es.length)
    (hb : s.bus = (if ok then .ok else .error) :: rest) (hp : act.propagates = false ∨ ok = true) :
    step s = .next ((s.afterWriteTransaction reg
      (es.map fun e => BitVec.ofInt 8 (evalExpr s.outputs act.vars e)) ok).resume act.onward) := by
  cases ok with
  | true => exact step_wr_ok h ho hl hd (nextOutcome_cons hb)
  | false => rw [step_wr_error h ho hl hd (nextOutcome_cons hb)]; simp at hp; simp [hp]

/-- A run continues where an earlier one ended. -/
theorem run_add {s t : State} (a b : Nat) (h : run a s = .next t) : run (a + b) s = run b t := by
  induction a generalizing s with
  | zero => cases h; simp
  | succ a ih =>
    rw [run] at h
    rw [show a + 1 + b = (a + b) + 1 by omega]
    cases hs : step s with
    | next u => rw [hs] at h; rw [run_succ hs]; exact ih h
    | fault _ => rw [hs] at h; cases h
    | refused _ => rw [hs] at h; cases h

end Sys2Proof.Machine
end

