-- ==== Sys2Proof/Laws/Programs.lean ====
section
/-! SUPPORT. Host programs: what being well formed gives, that each named update keeps the invariant, and how many steps a
program that only goes forward takes. -/

namespace Sys2Proof.Machine

/-! ### Well-formed programs -/

/-- Every call expands to a well-formed program (R71). -/
theorem expand_wf (c : HostCall) (h : c.wf = true) : Program.wf (expand c) = true := by
  cases c with
  | custom p => exact h
  | setTime _ | setCountdownAlarm _ | initializeRtc _ _ _ | getTime | clearAlarmFlag | disableAlarm => rfl

variable {p : Program} {k l : Nat} {line : Line}

theorem length_pos_of_wf (h : Program.wf p = true) : 0 < p.length := by
  cases p with
  | nil => simp [Program.wf] at h
  | cons a p => simp

/-- After a line that does not end the program there is another. -/
theorem onward_lt_of_wf (h : Program.wf p = true) (hl : p[k]? = some line) (he : line.stmt.ends = false) :
    k + 1 < p.length := by
  obtain ⟨hk, -⟩ := List.getElem?_eq_some_iff.1 hl
  by_contra hc
  have : p.getLast? = some line := by
    rw [List.getLast?_eq_getElem?, show p.length - 1 = k by omega]; exact hl
  simp [Program.wf, this, he] at h

theorem stmt_wf_of_wf (h : Program.wf p = true) (hl : p[k]? = some line) : line.stmt.wf p = true := by
  simp only [Program.wf, Bool.and_eq_true, List.all_eq_true] at h
  exact h.1 line (List.mem_of_getElem? hl)

theorem find_lt (h : Program.find p l = some k) : k < p.length := by
  unfold Program.find at h
  rw [List.findIdx?_eq_some_iff_getElem] at h
  exact h.1

theorem find_of_hasLabel (h : p.hasLabel l = true) : ∃ k, Program.find p l = some k := by
  have := List.findIdx?_isSome (xs := p) (p := fun line => line.label == some l)
  rw [show (p.any fun line => line.label == some l) = true from h] at this
  exact Option.isSome_iff_exists.1 this

/-! ### The pins configured as inputs -/

theorem mem_addPin {ps : List Int} {q r : Int} : r ∈ addPin ps q ↔ r = q ∨ r ∈ ps := by
  induction ps with
  | nil => simp [addPin]
  | cons a ps ih =>
    simp only [addPin]
    split
    · simp
    · split
      · subst_vars; simp
      · simp [ih]; tauto

theorem addPin_rising {ps : List Int} (h : ps.Pairwise (· < ·)) (q : Int) : (addPin ps q).Pairwise (· < ·) := by
  induction ps with
  | nil => simp [addPin]
  | cons a ps ih =>
    obtain ⟨h1, h2⟩ := List.pairwise_cons.1 h
    simp only [addPin]
    split
    · refine List.pairwise_cons.2 ⟨fun c hc => ?_, h⟩
      rcases List.mem_cons.1 hc with rfl | hc
      · assumption
      · exact Int.lt_trans ‹_› (h1 c hc)
    · split
      · exact h
      · refine List.pairwise_cons.2 ⟨fun c hc => ?_, ih h2⟩
        rcases mem_addPin.1 hc with rfl | hc
        · omega
        · exact h1 c hc

/-! ### What keeps the invariant -/

section inv
variable {s : State}

theorem landOthers_inv (h : s.Inv) : s.landOthers.Inv := by
  obtain ⟨h1, h2, h3, h4, h5⟩ := h
  have := landOthers_canonical (s := s) ⟨h1, h2⟩
  exact ⟨this.1, this.2, by simpa using h3, by simpa using h4, by simpa using h5⟩

theorem resume_inv (h : s.Inv) {act : Activity} (ha : act.Ok) : (s.resume act).Inv :=
  ⟨h.1, h.2.1, h.2.2.1, fun a e => by simp at e; exact e ▸ ha, h.2.2.2.2⟩

theorem finish_inv (h : s.Inv) (act : Activity) (r : HostResult) : (s.finish act r).Inv :=
  ⟨h.1, h.2.1, h.2.2.1, fun a e => by simp at e, h.2.2.2.2⟩

theorem afterReadTransaction_inv (h : s.Inv) (reg n : Nat) (ok : Bool) : (s.afterReadTransaction reg n ok).Inv := by
  have : (s.afterReadTransaction reg n ok).device.Canonical := by
    cases ok
    · exact ⟨h.1, h.2.1⟩
    · exact afterReads_canonical ⟨h.1, h.2.1⟩ _ _ _
  exact ⟨this.1, this.2, h.2.2⟩

theorem afterWriteTransaction_inv (h : s.Inv) (reg : Nat) (bytes : List Byte) (ok : Bool) :
    (s.afterWriteTransaction reg bytes ok).Inv := by
  have : (s.afterWriteTransaction reg bytes ok).device.Canonical := by
    cases ok
    · exact loseBytes_canonical ⟨h.1, h.2.1⟩ _ _
    · exact writeBytes_canonical ⟨h.1, h.2.1⟩ _ _
  exact ⟨this.1, this.2, h.2.2⟩

end inv

/-! ### Programs that end -/

/-- From line `k` the program ends the call within `m` steps, if at least `need` transactions are listed and all complete. -/
def EndsWithin (p : Program) (k need m : Nat) : Prop :=
  ∀ (s : State) (act : Activity), s.host.activity = some act → act.program = p → act.line = k → s.host.requests = [] →
    need ≤ s.bus.length → (∀ o ∈ s.bus, o ≠ .never) → ∃ j t r, j ≤ m ∧ run j s = .next t ∧ t.Returned r

section ends
variable {need m j : Nat} {lab : Option Nat}

theorem returned_after_step {s u : State} (h : step s = .next u)
    (hu : ∃ j t r, j ≤ m ∧ run j u = .next t ∧ t.Returned r) :
    ∃ j t r, j ≤ m + 1 ∧ run j s = .next t ∧ t.Returned r := by
  obtain ⟨j, t, r, hj, hr, ht⟩ := hu
  exact ⟨j + 1, t, r, by omega, by rw [run_succ h, hr], ht⟩

theorem returned_now {u : State} {r : HostResult} (h : u.Returned r) :
    ∃ j t r, j ≤ m ∧ run j u = .next t ∧ t.Returned r := ⟨0, u, r, by omega, rfl, h⟩

theorem endsWithin_ret {r : RetExpr} (h : p[k]? = some ⟨lab, .ret r⟩) : EndsWithin p k need (m + 1) := by
  rintro s act ha rfl rfl hr - -
  exact returned_after_step (step_at ha h)
    (returned_now (r := retResult s.landOthers.outputs act.vars r) ⟨rfl, by simpa using hr, rfl⟩)

theorem endsWithin_goto {g : Nat} (h : p[k]? = some ⟨lab, .goto g⟩) (hf : Program.find p g = some j)
    (e : EndsWithin p j need m) : EndsWithin p k need (m + 1) := by
  rintro s act ha rfl rfl hr hb ho
  exact returned_after_step (u := s.landOthers.resume { act with line := j })
    (by rw [step_at ha h]; simp [runStmt, State.jump, hf])
    (e _ _ rfl rfl rfl (by simpa using hr) (by simpa using hb) (by simpa using ho))

theorem endsWithin_ifGoto {c : Cond} {g : Nat} (h : p[k]? = some ⟨lab, .ifGoto c g⟩) (hf : Program.find p g = some j)
    (e : EndsWithin p j need m) (e' : EndsWithin p (k + 1) need m) : EndsWithin p k need (m + 1) := by
  rintro s act ha rfl rfl hr hb ho
  have hs := step_at ha h
  simp only [runStmt] at hs
  split at hs
  · exact returned_after_step (u := s.landOthers.resume { act with line := j }) (by rw [hs]; simp [State.jump, hf])
      (e _ _ rfl rfl rfl (by simpa using hr) (by simpa using hb) (by simpa using ho))
  · exact returned_after_step hs (e' _ act.onward rfl rfl rfl (by simpa using hr) (by simpa using hb) (by simpa using ho))

theorem endsWithin_configure (h : p[k]? = some ⟨lab, .configureAsInput⟩) (e : EndsWithin p (k + 1) need m) :
    EndsWithin p k need (m + 1) := by
  rintro s act ha rfl rfl hr hb ho
  exact returned_after_step (step_at ha h)
    (e _ act.onward rfl rfl rfl (by simpa using hr) (by simpa using hb) (by simpa using ho))

theorem endsWithin_block {mn : Mnemonic} {args : List (InPort × Expr)} (h : p[k]? = some ⟨lab, .block mn args⟩)
    (e : EndsWithin p (k + 1) need m) : EndsWithin p k need (m + 1) := by
  rintro s act ha rfl rfl hr hb ho
  have hs := step_at ha h
  simp only [runStmt, runBlock] at hs
  split at hs
  · rw [exec_eq_evaluated] at hs
    exact returned_after_step hs
      (e _ act.onward rfl rfl rfl (by simpa using hr) (by simpa using hb) (by simpa using ho))
  · exact returned_after_step hs (returned_now (r := .rejected) ⟨rfl, by simpa using hr, rfl⟩)

/-- Where the listed transactions complete, the next one does. -/
theorem nextOutcome_completes {s : State} (hb : need + 1 ≤ s.bus.length) (ho : ∀ o ∈ s.bus, o ≠ .never) :
    s.landOthers.nextOutcome = .ok ∨ s.landOthers.nextOutcome = .error := by
  cases h : s.bus with
  | nil => simp [h] at hb
  | cons o rest =>
    have := ho o (by simp [h])
    simp only [State.nextOutcome, landOthers_bus, h]
    cases o <;> simp_all

theorem endsWithin_wr {reg : Nat} {es : List Expr} (h : p[k]? = some ⟨lab, .wr reg es⟩) (hd : InDevice reg es.length)
    (e : EndsWithin p (k + 1) need m) : EndsWithin p k (need + 1) (m + 1) := by
  rintro s act ha rfl rfl hr hb ho
  have hs := step_at ha h
  have hot : ∀ o ∈ s.bus.tail, o ≠ .never := fun o h => ho o (List.mem_of_mem_tail h)
  simp only [runStmt, runWrite, List.length_map, if_pos hd] at hs
  rcases nextOutcome_completes hb ho with h1 | h1 <;> rw [h1] at hs <;> simp only at hs
  · exact returned_after_step hs (e _ act.onward rfl rfl rfl (by simpa using hr) (by simp; omega) (by simpa using hot))
  · split at hs
    · exact returned_after_step hs (returned_now (r := .transportError) ⟨rfl, by simpa using hr, rfl⟩)
    · exact returned_after_step hs
        (e _ act.onward rfl rfl rfl (by simpa using hr) (by simp; omega) (by simpa using hot))

theorem endsWithin_rd {reg n x : Nat} (h : p[k]? = some ⟨lab, .rd reg n x⟩) (hd : InDevice reg n)
    (e : EndsWithin p (k + 1) need m) : EndsWithin p k (need + 1) (m + 1) := by
  rintro s act ha rfl rfl hr hb ho
  have hs := step_at ha h
  have hot : ∀ o ∈ s.bus.tail, o ≠ .never := fun o h => ho o (List.mem_of_mem_tail h)
  simp only [runStmt, runRead, if_pos hd] at hs
  rcases nextOutcome_completes hb ho with h1 | h1 <;> rw [h1] at hs <;> simp only at hs
  · exact returned_after_step hs (e _ _ rfl rfl rfl (by simpa using hr) (by simp; omega) (by simpa using hot))
  · split at hs
    · exact returned_after_step hs (returned_now (r := .transportError) ⟨rfl, by simpa using hr, rfl⟩)
    · exact returned_after_step hs (e _ _ rfl rfl rfl (by simpa using hr) (by simp; omega) (by simpa using hot))

end ends

end Sys2Proof.Machine
end

