-- ==== Sys2Proof/Tests/Slice0.lean ====
section
/-! SUPPORT. Tests: the refusals of WellFormed, words written out from the spec's encodings, vectors of
spec/95_test_vectors.md, and for each obligation with hypotheses a witness that meets them. -/

namespace Sys2Proof.Tests

open Sys2Proof.Machine Sys2Proof.Claims

/-! ### WellFormed: what it accepts and what it refuses -/

/-- The TB_UNPACK example of R69. -/
def exampleUnpack : Written := ⟨.tbUnpack, [(.imgI, .image [0x45, 0x30, 0x12, 0x15, 0x03, 0x06, 0x24])]⟩

theorem test_wf_example : exampleUnpack.wf = true := by decide
theorem test_wf_refuses_missing_port : Written.wf ⟨.cdSelect, [(.secsI, .num 300)]⟩ = false := by decide
theorem test_wf_refuses_wrong_order : Written.wf ⟨.cdSelect, [(.a, .num 0), (.secsI, .num 300)]⟩ = false := by decide
theorem test_wf_refuses_wide_byte : Written.wf ⟨.bcdDec, [(.a, .num 256)]⟩ = false := by decide
theorem test_wf_refuses_negative_byte : Written.wf ⟨.bcdDec, [(.a, .num (-1))]⟩ = false := by decide
theorem test_wf_refuses_wide_delay :
    Written.wf ⟨.cdSelect, [(.secsI, .num 2147483648), (.a, .num 0)]⟩ = false := by decide
theorem test_wf_refuses_short_image : Written.wf ⟨.tbUnpack, [(.imgI, .image [1, 2, 3, 4, 5, 6])]⟩ = false := by decide
theorem test_wf_refuses_wide_image_byte :
    Written.wf ⟨.tbUnpack, [(.imgI, .image [1, 2, 3, 4, 5, 6, 256])]⟩ = false := by decide
theorem test_wf_refuses_number_for_image : Written.wf ⟨.tbUnpack, [(.imgI, .num 0)]⟩ = false := by decide
theorem test_wf_refuses_image_for_number : Written.wf ⟨.bcdDec, [(.a, .image [1])]⟩ = false := by decide

theorem test_wf_refuses_read_past_device : Program.wf [plain (.rd 0x0F 2 0), plain (.ret .success)] = false := by decide
theorem test_wf_refuses_empty_read : Program.wf [plain (.rd 0x01 0 0), plain (.ret .success)] = false := by decide
theorem test_wf_refuses_write_past_device : Program.wf [plain (.wr 0x10 [.lit 0]), plain (.ret .success)] = false := by
  decide
theorem test_wf_refuses_empty_write : Program.wf [plain (.wr 0x01 []), plain (.ret .success)] = false := by decide
theorem test_wf_refuses_missing_label : Program.wf [plain (.goto 7)] = false := by decide
theorem test_wf_refuses_missing_if_label :
    Program.wf [plain (.ifGoto .validPin 7), plain (.ret .success)] = false := by decide
theorem test_wf_refuses_wrong_arguments :
    Program.wf [plain (.block .bcdDec [(.imgI, .lit 0)]), plain (.ret .success)] = false := by decide
theorem test_wf_refuses_running_off_the_end : Program.wf [plain (.wr 0x01 [.lit 0])] = false := by decide
theorem test_wf_refuses_empty_program : Program.wf [] = false := by decide
theorem test_call_wf_refuses_bad_program : HostCall.wf (.custom []) = false := by decide
theorem test_call_fits_refuses_wide_year : HostCall.fits (.setTime ⟨0, 0, 0, 1, 0, 0, 65536⟩) = false := by decide
theorem test_call_fits_refuses_wide_delay : HostCall.fits (.setCountdownAlarm 2147483648) = false := by decide

/-- The host program of spec/95_test_vectors.md P4. -/
def rejectingProgram : Program :=
  [ plain (.block .tbPack [(.secI, .lit 45), (.minI, .lit 30), (.hourI, .lit 12), (.mdayI, .lit 15), (.wdayI, .lit 3),
      (.monI, .lit 5), (.yearI, .lit 2100)]),
    plain (.ifGoto (.ne (.port .oor) (.lit 0)) 0),
    plain (.wr 0x02 [portByte .imgO 0, portByte .imgO 1, portByte .imgO 2, portByte .imgO 3, portByte .imgO 4,
      portByte .imgO 5, portByte .imgO 6]),
    plain (.ret .success),
    marked 0 (.ret .outOfRange) ]

/-- The host program of spec/95_test_vectors.md P5. -/
def acknowledgingProgram : Program :=
  [ marked 0 (.rd 0x01 1 0),
    plain (.assign 1 (.band (.var 0) (.lit 0x0C))),
    plain (.ifGoto (.eq (.var 1) (.lit 0)) 1),
    plain (.block .ctrl2Ack [(.a, .var 0)]),
    plain (.wr 0x01 [.port .y]),
    plain (.goto 0),
    marked 1 (.ret .success) ]

theorem test_wf_programs : Program.wf rejectingProgram = true ∧ Program.wf acknowledgingProgram = true := by decide

/-! ### Decoding: `op` from the table of R63, ports from spec/95_test_vectors.md, don't-care ports not 0 -/

/-- Port values with every don't-care port set. -/
def noise : Inputs :=
  { op := 0b111, a := 0xEE, imgI := 0x11223344556677, secI := 1, minI := 2, hourI := 3, mdayI := 4, wdayI := 5,
    monI := 6, yearI := 7, secsI := 8 }

theorem test_decode_bcdDec : decode { noise with op := 0b000, a := 0x59 } = .ok (.bcdDec 0x59) := by decide
theorem test_decode_bcdEnc : decode { noise with op := 0b001, a := 59 } = .ok (.bcdEnc 59) := by decide
theorem test_decode_tbUnpack :
    decode { noise with op := 0b010, imgI := 0x24060315123045 } = .ok (.tbUnpack 0x24060315123045) := by decide
theorem test_decode_tbPack :
    decode { noise with op := 0b011, secI := 0x2D, minI := 0x1E, hourI := 0x0C, mdayI := 0x0F, wdayI := 0x03,
                        monI := 0x05, yearI := 0x07E8 } = .ok (.tbPack 45 30 12 15 3 5 2024) := by decide
theorem test_decode_cdSelect :
    decode { noise with op := 0b100, secsI := 0x0000012C, a := 0x1C } = .ok (.cdSelect 300 0x1C) := by decide
theorem test_decode_ctrl2Ack : decode { noise with op := 0b101, a := 0x1D } = .ok (.ctrl2Ack 0x1D) := by decide
theorem test_decode_reserved_6 : decode { noise with op := 0b110 } = .error (.reserved 0b110) := by decide
theorem test_decode_reserved_7 : decode noise = .error (.reserved 0b111) := by decide
theorem test_table_word_4 : decodeTableWord 8 4 = some (.cdSelect 0 0) := by decide
theorem test_table_word_8 : decodeTableWord 8 8 = none := by decide
theorem test_encode_ctrl2Ack : encode (.ctrl2Ack 0x1D) = { Inputs.zero with op := 0b101, a := 0x1D } := by decide

/-- R69's second example, as written and as text. -/
theorem test_text_bcdEnc : (Instr.bcdEnc 59).written.text = "BCD_ENC a=59" := by decide
/-- R69's fourth example. -/
theorem test_written_tbPack :
    (Instr.tbPack 45 30 12 15 3 5 2024).written =
      ⟨.tbPack, [(.secI, .num 45), (.minI, .num 30), (.hourI, .num 12), (.mdayI, .num 15), (.wdayI, .num 3),
        (.monI, .num 5), (.yearI, .num 2024)]⟩ := by decide
/-- The image of R69's third example is byte 0 in the low bits (R23). -/
theorem test_written_tbUnpack : exampleUnpack.toInstr = some (.tbUnpack 0x24060315123045) := by decide

/-! ### One step of each operation: spec/95_test_vectors.md Part 2 -/

/-- What an operation leaves on the outputs, from reset. -/
def shown (i : Instr) : Option Outputs :=
  match exec i State.reset with
  | .next t => some t.outputs
  | .fault _ => none
  | .refused _ => none

/-- V-BD, `a` = 0x1F. -/
theorem test_bcdDec_nibble_above_9 : (shown (.bcdDec 0x1F)).map (·.y) = some 25 := by decide
/-- V-BD, `a` = 0xFF. -/
theorem test_bcdDec_largest : (shown (.bcdDec 0xFF)).map (·.y) = some 165 := by decide
/-- V-BE, `a` = 59. -/
theorem test_bcdEnc_59 : (shown (.bcdEnc 59)).map (fun o => (o.y, o.oor)) = some (0x59, 0) := by decide
/-- V-BE, `a` = 100. -/
theorem test_bcdEnc_100 : (shown (.bcdEnc 100)).map (·.oor) = some 0b0000001 := by decide
/-- V-TU, row 6: the largest results. -/
theorem test_tbUnpack_largest :
    (shown (.tbUnpack (packImage 0x7F 0x7F 0x3F 0x3F 0x07 0x1F 0xFF))).map (fun o =>
      ([o.secO, o.minO, o.hourO, o.mdayO, o.wdayO, o.monO], o.yearO)) = some ([85, 85, 45, 45, 7, 24], 2165) := by decide
/-- V-TU, row 7: month byte 0x20 masks to 0. -/
theorem test_tbUnpack_month_0 :
    (shown (.tbUnpack (packImage 0x45 0x30 0x12 0x15 0x03 0x20 0x24))).map (fun o => (o.secO, o.monO, o.yearO)) =
      some (45, 0xFF, 2024) := by decide
/-- V-TP, row 1. -/
theorem test_tbPack_example :
    (shown (.tbPack 45 30 12 15 3 5 2024)).map (fun o => (o.imgO, o.oor)) = some (0x24060315123045, 0) := by decide
/-- V-TP, row 12: lanes 0 and 1 out of range, the others produced. -/
theorem test_tbPack_two_lanes_out :
    ∃ t, exec (.tbPack 100 255 0 1 0 19 2024) State.reset = .next t ∧ imgByte t.outputs.imgO 3 = 0x01 ∧
      imgByte t.outputs.imgO 5 = 0x20 ∧ imgByte t.outputs.imgO 6 = 0x24 ∧ t.outputs.oor = 0b0000011 :=
  ⟨_, rfl, (imgByte_packImage_3 ..).trans (by decide), (imgByte_packImage_5 ..).trans (by decide),
    (imgByte_packImage_6 ..).trans (by decide), by decide⟩
/-- V-CD, 330, with V-C2's `a` = 0x8F on the arm path. -/
theorem test_cdSelect_330 :
    (shown (.cdSelect 330 0x8F)).map (fun o => ((o.dis, o.resMin, o.weTcnt), [o.tctlO, o.tcntO, o.ctrl2O], o.appliedO)) =
      some ((false, true, true), [0x83, 6, 0x03], 360) := by decide
/-- V-CD, -2^31, with V-C2's `a` = 0x8F on the disable path. -/
theorem test_cdSelect_disable :
    (shown (.cdSelect 0x80000000 0x8F)).map (fun o => ((o.dis, o.weTcnt), [o.tctlO, o.ctrl2O], o.appliedO)) =
      some ((true, false), [0x03, 0x82], -1) := by decide
/-- V-C2, `a` = 0xFF. -/
theorem test_ctrl2Ack_ff : (shown (.ctrl2Ack 0xFF)).map (·.y) = some 0xF3 := by decide
/-- V-C2, `a` = 0x0D. -/
theorem test_ctrl2Ack_0d : (shown (.ctrl2Ack 0x0D)).map (·.y) = some 0x01 := by decide

/-- The low byte of an `applied_o` of -1 is 0xFF (P2: applied=-1 is 0xFFFFFFFF), and so is a `mon_o` of -1 (V-TU, row 5). -/
theorem test_slice_of_negative_port :
    (shown (.cdSelect 0xFFFFFFFF 0)).map (fun o => evalExpr o [] (.slice (.port .appliedO) 7 0)) = some 0xFF ∧
      (shown (.tbUnpack 0)).map (fun o => evalExpr o [] (portByte .monO 0)) = some 0xFF := by decide
/-- V-C2's base and arm columns for 0x1F, computed by a caller: `(a & ~0x0C | 0x01) & 0x7F`. -/
theorem test_operators_of_a_caller :
    evalExpr State.reset.outputs [(0, 0x1F)]
      (.band (.bor (.band (.var 0) (.bnot 8 (.lit 0x0C))) (.lit 0x01)) (.lit 0x7F)) = 0x13 := by decide
/-- X10, computed by a caller: `(330 + 30) div 60` is 6. -/
theorem test_division_of_a_caller :
    evalExpr State.reset.outputs [] (.min (.div (.add (.lit 330) (.lit 30)) (.lit 60)) (.lit 255)) = 6 := by decide
/-- Register 0x0D is one of the 16 bytes a device model holds (92 D17). -/
theorem test_register_0d_holds :
    ((State.reset.device.writeByte 0x0D 0x5A).readByte 7 0x0D) = 0x5A :=
  readByte_writeByte_plain 0x0D 0x5A 7 (by decide) (by decide) (by decide)
/-- A label that marks two lines is the first of them (log entry 28). -/
theorem test_label_on_two_lines :
    Program.find [plain (.goto 0), marked 0 (.ret .success), marked 0 (.ret .outOfRange)] 0 = some 1 := by decide

/-! ### Small states for the witnesses -/

/-- The power-up state with a call queued and the outcomes of its transactions listed. -/
def queued (c : HostCall) (bus : List BusOutcome) : State := { State.reset.call c with bus := bus }

/-- The power-up state with a call being served, at a line. -/
def serving (c : HostCall) (line : Nat) (bus : List BusOutcome) : State :=
  { State.reset with
    host := { State.reset.host with activity := some { Activity.start .swallow c with line := line } }
    bus := bus }

/-- The activity of that state. -/
def act (c : HostCall) (line : Nat) : Activity := { Activity.start .swallow c with line := line }

/-- The same state under `Quiet`, register 0x01 known. -/
def quietly (s : State) : State := { s with device := { regs := [(0x01, 0x1D)], quiet := true } }

/-- A nominal time (P3). -/
def june : CalendarTime := ⟨45, 30, 12, 15, 3, 5, 2024⟩

/-- A caller's program with an operand too wide for its port. -/
def tooWide : HostCall := .custom [plain (.block .bcdEnc [(.a, .lit 256)]), plain (.ret .success)]

/-! ### A witness for each obligation with hypotheses, at the boundaries of its clauses -/

theorem witness_OpCodeSelectsOperation : ∀ k : OpCode, { noise with op := k }.op = k := fun _ => rfl

theorem witness_StepRunsPresentedOperation_ports :
    State.reset.Idle ∧ decode State.reset.inputs = .ok (.bcdDec 0) := ⟨⟨rfl, rfl⟩, by decide⟩
theorem witness_StepRunsPresentedOperation_word : decodeTableWord 8 5 = some (.ctrl2Ack 0) := by decide
theorem witness_StepRunsPresentedOperation_host :
    (serving (.setTime june) 0 []).host.activity = some (act (.setTime june) 0) ∧
      (act (.setTime june) 0).program[(act (.setTime june) 0).line]? = some (plain (.block .tbPack
        [(.secI, .lit 45), (.minI, .lit 30), (.hourI, .lit 12), (.mdayI, .lit 15), (.wdayI, .lit 3), (.monI, .lit 5),
          (.yearI, .lit 2024)])) ∧
      Mnemonic.tbPack.assemble [(.secI, 45), (.minI, 30), (.hourI, 12), (.mdayI, 15), (.wdayI, 3), (.monI, 5),
        (.yearI, 2024)] = some (.tbPack 45 30 12 15 3 5 2024) := ⟨rfl, rfl, by decide⟩

theorem witness_ReservedCodeFaults_6 :
    { State.reset with inputs := { noise with op := 0b110 } }.Idle ∧ { noise with op := 0b110 }.op = 0b110 :=
  ⟨⟨rfl, rfl⟩, rfl⟩
theorem witness_ReservedCodeFaults_7 : { State.reset with inputs := noise }.Idle ∧ noise.op = 0b111 :=
  ⟨⟨rfl, rfl⟩, rfl⟩

theorem witness_WrittenOperationsRoundTrip : exampleUnpack.wf = true := by decide

theorem witness_DecodedOperationPresentsItself :
    decode { noise with op := 0b101 } = .ok (.ctrl2Ack 0xEE) ∧ decode { noise with op := 0b110 } = .error (.reserved 6) := by
  decide

theorem witness_BcdEncResult : (99 : Byte).toNat ≤ 99 ∧ 99 < (100 : Byte).toNat := by decide
theorem witness_BcdDecAfterEnc : (0 : Byte).toNat ≤ 99 ∧ (99 : Byte).toNat ≤ 99 := by decide
theorem witness_BcdEncAfterDec_valid : (0x99 : Byte).toNat / 16 ≤ 9 ∧ (0x99 : Byte).toNat % 16 ≤ 9 := by decide
/-- A byte with a nibble above 9 that decodes to a value in range. -/
theorem witness_BcdEncAfterDec_invalid :
    9 < (0x0A : Byte).toNat % 16 ∧ (shown (.bcdDec 0x0A)).map (·.y) = some 10 ∧
      (shown (.bcdEnc 10)).map (·.oor) = some 0 := by decide
theorem witness_BcdDecBounds :
    ((0x07 : Byte), 7) ∈ [((0xFF : Byte), 165), (0x7F, 85), (0x3F, 45), (0x1F, 25), (0x07, 7)] := by decide

/-- The VL bit and bit 7 of the month byte set and clear (V-TU, rows 3 and 4). -/
theorem witness_MaskedBitsNeverReachOutputs :
    packImage 0x59 0x59 0x23 0x31 0x06 0x12 0x99 &&& 0xFF1F073F3F7F7F =
      packImage 0xD9 0x59 0x23 0x31 0x06 0x92 0x99 &&& 0xFF1F073F3F7F7F := by decide

theorem witness_TbPackResult :
    ((0 : Nat), (99 : Int)) ∈ lanes 99 0 0 0 0 0xFE 1999 ∧ ((5 : Nat), (-1 : Int)) ∈ lanes 99 0 0 0 0 0xFE 1999 ∧
      ((6 : Nat), (-1 : Int)) ∈ lanes 99 0 0 0 0 0xFE 1999 ∧ ((6 : Nat), (100 : Int)) ∈ lanes 100 0 0 0 0 99 2100 ∧
      ((5 : Nat), (0 : Int)) ∈ lanes 0 0 0 0 0 0xFF 2000 := by decide
theorem witness_TbPackAppliesNoMask :
    (79 : Byte).toNat ≤ 79 ∧ (59 : Byte).toNat ≤ 59 ∧ (23 : Byte).toNat ≤ 23 ∧ (31 : Byte).toNat ≤ 31 ∧
      (6 : Byte).toNat ≤ 6 ∧ -1 ≤ (0xFF : Byte).toInt ∧ (18 : Byte).toInt ≤ 18 ∧ 80 ≤ (80 : Byte).toNat ∧
      (99 : Byte).toNat ≤ 99 ∧ ((6 : Nat), (99 : Int)) ∈ lanes 79 59 23 31 6 18 2099 := by decide
theorem witness_TimeBlockRoundTrip :
    (59 : Byte).toNat ≤ 59 ∧ (23 : Byte).toNat ≤ 23 ∧ 1 ≤ (1 : Byte).toNat ∧ 1 ≤ (31 : Byte).toNat ∧
      (31 : Byte).toNat ≤ 31 ∧ (6 : Byte).toNat ≤ 6 ∧ (11 : Byte).toNat ≤ 11 ∧ 2000 ≤ (2000 : Year).toNat ∧
      2000 ≤ (2099 : Year).toNat ∧ (2099 : Year).toNat ≤ 2099 := by decide
theorem witness_WiderRoundTripAndItsEdge :
    (79 : Byte).toNat ≤ 79 ∧ (39 : Byte).toNat ≤ 39 ∧ (7 : Byte).toNat ≤ 7 ∧ -1 ≤ (0xFF : Byte).toInt ∧
      (0xFF : Byte).toInt ≤ 18 ∧ -1 ≤ (18 : Byte).toInt ∧ (18 : Byte).toInt ≤ 18 ∧ 2000 ≤ (2099 : Year).toNat ∧
      (2099 : Year).toNat ≤ 2099 ∧ (80 : Byte).toNat = 80 ∧ (19 : Byte).toInt = 19 := by decide
theorem witness_UnpackedYearRange :
    byteAt (packImage 0 0 0 0 0 0 0x99) 6 / 16 ≤ 9 ∧ byteAt (packImage 0 0 0 0 0 0 0x99) 6 % 16 ≤ 9 := by decide

theorem witness_CdSelectResult :
    (-1 : Delay).toInt < 0 ∧ 0 ≤ (0 : Delay).toInt ∧ (0 : Delay).toInt < 270 ∧ (269 : Delay).toInt < 270 ∧
      270 ≤ (270 : Delay).toInt := by decide
theorem witness_CdSelectLaws :
    0 ≤ (269 : Delay).toInt ∧ (shown (.cdSelect 269 0)).map (·.resMin) = some false ∧ 0 ≤ (270 : Delay).toInt ∧
      (shown (.cdSelect 270 0)).map (·.resMin) = some true ∧ (0x80000000 : Delay).toInt < 0 := by decide
theorem witness_AppliedDelayLaws :
    0 ≤ (255 : Delay).toInt ∧ 270 ≤ (270 : Delay).toInt ∧ (270 : Delay).toInt ≤ 15329 ∧
      270 ≤ (15329 : Delay).toInt ∧ (15329 : Delay).toInt ≤ 15329 ∧ (255 : Delay).toInt ≤ (0x7FFFFFFF : Delay).toInt := by
  decide
theorem witness_Ctrl2AckResult : (1 : Nat) ≠ 2 ∧ (1 : Nat) ≠ 3 ∧ (4 : Nat) ≠ 2 ∧ (4 : Nat) ≠ 3 := by decide
theorem witness_AckIsCountdownBase : (-1 : Delay).toInt < 0 ∧ 0 ≤ (0 : Delay).toInt := by decide

theorem witness_BytesAsDeviceFields :
    0 ≤ (0 : Delay).toInt ∧ 0 ≤ (270 : Delay).toInt ∧ (-1 : Delay).toInt < 0 ∧ (79 : Byte).toNat ≤ 79 := by decide

theorem witness_BlockOperationsFrame : InPort.imgI ∉ (Instr.ctrl2Ack 0).mnemonic.reads := by decide
/-- Two settings of the ports that agree on what CTRL2_ACK reads and differ elsewhere. -/
theorem witness_PortsReadAndWritten_reads :
    { noise with op := 0b101, a := 0 }.op = { Inputs.zero with op := 0b101 }.op ∧
      (∀ m, decodeOp 0b101 = .ok m → ∀ port ∈ m.reads,
        inputNumber { noise with op := 0b101, a := 0 } port = inputNumber { Inputs.zero with op := 0b101 } port) ∧
      { noise with op := 0b101, a := 0 } ≠ { Inputs.zero with op := 0b101 } := by
  refine ⟨rfl, fun m hm port hp => ?_, by decide⟩
  cases hm
  revert port
  decide
theorem witness_PortsReadAndWritten_writes :
    OutPort.imgO ≠ .oor ∧ OutPort.imgO ≠ .ill ∧ OutPort.imgO ∉ dataWrites (Instr.ctrl2Ack 0).mnemonic := by decide
theorem witness_PortsReadAndWritten_reserved : decode noise = .error (.reserved 7) := by decide

theorem reset_inv : State.reset.Inv :=
  ⟨List.Pairwise.nil, by decide, by decide, by simp [State.reset], List.Pairwise.nil⟩

theorem witness_StepKeepsInvariant : State.reset.Inv ∧ ∃ t, step State.reset = .next t := ⟨reset_inv, _, rfl⟩
theorem witness_ResetMeetsInvariant : State.reset.Inv ∧ (HostCall.custom acknowledgingProgram).wf = true :=
  ⟨reset_inv, by decide⟩
theorem witness_WellFormedSystemsGoOn : State.reset.Inv := reset_inv
theorem witness_OutputsStaySettled : State.reset.Settled ∧ ∃ t, step State.reset = .next t :=
  ⟨⟨0, by decide, rfl⟩, _, rfl⟩
/-- A write that succeeds, a write that fails and is swallowed, and a read of either outcome. -/
theorem witness_OneTransactionPerStep :
    (∃ t, step (serving .disableAlarm 0 [.ok]) = .next t ∧ lookup t.device.regs 0x0C = some 0x80) ∧
      (∃ t, step (serving .disableAlarm 2 [.error]) = .next t ∧ lookup t.device.regs 0x01 = none ∧
        t.host.activity ≠ none) ∧
      (∃ t, step (serving .clearAlarmFlag 0 [.ok]) = .next t ∧ t.busLog.length = 1) ∧
      ∃ t, step (serving .clearAlarmFlag 0 [.error]) = .next t ∧ t.draws = 2 :=
  ⟨⟨_, rfl, by decide⟩, ⟨_, rfl, by decide, by decide⟩, ⟨_, rfl, by decide⟩, ⟨_, rfl, by decide⟩⟩
theorem witness_StepKeepsConfiguration :
    (∃ t, step (serving (.initializeRtc 1 2 none) 6 []) = .next t ∧ t.host.initialised = true ∧
        t.host.result = some .success) ∧
      (serving (.initializeRtc 1 2 none) 6 []).host.activity = some (act (.initializeRtc 1 2 none) 6) ∧
      (act (.initializeRtc 1 2 none) 6).call = .initializeRtc 1 2 none ∧
      (act (.initializeRtc 1 2 none) 6).program[(act (.initializeRtc 1 2 none) 6).line]? = some ⟨none, .ret .success⟩ :=
  ⟨⟨_, rfl, rfl, rfl⟩, rfl, rfl, rfl⟩

theorem witness_TransactionsRunInRisingOrder :
    (6 : Nat) < 7 ∧ [(0x80 : Byte), 0x80, 0x80, 0x80][3]? = some 0x80 ∧ Holds (9 + 3) ∧
      Holds 0x0D ∧ Holds 0x0F ∧
      ((8 : Nat) < 9 ∨ 9 + [(0x80 : Byte), 0x80, 0x80, 0x80].length ≤ 8) ∧
      ((13 : Nat) < 9 ∨ 9 + [(0x80 : Byte), 0x80, 0x80, 0x80].length ≤ 13) := by decide
theorem witness_QuietReadsGiveTheRegisters :
    (quietly State.reset).device.quiet = true ∧
      ∀ i b, [(0x1D : Byte)][i]? = some b → lookup (quietly State.reset).device.regs (1 + i) = some b := by
  refine ⟨rfl, fun i b h => ?_⟩
  cases i with
  | zero => simpa [quietly, lookup] using h
  | succ i => simp at h
theorem witness_QuietReadsRepeat :
    (quietly State.reset).device.quiet = true ∧ ∀ i, i < 16 → Holds (0 + i) := ⟨rfl, fun i h => by omega⟩
theorem witness_DeviceReadsAreLastWrittenOrFree :
    (Holds 0 ∧ 0 < 2) ∧ (Holds 9 ∧ 8 < 9) ∧ (Holds 0x0D ∧ 8 < 0x0D) ∧ (Holds 0x0F ∧ 8 < 0x0F) ∧
      State.reset.device.quiet = false ∧ 2 ≤ 8 ∧ lookup State.reset.device.regs 1 = none ∧
      lookup State.reset.device.regs 2 = none ∧ lookup State.reset.device.regs 8 = none := by decide

theorem witness_TransportErrorPolicy_start :
    HostCall.getTime.fits = true ∧ (queued .getTime []).Ready .getTime := ⟨rfl, rfl, rfl⟩
theorem witness_TransportErrorPolicy_read :
    (serving .getTime 0 [.error]).host.activity = some (act .getTime 0) ∧
      (serving .getTime 0 [.error]).nextOutcome = .error ∧
      (act .getTime 0).program[(act .getTime 0).line]? = some ⟨none, .rd 0x02 7 0⟩ ∧ InDevice 0x02 7 ∧
      (act .getTime 0).propagates = true ∧ (act .clearAlarmFlag 0).propagates = false :=
  ⟨rfl, rfl, rfl, by decide, rfl, rfl⟩
theorem witness_TransportErrorPolicy_write :
    (serving .disableAlarm 1 [.error]).host.activity = some (act .disableAlarm 1) ∧
      (serving .disableAlarm 1 [.error]).nextOutcome = .error ∧
      (act .disableAlarm 1).program[(act .disableAlarm 1).line]? = some ⟨none, .wr 0x0E [.lit 0x00]⟩ ∧
      InDevice 0x0E 1 ∧ (act .disableAlarm 1).propagates = false ∧ (act (.setTime june) 1).propagates = true :=
  ⟨rfl, rfl, rfl, by decide, rfl, rfl⟩
theorem witness_StuckTransactionHasNoNextStep :
    (serving .getTime 0 [.never]).host.activity = some (act .getTime 0) ∧
      (serving .getTime 0 [.never]).nextOutcome = .never ∧
      (act .getTime 0).program[(act .getTime 0).line]? = some ⟨none, .rd 0x02 7 0⟩ ∧ InDevice 0x02 7 ∧
      (serving .disableAlarm 1 [.never]).nextOutcome = .never ∧
      (act .disableAlarm 1).program[(act .disableAlarm 1).line]? = some ⟨none, .wr 0x0E [.lit 0x00]⟩ ∧ InDevice 0x0E 1 :=
  ⟨rfl, rfl, rfl, by decide, rfl, rfl, by decide⟩

theorem witness_HostUsesOnlyListedAccesses : plain (.rd 0x01 1 0) ∈ expand .clearAlarmFlag := by decide

theorem witness_HostStatementsRun_transactions :
    (serving .clearAlarmFlag 0 [.ok]).host.activity = some (act .clearAlarmFlag 0) ∧
      (serving .clearAlarmFlag 0 [.ok]).nextOutcome = .ok ∧
      (act .clearAlarmFlag 0).program[(act .clearAlarmFlag 0).line]? = some ⟨none, .rd 0x01 1 0⟩ ∧ InDevice 0x01 1 ∧
      (act .clearAlarmFlag 2).program[(act .clearAlarmFlag 2).line]? = some ⟨none, .wr 0x01 [.port .y]⟩ ∧
      (act .clearAlarmFlag 3).program[(act .clearAlarmFlag 3).line]? = some ⟨none, .ret .success⟩ :=
  ⟨rfl, rfl, rfl, by decide, rfl, rfl⟩
theorem witness_HostStatementsRun_program :
    acknowledgingProgram[1]? = some ⟨none, .assign 1 (.band (.var 0) (.lit 0x0C))⟩ ∧
      acknowledgingProgram[2]? = some ⟨none, .ifGoto (.eq (.var 1) (.lit 0)) 1⟩ ∧
      Program.find acknowledgingProgram 1 = some 6 ∧
      holds State.reset.outputs [(1, 0)] none (.eq (.var 1) (.lit 0)) = true ∧
      holds State.reset.outputs [(1, 12)] none (.eq (.var 1) (.lit 0)) = false ∧
      acknowledgingProgram[5]? = some ⟨none, .goto 0⟩ ∧ Program.find acknowledgingProgram 0 = some 0 ∧
      initializeProgram[2]? = some ⟨some 0, .configureAsInput⟩ := by decide

/-- Slices at both ends of the widest and the narrowest port, and operand values at the boundaries of the clauses. -/
theorem witness_HostExpressionsCompute :
    (48 ≤ 55 ∧ 55 < portWidth .imgO) ∧ (0 ≤ 0 ∧ 0 < portWidth .dis) ∧ (24 ≤ 31 ∧ 31 < portWidth .appliedO) ∧
      evalExpr State.reset.outputs [] (.lit 0x0C) = (12 : Nat) ∧ evalExpr State.reset.outputs [] (.lit 255) = (255 : Nat) ∧
      255 < 2 ^ 8 ∧ (255 : Nat) ≠ 0 := by decide

theorem witness_TooWideValuesAreRejected_call :
    (queued (.setCountdownAlarm 2147483648) []).Ready (.setCountdownAlarm 2147483648) ∧
      (HostCall.setCountdownAlarm 2147483648).fits = false := ⟨⟨rfl, rfl⟩, by decide⟩
theorem witness_TooWideValuesAreRejected_operand :
    (serving tooWide 0 []).host.activity = some (act tooWide 0) ∧
      (act tooWide 0).program[(act tooWide 0).line]? = some ⟨none, .block .bcdEnc [(.a, .lit 256)]⟩ ∧
      ¬InPort.a.Fits (evalExpr State.reset.outputs [] (.lit 256)) := ⟨rfl, rfl, by decide⟩

/-- A read and a write that end above 0x0F, a missing label, and a line past the end. -/
theorem witness_IllFormedLinesAreRefused :
    16 < 0x0F + 2 ∧ 16 < 0x10 + [Expr.lit 0].length ∧ Program.find [plain (.goto 7)] 7 = none ∧
      holds State.reset.outputs [] none (.eq (.lit 0) (.lit 0)) = true ∧
      Program.find [plain (.ifGoto (.eq (.lit 0) (.lit 0)) 7)] 7 = none ∧
      (serving (.custom []) 0 []).host.activity = some (act (.custom []) 0) ∧
      (act (.custom []) 0).program.length ≤ (act (.custom []) 0).line :=
  ⟨by decide, by decide, by decide, by decide, by decide, rfl, by decide⟩

/-- A pin number below 0 can be supplied (log entry 29). -/
theorem witness_InitializeSequence_negative_pin :
    (queued (.initializeRtc 1 2 (some (-1))) [.ok, .ok, .ok]).Ready (.initializeRtc 1 2 (some (-1))) := ⟨rfl, rfl⟩
theorem witness_InitializeSequence :
    (queued (.initializeRtc 1 2 (some 3)) [.ok, .error, .ok]).Ready (.initializeRtc 1 2 (some 3)) ∧
      (queued (.initializeRtc 1 2 (some 3)) [.ok, .error, .ok]).others = [] ∧
      GoesOn (queued (.initializeRtc 1 2 (some 3)) [.ok, .error, .ok]) [true, false, true] ∧
      (queued (.initializeRtc 1 2 (some 3)) [.ok, .error, .ok]).bus = outcome true :: outcome false :: outcome true :: [] :=
  ⟨⟨rfl, rfl⟩, rfl, .inl rfl, rfl⟩
theorem witness_GetTimeSequence :
    (queued .getTime [.ok]).Ready .getTime ∧ (queued .getTime [.ok]).others = [] ∧
      (queued .getTime [.ok]).bus = outcome true :: [] ∧ (queued .getTime [.error]).bus = outcome false :: [] :=
  ⟨⟨rfl, rfl⟩, rfl, rfl, rfl⟩
theorem witness_SetTimeSequence :
    june.Fits ∧ (CalendarTime.mk 255 0 0 0 0 (-128) 65535).Fits ∧ (queued (.setTime june) [.ok]).Ready (.setTime june) ∧
      (queued (.setTime june) [.ok]).others = [] ∧ (queued (.setTime june) [.ok]).bus = outcome true :: [] ∧
      (queued (.setTime june) [.error]).bus = outcome false :: [] :=
  ⟨by decide, by decide, ⟨rfl, rfl⟩, rfl, rfl, rfl⟩
theorem witness_SetTimeThenGetTime :
    june.Nominal ∧ (quietly (State.call (queued (.setTime june) [.ok, .ok]) .getTime)).host.activity = none ∧
      (quietly (State.call (queued (.setTime june) [.ok, .ok]) .getTime)).host.requests = [.setTime june, .getTime] ∧
      (quietly (State.call (queued (.setTime june) [.ok, .ok]) .getTime)).others = [] ∧
      (quietly (State.call (queued (.setTime june) [.ok, .ok]) .getTime)).device.quiet = true ∧
      (quietly (State.call (queued (.setTime june) [.ok, .ok]) .getTime)).bus = .ok :: .ok :: [] :=
  ⟨by decide, rfl, rfl, rfl, rfl, rfl⟩
theorem witness_SetCountdownAlarmSequence :
    InPort.secsI.Fits 0 ∧ InPort.secsI.Fits (-1) ∧ InPort.secsI.Fits (-2147483648) ∧
      (queued (.setCountdownAlarm 0) [.error, .ok, .ok, .ok]).Ready (.setCountdownAlarm 0) ∧
      (queued (.setCountdownAlarm (-1)) [.error, .ok, .ok, .ok]).Ready (.setCountdownAlarm (-1)) ∧
      (queued (.setCountdownAlarm 0) [.error, .ok, .ok, .ok]).others = [] ∧
      GoesOn (queued (.setCountdownAlarm 0) [.error, .ok, .ok, .ok]) [false, true, true, true] ∧
      (queued (.setCountdownAlarm 0) [.error, .ok, .ok, .ok]).bus =
        outcome false :: outcome true :: outcome true :: outcome true :: [] :=
  ⟨by decide, by decide, by decide, ⟨rfl, rfl⟩, ⟨rfl, rfl⟩, rfl, .inl rfl, rfl⟩
theorem witness_SetCountdownAlarmExamples :
    (queued (.setCountdownAlarm (-1)) [.ok, .ok, .ok, .ok]).Ready (.setCountdownAlarm (-1)) ∧
      (queued (.setCountdownAlarm 20000) [.ok, .ok, .ok, .ok]).Ready (.setCountdownAlarm 20000) ∧
      (queued (.setCountdownAlarm 20000) [.ok, .ok, .ok, .ok]).others = [] ∧
      (queued (.setCountdownAlarm 20000) [.ok, .ok, .ok, .ok]).bus = .ok :: .ok :: .ok :: .ok :: [] ∧
      ((20000 : Int), (15300 : Int), (0x83 : Byte), (255 : Byte)) ∈ [((100 : Int), (100 : Int), (0x82 : Byte), (100 : Byte)),
        (260, 255, 0x82, 255), (300, 300, 0x83, 5), (20000, 15300, 0x83, 255)] :=
  ⟨⟨rfl, rfl⟩, ⟨rfl, rfl⟩, rfl, rfl, by decide⟩
theorem witness_ClearAlarmFlagSequence :
    (queued .clearAlarmFlag [.error, .ok]).Ready .clearAlarmFlag ∧ (queued .clearAlarmFlag [.error, .ok]).others = [] ∧
      GoesOn (queued .clearAlarmFlag [.error, .ok]) [false, true] ∧
      (queued .clearAlarmFlag [.error, .ok]).bus = outcome false :: outcome true :: [] :=
  ⟨⟨rfl, rfl⟩, rfl, .inl rfl, rfl⟩
/-- A quiet system with a call queued, in which another caller sets bit 7 of register 0x01 `k` steps after the read. -/
def overtaken (c : HostCall) (k : Nat) (bus : List BusOutcome) : State :=
  { quietly (queued c bus) with others := [] :: [] :: (List.replicate k [] ++ [[(0x01, 0x9D)]]) }

/-- Another caller writes register 0x01 right after the read and right before the write. -/
theorem witness_StaleReadIsWrittenBack_ack :
    (overtaken .clearAlarmFlag 1 [.ok, .ok]).Ready .clearAlarmFlag ∧
      (overtaken .clearAlarmFlag 1 [.ok, .ok]).device.quiet = true ∧
      (overtaken .clearAlarmFlag 1 [.ok, .ok]).device.known .control2 = some 0x1D ∧
      (overtaken .clearAlarmFlag 1 [.ok, .ok]).others = [] :: [] :: (List.replicate 1 [] ++ [[(0x01, 0x9D)]]) ∧
      (overtaken .clearAlarmFlag 1 [.ok, .ok]).bus = .ok :: .ok :: [] := ⟨⟨rfl, rfl⟩, rfl, by decide, rfl, rfl⟩
theorem witness_StaleReadIsWrittenBack_arm :
    (overtaken (.setCountdownAlarm 0) 4 [.ok, .ok, .ok, .ok]).Ready (.setCountdownAlarm 0) ∧ InPort.secsI.Fits 0 ∧
      (overtaken (.setCountdownAlarm 0) 4 [.ok, .ok, .ok, .ok]).others =
        [] :: [] :: (List.replicate 4 [] ++ [[(0x01, 0x9D)]]) ∧
      (overtaken (.setCountdownAlarm 0) 4 [.ok, .ok, .ok, .ok]).bus = .ok :: .ok :: .ok :: .ok :: [] :=
  ⟨⟨rfl, rfl⟩, by decide, rfl, rfl⟩
theorem witness_StaleReadIsWrittenBack_disable :
    (overtaken (.setCountdownAlarm (-1)) 0 [.ok, .ok, .ok, .ok]).Ready (.setCountdownAlarm (-1)) ∧
      InPort.secsI.Fits (-1) ∧
      (overtaken (.setCountdownAlarm (-1)) 0 [.ok, .ok, .ok, .ok]).others =
        [] :: [] :: (List.replicate 0 [] ++ [[(0x01, 0x9D)]]) ∧
      (overtaken (.setCountdownAlarm (-1)) 0 [.ok, .ok, .ok, .ok]).bus = .ok :: .ok :: .ok :: .ok :: [] :=
  ⟨⟨rfl, rfl⟩, by decide, rfl, rfl⟩
theorem witness_DisableAlarmSequence :
    (queued .disableAlarm [.ok, .ok, .error]).Ready .disableAlarm ∧ (queued .disableAlarm [.ok, .ok, .error]).others = [] ∧
      GoesOn (queued .disableAlarm [.ok, .ok, .error]) [true, true, false] ∧
      (queued .disableAlarm [.ok, .ok, .error]).bus = outcome true :: outcome true :: outcome false :: [] :=
  ⟨⟨rfl, rfl⟩, rfl, .inl rfl, rfl⟩
theorem witness_GoesOn_without_errors (s : State) : GoesOn s [true, true] := .inr (by decide)
theorem witness_HostCallsReturn :
    (∀ p, HostCall.disableAlarm ≠ .custom p) ∧ (queued .disableAlarm [.ok, .error, .ok, .ok]).Ready .disableAlarm ∧
      4 ≤ (queued .disableAlarm [.ok, .error, .ok, .ok]).bus.length ∧
      ∀ o ∈ (queued .disableAlarm [.ok, .error, .ok, .ok]).bus, o ≠ .never :=
  ⟨by simp, ⟨rfl, rfl⟩, by decide, by decide⟩

end Sys2Proof.Tests
end

section
/-! The scope family of statements: what each host statement does (spec/30_encoding.md R70), with other callers' writes
landing before the line (log entry 15). -/

namespace Sys2Proof.Machine

variable {s : State} {act : Activity} {l : Option Nat}

/-! ### What one host statement answers, case by case -/

/-- Other callers' writes take no outcome: the next transaction ends as it would have. -/
@[simp] theorem landOthers_nextOutcome : s.landOthers.nextOutcome = s.nextOutcome := by
  simp [State.nextOutcome]

theorem runRead_ok {reg n x : Nat} (hd : InDevice reg n) (hb : s.nextOutcome = .ok) :
    runRead act reg n x s = .next ((s.afterReadTransaction reg n true).resume
      (act.assign x (bytesNumber (s.device.readBytes s.draws reg n)))) := by
  simp [runRead, hd, hb, State.readResult]

theorem runWrite_ok {reg : Nat} {bytes : List Byte} (hd : InDevice reg bytes.length) (hb : s.nextOutcome = .ok) :
    runWrite act reg bytes s = .next ((s.afterWriteTransaction reg bytes true).resume act.onward) := by
  simp [runWrite, hd, hb]

theorem jump_of_find {g k : Nat} (hk : Program.find act.program g = some k) :
    s.jump act g = .next (s.resume { act with line := k }) := by
  simp [State.jump, hk]

theorem runStmt_ifGoto_of_holds {c : Cond} {g : Nat}
    (hc : holds s.outputs act.vars s.host.config.intPin c = true) :
    runStmt act (.ifGoto c g) s = s.jump act g := by
  simp [runStmt, hc]

theorem runStmt_ifGoto_of_not_holds {c : Cond} {g : Nat}
    (hc : holds s.outputs act.vars s.host.config.intPin c = false) :
    runStmt act (.ifGoto c g) s = .next (s.resume act.onward) := by
  simp [runStmt, hc]

/-- Once the interrupt pin is configured (R104), the pins are those there were and that one, if there is one. -/
theorem mem_configuredPins {h : Controller} {p : Int} :
    p ∈ h.configuredPins ↔ p ∈ h.inputPins ∨ h.config.intPin = some p := by
  unfold Controller.configuredPins
  cases h.config.intPin with
  | none => simp
  | some pin => simp [mem_addPin, or_comm, eq_comm]

/-! ### A step at a line, with the writes of other callers -/

/-- A line that only moves the activity: the log and the outputs stay, and the device is as other callers left it. -/
theorem step_resumes {line : Line} {next : Activity} (h : s.host.activity = some act)
    (hl : act.program[act.line]? = some line)
    (hr : runStmt act line.stmt s.landOthers = .next (s.landOthers.resume next)) :
    ∃ t, step s = .next t ∧ t.busLog = s.busLog ∧ t.device = s.landOthers.device ∧ t.outputs = s.outputs ∧
      t.host.activity = some next :=
  ⟨s.landOthers.resume next, (step_at h hl).trans hr, by simp⟩

/-- RD with a transaction that succeeds (R46, R70): the state after it. -/
theorem step_rd_lands {reg n x : Nat} (h : s.host.activity = some act)
    (hl : act.program[act.line]? = some ⟨l, .rd reg n x⟩) (hd : InDevice reg n) (hb : s.nextOutcome = .ok) :
    step s = .next ((s.landOthers.afterReadTransaction reg n true).resume
      (act.assign x (bytesNumber (s.landOthers.device.readBytes s.draws reg n)))) := by
  have hr := runRead_ok (s := s.landOthers) (act := act) (x := x) hd (by simpa using hb)
  rw [landOthers_draws] at hr
  exact (step_at h hl).trans hr

/-- WR with a transaction that succeeds (R46, R70): the state after it. -/
theorem step_wr_lands {reg : Nat} {es : List Expr} (h : s.host.activity = some act)
    (hl : act.program[act.line]? = some ⟨l, .wr reg es⟩) (hd : InDevice reg es.length) (hb : s.nextOutcome = .ok) :
    step s = .next ((s.landOthers.afterWriteTransaction reg
      (es.map fun e => BitVec.ofInt 8 (evalExpr s.outputs act.vars e)) true).resume act.onward) := by
  rw [step_at h hl, runStmt, landOthers_outputs]
  exact runWrite_ok (by simpa using hd) (by simpa using hb)

/-- Settles O42: the step at each kind of line is that statement on the state other callers' writes left, and the fields
are read off the state it answers. -/
theorem hostStatementsRun : Obligations.HostStatementsRun := by
  intro s act l h
  refine ⟨?rd, ?wr, ?assign, ?ifTaken, ?ifNotTaken, ?goto, ?ret, ?configure⟩
  case rd =>
    intro reg n x hl hd hb
    exact ⟨_, step_rd_lands h hl hd hb, by simp [State.readResult, Activity.assign]⟩
  case wr =>
    intro reg es hl hd hb
    exact ⟨_, _, step_wr_lands h hl hd hb, rfl, by simp [Activity.onward]⟩
  case assign =>
    intro x e hl
    exact step_resumes h hl (by simp [runStmt, Activity.assign])
  case ifTaken =>
    intro c g k hl hc hk
    exact step_resumes h hl ((runStmt_ifGoto_of_holds (by simpa using hc)).trans (jump_of_find hk))
  case ifNotTaken =>
    intro c g hl hc
    exact step_resumes h hl (runStmt_ifGoto_of_not_holds (by simpa using hc))
  case goto =>
    intro g k hl hk
    exact step_resumes h hl (jump_of_find hk)
  case ret =>
    intro r hl
    exact ⟨_, step_at h hl, by simp⟩
  case configure =>
    intro hl
    exact ⟨_, step_at h hl, by simp [mem_configuredPins, Activity.onward]⟩

end Sys2Proof.Machine
end

section
/-! The state family of statements: what a step performs and what it leaves of the outputs and of the host's
configuration (spec/10_state.md), and what the block's bytes mean in the device's registers. -/

namespace Sys2Proof.Machine

/-! ### The operation a step performs -/

/-- A step of an idle host evaluates the block on its ports. -/
theorem step_of_idle {s : State} (h : s.Idle) : step s = runPorts s.landOthers := by
  obtain ⟨ha, hr⟩ := h
  simp [step, move, ha, hr]

/-- An evaluation of ports that hold an operation performs it (R14, R16). -/
theorem runPorts_of_decode {s : State} {i : Instr} (h : decode s.inputs = .ok i) : runPorts s = exec i s := by
  simp [runPorts, h]

theorem step_of_idle_decode {s : State} {i : Instr} (hs : s.Idle) (hd : decode s.inputs = .ok i) :
    step s = exec i s.landOthers :=
  (step_of_idle hs).trans (runPorts_of_decode (by simpa using hd))

/-- The operation of a table word is the one its ports decode to (R62). -/
theorem decode_of_decodeTableWord {nbits w : Nat} {i : Instr} (h : decodeTableWord nbits w = some i) :
    decode { Inputs.zero with op := BitVec.ofNat 3 w } = .ok i := by
  unfold decodeTableWord at h
  split at h
  · cases hd : decode { Inputs.zero with op := BitVec.ofNat 3 w } with
    | ok j => rw [hd] at h; exact congrArg _ (Option.some.inj h)
    | error e => rw [hd] at h; cases h
  · cases h

/-- Settles O4: an idle host evaluates its ports, a placed word is on the ports of an idle host, and a block line runs
the operation its operands assemble to. -/
theorem stepRunsPresentedOperation : Obligations.StepRunsPresentedOperation := by
  refine ⟨?ports, ?word, ?line⟩
  case ports => exact fun s i hs hd => step_of_idle_decode hs hd
  case word => exact fun s nbits w i hw => step_of_idle_decode ⟨rfl, rfl⟩ (decode_of_decodeTableWord hw)
  case line =>
    intro s act l m args i ha hl hm
    rw [step_at ha hl]
    simp [runStmt, runBlock, hm]

/-- Settles O27: every operation completes as one evaluation, whose outputs are the block's function of what it
presents. -/
theorem outputsAreFunctionOfInputs : Obligations.OutputsAreFunctionOfInputs :=
  fun i s => ⟨s.evaluated i (outputsOf i), exec_eq_evaluated i s, rfl, evaluated_blockOutputs s i, rfl⟩

/-! ### What a line of the host and a step leave -/

/-- What a line of the host leaves as it was where it neither is a RET nor evaluates the block; a line whose failed
transaction or too wide operand ends the call is among them. -/
structure LineFrame (s t : State) : Prop where
  inputs : t.inputs = s.inputs
  outputs : t.outputs = s.outputs
  draws : s.draws ≤ t.draws
  quiet : t.device.quiet = s.device.quiet
  config : t.host.config = s.host.config
  requests : t.host.requests = s.host.requests
  initialised : t.host.initialised = s.host.initialised

/-- A call that ends with TransportError marks nothing initialised (R133). -/
@[simp] theorem initialisedAfter_transportError (b : Bool) (c : HostCall) :
    initialisedAfter b c .transportError = b := by cases c <;> rfl

/-- A call that the host rejects marks nothing initialised (R133). -/
@[simp] theorem initialisedAfter_rejected (b : Bool) (c : HostCall) : initialisedAfter b c .rejected = b := by
  cases c <;> rfl

section line
variable {s t : State} {act : Activity}

theorem LineFrame.refl (s : State) : LineFrame s s := ⟨rfl, rfl, Nat.le_refl _, rfl, rfl, rfl, rfl⟩

theorem LineFrame.trans {u : State} (h : LineFrame s u) (h' : LineFrame u t) : LineFrame s t where
  inputs := h'.inputs.trans h.inputs
  outputs := h'.outputs.trans h.outputs
  draws := Nat.le_trans h.draws h'.draws
  quiet := h'.quiet.trans h.quiet
  config := h'.config.trans h.config
  requests := h'.requests.trans h.requests
  initialised := h'.initialised.trans h.initialised

theorem LineFrame.resume {u : State} (h : LineFrame s u) (next : Activity) : LineFrame s (u.resume next) := { h with }

theorem LineFrame.finish {u : State} (h : LineFrame s u) (act : Activity) {r : HostResult}
    (hr : r = .transportError ∨ r = .rejected) : LineFrame s (u.finish act r) :=
  { h with initialised := by rcases hr with rfl | rfl <;> simp [h.initialised] }

theorem lineFrame_afterRead (s : State) (reg n : Nat) (ok : Bool) : LineFrame s (s.afterReadTransaction reg n ok) where
  inputs := rfl
  outputs := rfl
  draws := Nat.le_succ _
  quiet := by cases ok <;> simp
  config := rfl
  requests := rfl
  initialised := rfl

theorem lineFrame_afterWrite (s : State) (reg : Nat) (bytes : List Byte) (ok : Bool) :
    LineFrame s (s.afterWriteTransaction reg bytes ok) where
  inputs := rfl
  outputs := rfl
  draws := Nat.le_succ _
  quiet := by cases ok <;> simp
  config := rfl
  requests := rfl
  initialised := rfl

theorem lineFrame_runRead {reg n x : Nat} (h : runRead act reg n x s = .next t) : LineFrame s t := by
  rcases runRead_next h with ⟨-, rfl⟩ | ⟨-, -, rfl⟩ | ⟨-, -, rfl⟩
  · exact (lineFrame_afterRead ..).resume _
  · exact (lineFrame_afterRead ..).finish _ (.inl rfl)
  · exact (lineFrame_afterRead ..).resume _

theorem lineFrame_runWrite {reg : Nat} {bytes : List Byte} (h : runWrite act reg bytes s = .next t) :
    LineFrame s t := by
  rcases runWrite_next h with ⟨-, rfl⟩ | ⟨-, -, rfl⟩ | ⟨-, -, rfl⟩
  · exact (lineFrame_afterWrite ..).resume _
  · exact (lineFrame_afterWrite ..).finish _ (.inl rfl)
  · exact (lineFrame_afterWrite ..).resume _

/-- The three kinds of line: RET, a block operation that is performed, and the others, which keep what `LineFrame`
says. -/
theorem runStmt_kinds {st : Stmt} (h : runStmt act st s = .next t) :
    (∃ e, st = .ret e ∧ t = s.finish act (retResult s.outputs act.vars e)) ∨
    (∃ i, t = (s.resume act.onward).evaluated i (outputsOf i)) ∨ LineFrame s t := by
  rcases runStmt_next h with ⟨reg, n, x, -, hr⟩ | ⟨reg, es, -, hw⟩ | ⟨x, e, -, rfl⟩ | ⟨c, l, -, -, rfl⟩ |
    ⟨l, k, -, -, rfl⟩ | ⟨e, he, ht⟩ | ⟨m, args, i, -, -, ht⟩ | ⟨m, args, -, -, rfl⟩ | ⟨-, rfl⟩
  · exact .inr (.inr (lineFrame_runRead hr))
  · exact .inr (.inr (lineFrame_runWrite hw))
  · exact .inr (.inr ((LineFrame.refl s).resume _))
  · exact .inr (.inr ((LineFrame.refl s).resume _))
  · exact .inr (.inr ((LineFrame.refl s).resume _))
  · exact .inl ⟨e, he, ht⟩
  · exact .inr (.inl ⟨i, ht⟩)
  · exact .inr (.inr ((LineFrame.refl s).finish _ (.inr rfl)))
  · exact .inr (.inr { LineFrame.refl s with })

theorem lineFrame_landOthers (s : State) : LineFrame s s.landOthers := by constructor <;> simp

/-- The four kinds of step: RET, an evaluation of the block (for a line of the host or for the ports), the start of a
waiting call, and the other lines. -/
theorem step_kinds (h : step s = .next t) :
    (∃ act l e, s.host.activity = some act ∧ act.program[act.line]? = some ⟨l, .ret e⟩ ∧
      t = s.landOthers.finish act (retResult s.outputs act.vars e)) ∨
    (∃ u i, LineFrame s u ∧ u.draws = s.draws ∧ t = u.evaluated i (outputsOf i)) ∨
    (∃ c rest, s.host.activity = none ∧ s.host.requests = c :: rest ∧ t = s.landOthers.startCall c rest) ∨
    LineFrame s t := by
  have hl := lineFrame_landOthers s
  rcases step_cases h with ⟨act, ⟨l, st⟩, ha, hline, hs⟩ | ⟨c, rest, ha, hr, ht⟩ | ⟨i, -, -, ht⟩
  · rcases runStmt_kinds hs with ⟨e, rfl, ht⟩ | ⟨i, ht⟩ | hf
    · exact .inl ⟨act, l, e, ha, hline, by simpa using ht⟩
    · exact .inr (.inl ⟨_, i, hl.resume _, by simp, ht⟩)
    · exact .inr (.inr (.inr (hl.trans hf)))
  · exact .inr (.inr (.inl ⟨c, rest, ha, hr, ht⟩))
  · exact .inr (.inl ⟨_, i, hl, by simp, ht⟩)

/-! ### The outputs -/

/-- A step evaluates the block with the draw that comes next, or leaves ports and outputs as they are (R14, R135). -/
theorem step_evaluates_or_keeps (h : step s = .next t) :
    (t.outputs = blockOutputs t.inputs s.draws ∧ t.draws = s.draws + 1) ∨
    (t.outputs = s.outputs ∧ t.inputs = s.inputs ∧ s.draws ≤ t.draws) := by
  rcases step_kinds h with ⟨act, l, e, -, -, rfl⟩ | ⟨u, i, -, hd, rfl⟩ | ⟨c, rest, -, -, rfl⟩ | hf
  · exact .inr (by simp)
  · rw [← hd]
    exact .inl ⟨evaluated_blockOutputs u i, rfl⟩
  · exact .inr (by simp)
  · exact .inr ⟨hf.outputs, hf.inputs, hf.draws⟩

/-- Settles O32: an evaluation settles the outputs on its own draw, and every other step keeps them with the ports. -/
theorem outputsStaySettled : Obligations.OutputsStaySettled := by
  intro s t h
  rcases step_evaluates_or_keeps h with ⟨ho, hd⟩ | ⟨ho, hi, hd⟩
  · exact ⟨fun _ => ⟨s.draws, by omega, ho⟩, .inl ⟨ho, hd⟩⟩
  · refine ⟨fun ⟨d, hlt, hs⟩ => ⟨d, by omega, ?settled⟩, .inr ⟨ho, hi⟩⟩
    case settled => rw [ho, hi, hs]

/-! ### The configuration, the waiting calls and the initialised mark -/

/-- A call leaves the configuration as it was, but for the pins that `initialize` brings (R38, R104). -/
theorem forCall_cases (cfg : ControllerConfig) (c : HostCall) :
    cfg.forCall c = cfg ∨ ∃ scl sda pin, c = .initializeRtc scl sda pin ∧
      cfg.forCall c = { cfg with busPins := some (scl, sda), intPin := pin } := by
  cases c with
  | initializeRtc scl sda pin => exact .inr ⟨scl, sda, pin, rfl, rfl⟩
  | getTime | setTime _ | setCountdownAlarm _ | clearAlarmFlag | disableAlarm | custom _ => exact .inl rfl

theorem startCall_config_cases (s : State) (c : HostCall) (rest : List HostCall) :
    (s.startCall c rest).host.config = s.host.config ∨ ∃ scl sda pin, c = .initializeRtc scl sda pin ∧
      (s.startCall c rest).host.config = { s.host.config with busPins := some (scl, sda), intPin := pin } := by
  rw [startCall_config]
  split
  · exact forCall_cases _ c
  · exact .inl rfl

/-- A step leaves the configuration as it was, unless it starts a call of `initialize`, which brings its pins. -/
theorem step_config_cases (h : step s = .next t) :
    t.host.config = s.host.config ∨ ∃ scl sda pin rest, s.host.activity = none ∧
      s.host.requests = .initializeRtc scl sda pin :: rest ∧
      t.host.config = { s.host.config with busPins := some (scl, sda), intPin := pin } := by
  rcases step_kinds h with ⟨act, l, e, -, -, rfl⟩ | ⟨u, i, hf, -, rfl⟩ | ⟨c, rest, ha, hr, rfl⟩ | hf
  · exact .inl (by simp)
  · exact .inl hf.config
  · rcases startCall_config_cases s.landOthers c rest with hc | ⟨scl, sda, pin, rfl, hc⟩
    · exact .inl (by simpa using hc)
    · exact .inr ⟨scl, sda, pin, rest, ha, hr, by simpa using hc⟩
  · exact .inl hf.config

theorem step_devAddr (h : step s = .next t) : t.host.config.devAddr = s.host.config.devAddr := by
  rcases step_config_cases h with hc | ⟨_, _, _, _, -, -, hc⟩ <;> rw [hc]

theorem step_errPolicy (h : step s = .next t) : t.host.config.errPolicy = s.host.config.errPolicy := by
  rcases step_config_cases h with hc | ⟨_, _, _, _, -, -, hc⟩ <;> rw [hc]

theorem step_quiet (h : step s = .next t) : t.device.quiet = s.device.quiet := by
  rcases step_kinds h with ⟨act, l, e, -, -, rfl⟩ | ⟨u, i, hf, -, rfl⟩ | ⟨c, rest, -, -, rfl⟩ | hf
  · simp
  · exact hf.quiet
  · simp
  · exact hf.quiet

theorem step_requests_of_activity (h : step s = .next t) (ha : s.host.activity = some act) :
    t.host.requests = s.host.requests := by
  rcases step_kinds h with ⟨act, l, e, -, -, rfl⟩ | ⟨u, i, hf, -, rfl⟩ | ⟨c, rest, hn, -, -⟩ | hf
  · simp
  · exact hf.requests
  · simp [ha] at hn
  · exact hf.requests

/-- Only RET can mark the host initialised. -/
theorem step_initialised_cases (h : step s = .next t) :
    t.host.initialised = s.host.initialised ∨
    ∃ act l e, s.host.activity = some act ∧ act.program[act.line]? = some ⟨l, .ret e⟩ ∧
      t = s.landOthers.finish act (retResult s.outputs act.vars e) := by
  rcases step_kinds h with hret | ⟨u, i, hf, -, rfl⟩ | ⟨c, rest, -, -, rfl⟩ | hf
  · exact .inr hret
  · exact .inl hf.initialised
  · exact .inl (by simp)
  · exact .inl hf.initialised

/-- The mark after a call: it was there, or the call is an `initialize` that succeeded (R133). -/
theorem initialisedAfter_iff {b : Bool} {c : HostCall} {r : HostResult} :
    initialisedAfter b c r = true ↔ b = true ∨ ((∃ scl sda pin, c = .initializeRtc scl sda pin) ∧ r = .success) := by
  cases c with
  | initializeRtc scl sda pin => cases r <;> simp [initialisedAfter]
  | getTime | setTime _ | setCountdownAlarm _ | clearAlarmFlag | disableAlarm | custom _ => simp [initialisedAfter]

theorem retResult_eq_success_iff {o : Outputs} {vars : List (Nat × Int)} {e : RetExpr} :
    retResult o vars e = .success ↔ e = .success := by
  cases e <;> simp [retResult]

theorem step_initialised_stays (h : step s = .next t) (hi : s.host.initialised = true) :
    t.host.initialised = true := by
  rcases step_initialised_cases h with he | ⟨act, l, e, -, -, rfl⟩
  · exact he.trans hi
  · exact initialisedAfter_iff.2 (.inl (by simpa using hi))

/-- A mark that is there after a step was there, or the step returned success from an `initialize` (R133). -/
theorem initialised_before_of_step (h : step s = .next t) (hi : t.host.initialised = true) :
    s.host.initialised = true ∨
    ∃ act l scl sda pin, s.host.activity = some act ∧ act.call = .initializeRtc scl sda pin ∧
      act.program[act.line]? = some ⟨l, .ret .success⟩ ∧ t.host.activity = none ∧ t.host.result = some .success := by
  rcases step_initialised_cases h with he | ⟨act, l, e, ha, hl, rfl⟩
  · exact .inl (he.symm.trans hi)
  · rcases initialisedAfter_iff.1 hi with hb | ⟨⟨scl, sda, pin, hc⟩, hr⟩
    · exact .inl (by simpa using hb)
    · obtain rfl := retResult_eq_success_iff.1 hr
      exact .inr ⟨act, l, scl, sda, pin, ha, hc, hl, rfl, rfl⟩

/-- A RET of success in a call of `initialize` marks the host initialised and ends the call (R133). -/
theorem initialised_of_ret_success {l : Option Nat} {scl sda : Int} {pin : Option Int} (h : step s = .next t)
    (ha : s.host.activity = some act) (hc : act.call = .initializeRtc scl sda pin)
    (hl : act.program[act.line]? = some ⟨l, .ret .success⟩) :
    t.host.initialised = true ∧ t.host.activity = none ∧ t.host.result = some .success := by
  rw [step_at ha hl] at h
  obtain rfl := Host.Outcome.next.inj h
  exact ⟨initialisedAfter_iff.2 (.inr ⟨⟨scl, sda, pin, hc⟩, rfl⟩), rfl, rfl⟩

end line

/-- Settles O34: each clause is what the four kinds of step leave of one field. -/
theorem stepKeepsConfiguration : Obligations.StepKeepsConfiguration := by
  intro s t h
  refine ⟨step_devAddr h, step_errPolicy h, step_quiet h, fun _ ha => step_requests_of_activity h ha,
    step_initialised_stays h, initialised_before_of_step h,
    fun _ _ _ _ _ ha hc hl => initialised_of_ret_success h ha hc hl, ?pins⟩
  case pins =>
    refine (step_config_cases h).imp_right ?_
    rintro ⟨scl, sda, pin, rest, ha, hr, hc⟩
    exact ⟨scl, sda, pin, rest, ha, hr, by rw [hc], by rw [hc]⟩

/-! ### The masked bits of an image -/

/-- The decode masks of the seven lanes, as one image (R23, R78). -/
def decodeMasks : Image := 0xFF1F073F3F7F7F

theorem imgByte_decodeMasks : ∀ k < 7, imgByte decodeMasks k = fieldMask k := by decide

/-- A lane's value is read off the masked bits of the image alone. -/
theorem laneValue_eq_of_masked (img : Image) {k : Nat} (hk : k < 7) :
    laneValue img k = decBcd (imgByte (img &&& decodeMasks) k) := by
  rw [laneValue, ← imgByte_decodeMasks k hk, imgByte, imgByte, imgByte, BitVec.extractLsb'_and]

theorem laneValue_congr {img img' : Image} (h : img &&& decodeMasks = img' &&& decodeMasks) {k : Nat} (hk : k < 7) :
    laneValue img k = laneValue img' k := by
  rw [laneValue_eq_of_masked img hk, laneValue_eq_of_masked img' hk, h]

/-- TB_UNPACK gives the same outputs for two images that agree on the masked bits (R40, R78). -/
theorem tbUnpackOut_congr {img img' : Image} (h : img &&& decodeMasks = img' &&& decodeMasks) :
    tbUnpackOut img = tbUnpackOut img' := by
  funext o
  have hlane {k : Nat} (hk : k < 7) := laneValue_congr h hk
  simp [tbUnpackOut, hlane]

/-- Settles O14: every output of TB_UNPACK is made of lane values, and the masks are those of the statement. -/
theorem maskedBitsNeverReachOutputs : Obligations.MaskedBitsNeverReachOutputs :=
  fun img img' s h => ⟨_, _, exec_eq_evaluated (.tbUnpack img) s, exec_eq_evaluated (.tbUnpack img') s,
    congrFun (tbUnpackOut_congr h) (Outputs.draw s.draws)⟩

/-! ### The bytes for the device as its fields -/

section fields
variable (b c : Byte)

@[simp] theorem enableBit_and : enableBit (b &&& c) = (enableBit b && enableBit c) := BitVec.getLsbD_and
@[simp] theorem enableBit_or : enableBit (b ||| c) = (enableBit b || enableBit c) := BitVec.getLsbD_or
@[simp] theorem testBit_and : testBit (b &&& c) = (testBit b && testBit c) := BitVec.getLsbD_and
@[simp] theorem testBit_or : testBit (b ||| c) = (testBit b || testBit c) := BitVec.getLsbD_or
@[simp] theorem flagBits_and : flagBits (b &&& c) = flagBits b &&& flagBits c := BitVec.extractLsb'_and
@[simp] theorem flagBits_or : flagBits (b ||| c) = flagBits b ||| flagBits c := BitVec.extractLsb'_or
end fields

/-- The flag bits are clear in the byte both paths of CD_SELECT start from (R89). -/
@[simp] theorem flagBits_cdBase (a : Byte) : flagBits (cdBase a) = 0 := by
  have hf : flagBits 0xF3 = 0#2 := by decide
  rw [cdBase, flagBits_and, hf]
  exact BitVec.and_zero

@[simp] theorem enableBit_cdBase (a : Byte) : enableBit (cdBase a) = enableBit a := by
  have hb : enableBit 0xF3 = true := by decide
  rw [cdBase, enableBit_and, hb, Bool.and_true]

@[simp] theorem testBit_cdBase (a : Byte) : testBit (cdBase a) = testBit a := by
  have hb : testBit 0xF3 = true := by decide
  rw [cdBase, testBit_and, hb, Bool.and_true]

theorem vlBit_eq_false_of_lt {b : Byte} (h : b.toNat < 128) : vlBit b = false :=
  Nat.testBit_lt_two_pow h

/-- An encoded second up to 79 leaves VL clear (R28, R84). -/
theorem vlBit_encBcd {v : Nat} (h : v ≤ 79) : vlBit (encBcd v) = false :=
  vlBit_eq_false_of_lt (by rw [encBcd_toNat v (by omega)]; omega)

/-- The disable path idles the timer, clears enable and flags, and keeps the test bit (R27, R35, R90). -/
theorem cdDisableOut_fields (a : Byte) (o : Outputs) :
    flagBits (cdDisableOut a o).ctrl2O = 0 ∧ enableBit (cdDisableOut a o).ctrl2O = false ∧
      testBit (cdDisableOut a o).ctrl2O = testBit a ∧ timerMode (cdDisableOut a o).tctlO = some .idle := by
  have he : enableBit 0xFE#8 = false := by decide
  have ht : testBit 0xFE#8 = true := by decide
  simp [cdDisableOut, timerMode, he, ht]

/-- Arming enables the timer at its resolution, with the flags and the test bit clear (R27, R35, R93). -/
theorem cdArmOut_fields (n : Int) (a : Byte) (o : Outputs) :
    flagBits (cdArmOut n a o).ctrl2O = 0 ∧ enableBit (cdArmOut n a o).ctrl2O = true ∧
      testBit (cdArmOut n a o).ctrl2O = false ∧
      timerMode (cdArmOut n a o).tctlO = some (if n < 270 then .secondResolution else .minuteResolution) := by
  have hf : flagBits 0x01#8 = 0#2 := by decide
  have he : enableBit 0x01#8 = true ∧ enableBit 0x7F#8 = true := by decide
  have ht : testBit 0x7F#8 = false := by decide
  refine ⟨by simp [cdArmOut, hf], by simp [cdArmOut, he], by simp [cdArmOut, ht], ?mode⟩
  case mode => by_cases hn : n < 270 <;> simp [cdArmOut, cdThreshold, timerMode, hn]

/-- CTRL2_ACK clears the flag bits and keeps enable and test bit (R27, R96). -/
theorem ctrl2AckOut_fields (a : Byte) (o : Outputs) :
    flagBits (ctrl2AckOut a o).y = 0 ∧ enableBit (ctrl2AckOut a o).y = enableBit a ∧
      testBit (ctrl2AckOut a o).y = testBit a := by
  rw [show (ctrl2AckOut a o).y = cdBase a from rfl]
  simp

/-- TB_PACK leaves VL clear for a second up to 79 (R28, R84). -/
theorem vlBit_tbPackOut {sec : Byte} (h : sec.toNat ≤ 79) (mins hour mday wday mon : Byte) (year : Year) (o : Outputs) :
    vlBit (imgByte (tbPackOut sec mins hour mday wday mon year o).imgO 0) = false := by
  have hsec : BcdEncodable sec.toNat := by omega
  simp only [tbPackOut, imgByte_packImage_0, encLane_of_encodable _ hsec, Int.toNat_natCast]
  exact vlBit_encBcd h

/-- Settles O25: the two paths of CD_SELECT, CTRL2_ACK and the second's lane of TB_PACK, field by field. -/
theorem bytesAsDeviceFields : Obligations.BytesAsDeviceFields := by
  refine ⟨?select, ?ack, ?pack⟩
  case select =>
    intro secs a s
    refine ⟨_, exec_eq_evaluated _ s, ?_⟩
    simp only [evaluated_outputs, outputsOf, cdSelectOut]
    split
    case isTrue hneg =>
      obtain ⟨hf, he, ht, hm⟩ := cdDisableOut_fields a (Outputs.draw s.draws)
      exact ⟨hf, fun h => by omega, fun _ => ⟨he, ht, hm⟩⟩
    case isFalse hpos =>
      obtain ⟨hf, he, ht, hm⟩ := cdArmOut_fields secs.toInt a (Outputs.draw s.draws)
      exact ⟨hf, fun _ => ⟨he, ht, hm⟩, fun h => absurd h hpos⟩
  case ack => exact fun a s => ⟨_, exec_eq_evaluated _ s, ctrl2AckOut_fields a _⟩
  case pack =>
    exact fun sec mins hour mday wday mon year s =>
      ⟨_, exec_eq_evaluated _ s, fun h => vlBit_tbPackOut h mins hour mday wday mon year _⟩

end Sys2Proof.Machine
end

section
/-! The memory family of statements: what a step keeps of a well-formed system, what it does to the device's registers and
to the bus log (spec/20_memory.md), and that the host's calls end. -/

namespace Sys2Proof.Machine

open Sys2Proof.Claims

/-! ### Running calls stay well formed -/

section running
variable {act : Activity}

theorem Activity.Ok.goto (h : act.Ok) {k : Nat} (hk : k < act.program.length) : Activity.Ok { act with line := k } :=
  ⟨h.1, hk, h.2.2⟩

theorem Activity.Ok.onward (h : act.Ok) (hk : act.line + 1 < act.program.length) : act.onward.Ok := h.goto hk

theorem Activity.Ok.assign (h : act.Ok) (hk : act.line + 1 < act.program.length) (x : Nat) (v : Int) :
    (act.assign x v).Ok :=
  ⟨h.1, hk, store_rising h.2.2 x v⟩

/-- A well-formed call starts well formed: it expands to a well-formed program (R71). -/
theorem start_ok (policy : ErrPolicy) {c : HostCall} (h : c.wf = true) : (Activity.start policy c).Ok :=
  ⟨expand_wf c h, length_pos_of_wf (expand_wf c h), List.Pairwise.nil⟩

end running

/-! ### A step keeps the invariant -/

section inv
variable {s t : State} {act : Activity}

theorem evaluated_inv (h : s.Inv) (i : Instr) (w : Outputs → Outputs) : (s.evaluated i w).Inv := h

theorem configuredPins_rising {h : Controller} (hp : h.inputPins.Pairwise (· < ·)) :
    h.configuredPins.Pairwise (· < ·) := by
  unfold Controller.configuredPins
  split
  · exact addPin_rising hp _
  · exact hp

theorem configure_inv (h : s.Inv) (ha : act.onward.Ok) : (s.configure act).Inv := by
  obtain ⟨hwf, hin, hreq, -, hpins⟩ := h
  exact ⟨hwf, hin, hreq, fun a e => Option.some.inj e ▸ ha, configuredPins_rising hpins⟩

theorem startCall_inv (h : s.Inv) {c : HostCall} {rest : List HostCall} (ha : s.host.activity = none)
    (hr : s.host.requests = c :: rest) : (s.startCall c rest).Inv := by
  obtain ⟨hwf, hin, hreq, -, hpins⟩ := h
  obtain ⟨hc, hrest⟩ := List.forall_mem_cons.1 (hr ▸ hreq)
  refine ⟨by simpa using hwf, by simpa using hin, by simpa using hrest, fun a e => ?_, by simpa using hpins⟩
  rw [startCall_activity] at e
  split at e
  · exact Option.some.inj e ▸ start_ok _ hc
  · simp [ha] at e

theorem runRead_inv (h : s.Inv) (ha : act.Ok) (hk : act.line + 1 < act.program.length) {reg n x : Nat}
    (hr : runRead act reg n x s = .next t) : t.Inv := by
  rcases runRead_next hr with ⟨-, rfl⟩ | ⟨-, -, rfl⟩ | ⟨-, -, rfl⟩
  · exact resume_inv (afterReadTransaction_inv h ..) (ha.assign hk ..)
  · exact finish_inv (afterReadTransaction_inv h ..) ..
  · exact resume_inv (afterReadTransaction_inv h ..) (ha.assign hk ..)

theorem runWrite_inv (h : s.Inv) (ha : act.Ok) (hk : act.line + 1 < act.program.length) {reg : Nat} {bytes : List Byte}
    (hw : runWrite act reg bytes s = .next t) : t.Inv := by
  rcases runWrite_next hw with ⟨-, rfl⟩ | ⟨-, -, rfl⟩ | ⟨-, -, rfl⟩
  · exact resume_inv (afterWriteTransaction_inv h ..) (ha.onward hk)
  · exact finish_inv (afterWriteTransaction_inv h ..) ..
  · exact resume_inv (afterWriteTransaction_inv h ..) (ha.onward hk)

/-- A line of a well-formed running call keeps the invariant: it goes on at a line that exists, or ends the call. -/
theorem runStmt_inv (h : s.Inv) (ha : act.Ok) {line : Line} (hl : act.program[act.line]? = some line)
    (hs : runStmt act line.stmt s = .next t) : t.Inv := by
  have hk (he : line.stmt.ends = false) : act.line + 1 < act.program.length := onward_lt_of_wf ha.1 hl he
  rcases runStmt_next hs with ⟨reg, n, x, hst, hr⟩ | ⟨reg, es, hst, hw⟩ | ⟨x, e, hst, rfl⟩ | ⟨c, l, hst, -, rfl⟩ |
    ⟨l, k, -, hf, rfl⟩ | ⟨e, -, rfl⟩ | ⟨m, args, i, hst, -, rfl⟩ | ⟨m, args, -, -, rfl⟩ | ⟨hst, rfl⟩
  · exact runRead_inv h ha (hk (by rw [hst]; rfl)) hr
  · exact runWrite_inv h ha (hk (by rw [hst]; rfl)) hw
  · exact resume_inv h (ha.assign (hk (by rw [hst]; rfl)) ..)
  · exact resume_inv h (ha.onward (hk (by rw [hst]; rfl)))
  · exact resume_inv h (ha.goto (find_lt hf))
  · exact finish_inv h ..
  · exact evaluated_inv (resume_inv h (ha.onward (hk (by rw [hst]; rfl)))) ..
  · exact finish_inv h ..
  · exact configure_inv h (ha.onward (hk (by rw [hst]; rfl)))

end inv

/-- Settles O29: other callers' writes keep the invariant, and then so does each kind of step: a line of the running call,
the start of a waiting one, and an evaluation of the ports. -/
theorem stepKeepsInvariant : Obligations.StepKeepsInvariant := by
  intro s t h hs
  have hland := landOthers_inv h
  rcases step_cases hs with ⟨act, line, ha, hl, hr⟩ | ⟨c, rest, ha, hr, rfl⟩ | ⟨i, -, -, rfl⟩
  · obtain ⟨-, -, -, hact, -⟩ := h
    exact runStmt_inv hland (hact act ha) hl hr
  · exact startCall_inv hland (by simpa using ha) (by simpa using hr)
  · exact evaluated_inv hland ..

/-! ### The block's operations -/

/-- Presenting an operation leaves the ports it does not read as they are (log entry 6). -/
theorem inputNumber_presentOn_of_notMem (i : Instr) (p : Inputs) (q : InPort) (h : q ∉ i.mnemonic.reads) :
    inputNumber (i.presentOn p) q = inputNumber p q := by
  revert h
  cases i with
  | bcdDec _ | bcdEnc _ | tbUnpack _ | tbPack _ _ _ _ _ _ _ | cdSelect _ _ | ctrl2Ack _ =>
    cases q <;> simp [Instr.presentOn, inputNumber, Instr.mnemonic, Mnemonic.reads]

/-- Settles O26: every operation is one evaluation of the block, which changes ports and outputs only, and of the input
ports those it presents. -/
theorem blockOperationsFrame : Obligations.BlockOperationsFrame :=
  fun i s => ⟨_, exec_eq_evaluated i s, rfl, rfl, rfl, rfl, rfl, fun _ _ => rfl,
    inputNumber_presentOn_of_notMem i s.inputs⟩

/-! ### The device's registers -/

section device
variable {d : Device}

/-- A known register reads, bit by bit, as its content, but for its volatile bits, which are free (92 D17). -/
theorem getLsbD_readByte_of_known {a : Nat} {b : Byte} (h : lookup d.regs a = some b) (draw k : Nat) :
    (d.readByte draw a).getLsbD k =
      if (d.volatileBits a).getLsbD k then (Config.anyRegister draw a).getLsbD k else b.getLsbD k := by
  simp only [Device.readByte, h, Memory.unlisted, BitVec.getLsbD_or, BitVec.getLsbD_and, BitVec.getLsbD_not]
  by_cases hk : k < 8
  · cases (d.volatileBits a).getLsbD k <;> simp [hk]
  · simp [BitVec.getLsbD_of_ge _ k (Nat.not_lt.1 hk)]

theorem readByte_of_unknown {a : Nat} (h : lookup d.regs a = none) (draw : Nat) :
    d.readByte draw a = Config.anyRegister draw a := by
  simp [Device.readByte, h, Memory.unlisted]

/-- A volatile bit reads as the free value, whether the register's content is known or not. -/
theorem getLsbD_readByte_of_volatile {a k : Nat} (h : (d.volatileBits a).getLsbD k = true) (draw : Nat) :
    (d.readByte draw a).getLsbD k = (Config.anyRegister draw a).getLsbD k := by
  cases hl : lookup d.regs a with
  | none => rw [readByte_of_unknown hl]
  | some b => rw [getLsbD_readByte_of_known hl, if_pos h]

/-- Without `Quiet` every bit of the time block is volatile (R55). -/
theorem volatileBits_timeBlock {a : Nat} (hq : d.quiet = false) (h2 : 2 ≤ a) (h8 : a ≤ 8) :
    d.volatileBits a = BitVec.allOnes 8 := by
  simp [Device.volatileBits, hq, h2, h8]

/-- Only bits 3:2 of register 0x01 can be volatile (R125). -/
theorem volatileBits_control2_of_ne {k : Nat} (h2 : k ≠ 2) (h3 : k ≠ 3) : (d.volatileBits 1).getLsbD k = false := by
  have hflags : (0x0C : Byte) = BitVec.twoPow 8 2 ||| BitVec.twoPow 8 3 := by decide
  unfold Device.volatileBits
  cases d.quiet <;> simp [hflags, h2.symm, h3.symm]

theorem volatileBits_control2 {k : Nat} (hq : d.quiet = false) (hk : k = 2 ∨ k = 3) :
    (d.volatileBits 1).getLsbD k = true := by
  rcases hk with rfl | rfl <;> simp [Device.volatileBits, hq]

end device

/-- Settles O38: outside the time block by the byte written, in it and at the flags by the volatile bits, bit by bit. -/
theorem deviceReadsAreLastWrittenOrFree : Obligations.DeviceReadsAreLastWrittenOrFree := by
  intro d draw addr b
  refine ⟨fun hh hv h1 => readByte_writeByte_plain addr b draw hh hv h1, ?kept, ?timeBlock, ?flags,
    fun hn => readByte_of_unknown hn draw⟩
  case kept =>
    intro k h2 h3
    have hl : lookup (d.writeByte 1 b).regs 1 = some b := by simp [lookup_writeByte]
    rw [getLsbD_readByte_of_known hl, volatileBits_control2_of_ne h2 h3, if_neg Bool.false_ne_true]
  case timeBlock =>
    intro hq h2 h8
    refine BitVec.eq_of_getLsbD_eq fun k hk => getLsbD_readByte_of_volatile ?_ draw
    rw [volatileBits_timeBlock hq h2 h8, BitVec.getLsbD_allOnes, decide_eq_true hk]
  case flags => exact fun hq k hk => getLsbD_readByte_of_volatile (volatileBits_control2 hq hk) draw

/-- Settles O35: byte `i` of a read or a write is register `reg + i`, and a write leaves the others alone. -/
theorem transactionsRunInRisingOrder : Obligations.TransactionsRunInRisingOrder :=
  fun _ draw reg n bytes => ⟨readBytes_getElem? draw reg n, fun i b => lookup_writeBytes_inside reg i b bytes,
    fun a => lookup_writeBytes_outside reg a bytes⟩

/-- Settles O36, by induction on the bytes: a known register reads as its content and stays as it is. -/
theorem quietReadsGiveTheRegisters : Obligations.QuietReadsGiveTheRegisters := by
  intro d draw reg bytes hq
  induction bytes generalizing reg with
  | nil => exact fun _ => ⟨rfl, rfl⟩
  | cons b bytes ih =>
    intro hk
    have hb : lookup d.regs reg = some b := hk 0 b rfl
    obtain ⟨hread, hafter⟩ := ih (reg + 1) fun i c hc => by
      rw [Nat.add_assoc, Nat.add_comm 1 i]
      exact hk (i + 1) c hc
    simp [Device.readBytes, Device.afterReads, readByte_of_known hq hb, afterRead_known hb, hread, hafter]

theorem losesRegisters_loseBytes (d : Device) (reg n : Nat) : LosesRegisters d (d.loseBytes reg n) reg n :=
  lookup_loseBytes reg n

/-- A write inside the device makes all its registers known (R46). -/
theorem takesBytes_writeBytes (d : Device) {reg : Nat} {bytes : List Byte} (hd : InDevice reg bytes.length) :
    TakesBytes d (d.writeBytes reg bytes) reg bytes := by
  refine ⟨fun i b hb => lookup_writeBytes_inside reg i b bytes hb ?_, fun a => lookup_writeBytes_outside reg a bytes⟩
  obtain ⟨hi, -⟩ := List.getElem?_eq_some_iff.1 hb
  omega

/-- Settles O39: a failed write takes exactly its registers out. -/
theorem failedWriteLosesItsRegisters : Obligations.FailedWriteLosesItsRegisters :=
  fun s reg bytes => losesRegisters_loseBytes s.device reg bytes.length

/-! ### At most one transaction in a step -/

section transaction
variable {s t : State} {act : Activity}

theorem runRead_transaction {reg n x : Nat} (h : runRead act reg n x s = .next t) :
    ∃ ok, s.nextOutcome = outcome ok ∧ t.draws = s.draws + 1 ∧
      t.busLog = s.busLog ++ [s.host.event (.read reg n) ok] ∧
      t.device = (s.afterReadTransaction reg n ok).device := by
  rcases runRead_next h with ⟨ho, rfl⟩ | ⟨ho, -, rfl⟩ | ⟨ho, -, rfl⟩
  · exact ⟨true, ho, rfl, rfl, rfl⟩
  · exact ⟨false, ho, rfl, rfl, rfl⟩
  · exact ⟨false, ho, rfl, rfl, rfl⟩

theorem runWrite_transaction {reg : Nat} {bytes : List Byte} (h : runWrite act reg bytes s = .next t) :
    ∃ ok, s.nextOutcome = outcome ok ∧ t.draws = s.draws + 1 ∧
      t.busLog = s.busLog ++ [s.host.event (.write reg bytes) ok] ∧
      t.device = (s.afterWriteTransaction reg bytes ok).device := by
  rcases runWrite_next h with ⟨ho, rfl⟩ | ⟨ho, -, rfl⟩ | ⟨ho, -, rfl⟩
  · exact ⟨true, ho, rfl, rfl, rfl⟩
  · exact ⟨false, ho, rfl, rfl, rfl⟩
  · exact ⟨false, ho, rfl, rfl, rfl⟩

/-- A line of the host is a read, a write, or makes no transaction and leaves the device alone (R43). -/
theorem runStmt_transaction {st : Stmt} (h : runStmt act st s = .next t) :
    (∃ reg n x, st = .rd reg n x ∧ runRead act reg n x s = .next t) ∨
    (∃ reg es, st = .wr reg es ∧
      runWrite act reg (es.map fun e => BitVec.ofInt 8 (evalExpr s.outputs act.vars e)) s = .next t) ∨
    (t.busLog = s.busLog ∧ t.device = s.device) := by
  rcases runStmt_next h with hr | hw | ⟨x, e, -, rfl⟩ | ⟨c, l, -, -, rfl⟩ | ⟨l, k, -, -, rfl⟩ | ⟨e, -, rfl⟩ |
    ⟨m, args, i, -, -, rfl⟩ | ⟨m, args, -, -, rfl⟩ | ⟨-, rfl⟩
  · exact .inl hr
  · exact .inr (.inl hw)
  all_goals exact .inr (.inr ⟨rfl, rfl⟩)

end transaction

/-- Settles O33: the start of a call and an evaluation make no transaction, and of the host's lines only RD and WR make
one, which the next outcome ends. -/
theorem oneTransactionPerStep : Obligations.OneTransactionPerStep := by
  intro s t h
  rcases step_cases h with ⟨act, ⟨l, st⟩, ha, hl, hs⟩ | ⟨c, rest, -, -, rfl⟩ | ⟨i, -, -, rfl⟩
  case inl =>
    rcases runStmt_transaction hs with ⟨reg, n, x, rfl, hr⟩ | ⟨reg, es, rfl, hw⟩ | ⟨hlog, hdev⟩
    · obtain ⟨ok, ho, hd, hlog, hdev⟩ := runRead_transaction hr
      refine .inr ⟨act, l, ok, ha, by simpa using ho, by simpa using hd,
        .inl ⟨reg, n, x, hl, by simpa using hlog, ?_, ?_⟩⟩
      · rintro rfl; simpa using hdev
      · rintro rfl; exact hdev
    · rw [landOthers_outputs] at hw
      obtain ⟨ok, ho, hd, hlog, hdev⟩ := runWrite_transaction hw
      refine .inr ⟨act, l, ok, ha, by simpa using ho, by simpa using hd,
        .inr ⟨reg, es, _, hl, rfl, by simpa using hlog, ?_, ?_⟩⟩
      · rintro rfl; rw [hdev]; exact takesBytes_writeBytes _ (inDevice_of_runWrite hw)
      · rintro rfl; rw [hdev]; exact losesRegisters_loseBytes _ _ _
    · exact .inl ⟨by simpa using hlog, hdev⟩
  case inr.inl => exact .inl (by simp)
  case inr.inr => exact .inl (by simp)

/-! ### Where a host line is refused -/

/-- Settles O43: each refusal is the answer of the host's next line, whatever other callers write before it. -/
theorem illFormedLinesAreRefused : Obligations.IllFormedLinesAreRefused := by
  intro s act l ha
  refine ⟨?rd, ?wr, ?ifGoto, ?goto, ?ended⟩
  case rd =>
    intro reg n x hl hn
    rw [step_at ha hl]
    exact if_neg (Nat.not_le.2 hn)
  case wr =>
    intro reg es hl hn
    rw [step_at ha hl]
    simp [runStmt, runWrite, Nat.not_le.2 hn]
  case ifGoto =>
    intro c g hl hc hf
    rw [step_at ha hl, runStmt_ifGoto_of_holds (by simpa using hc)]
    simp [State.jump, hf]
  case goto =>
    intro g hl hf
    rw [step_at ha hl]
    simp [runStmt, State.jump, hf]
  case ended =>
    intro hn
    simp [step, move, ha, runActivity, List.getElem?_eq_none hn]

/-! ### The public operations -/

/-- Settles O45, call by call: every line of the listed program is one of R48's accesses or no transaction. -/
theorem hostUsesOnlyListedAccesses : Obligations.HostUsesOnlyListedAccesses := by
  intro c hc
  cases c with
  | custom p => exact absurd rfl (hc p)
  | initializeRtc _ _ _ => simp [expand, initializeProgram, plain, marked, usesOnlyR48, UsedAccess]
  | getTime => simp [expand, getTimeProgram, plain, usesOnlyR48, UsedAccess]
  | setTime _ => simp [expand, setTimeProgram, plain, usesOnlyR48, UsedAccess]
  | setCountdownAlarm _ => simp [expand, setCountdownAlarmProgram, plain, marked, usesOnlyR48, UsedAccess]
  | clearAlarmFlag => simp [expand, clearAlarmFlagProgram, plain, usesOnlyR48, UsedAccess]
  | disableAlarm => simp [expand, disableAlarmProgram, plain, usesOnlyR48, UsedAccess]

theorem initializeProgram_ends : EndsWithin initializeProgram 0 4 7 := by
  have hregs : EndsWithin initializeProgram 3 4 5 :=
    endsWithin_wr rfl (by decide) (endsWithin_wr rfl (by decide) (endsWithin_wr rfl (by decide) (endsWithin_ret rfl)))
  exact endsWithin_ifGoto rfl rfl (endsWithin_configure rfl hregs) (endsWithin_goto rfl rfl hregs)

theorem getTimeProgram_ends : EndsWithin getTimeProgram 0 4 7 :=
  endsWithin_rd rfl (by decide) (endsWithin_block rfl (endsWithin_ret rfl))

theorem setTimeProgram_ends (t : CalendarTime) : EndsWithin (setTimeProgram t) 0 4 7 :=
  endsWithin_block rfl (endsWithin_wr rfl (by decide) (endsWithin_ret rfl))

theorem setCountdownAlarmProgram_ends (n : Int) : EndsWithin (setCountdownAlarmProgram n) 0 4 7 :=
  endsWithin_rd rfl (by decide) (endsWithin_block rfl (endsWithin_ifGoto rfl rfl
    (endsWithin_wr rfl (by decide) (endsWithin_wr rfl (by decide) (endsWithin_wr rfl (by decide) (endsWithin_ret rfl))))
    (endsWithin_wr rfl (by decide) (endsWithin_wr rfl (by decide) (endsWithin_ret rfl)))))

theorem clearAlarmFlagProgram_ends : EndsWithin clearAlarmFlagProgram 0 4 7 :=
  endsWithin_rd rfl (by decide) (endsWithin_block rfl (endsWithin_wr rfl (by decide) (endsWithin_ret rfl)))

theorem disableAlarmProgram_ends : EndsWithin disableAlarmProgram 0 4 7 :=
  endsWithin_wr rfl (by decide) (endsWithin_wr rfl (by decide) (endsWithin_wr rfl (by decide) (endsWithin_ret rfl)))

/-- Every public operation's program goes forward only and has at most four transactions. -/
theorem expand_ends {c : HostCall} (hc : ∀ p, c ≠ .custom p) : EndsWithin (expand c) 0 4 7 := by
  cases c with
  | custom p => exact absurd rfl (hc p)
  | initializeRtc _ _ _ => exact initializeProgram_ends
  | getTime => exact getTimeProgram_ends
  | setTime t => exact setTimeProgram_ends t
  | setCountdownAlarm n => exact setCountdownAlarmProgram_ends n
  | clearAlarmFlag => exact clearAlarmFlagProgram_ends
  | disableAlarm => exact disableAlarmProgram_ends

/-- Settles O56: the first step rejects the call or starts its program, which ends within seven. -/
theorem hostCallsReturn : Obligations.HostCallsReturn := by
  rintro s c hc ⟨ha, hr⟩ hb ho
  refine returned_after_step (step_start ha hr) ?_
  cases hf : c.fits with
  | true =>
    exact expand_ends hc _ (Activity.start s.host.config.errPolicy c) (by simp [hf]) rfl rfl (by simp) (by simpa using hb)
      (by simpa using ho)
  | false => exact returned_now (r := .rejected) ⟨by simp [hf, ha], by simp, by simp [hf]⟩

end Sys2Proof.Machine
end

section
/-! The memory family, continued: a run of steps among the writes of other callers (spec/20_memory.md R54, R136). What is
followed is the device with all listed writes of others landed, of which a step changes only the registers its line
accesses. -/

namespace Sys2Proof.Machine

open Sys2Proof.Claims

/-! ### The device once all listed writes have landed -/

/-- The device as it will be once every listed write of another caller has landed. -/
def State.landed (s : State) : Device := s.device.takeCells s.others.flatten

theorem takeCells_append (d : Device) (cs cs' : List Host.Cell) :
    d.takeCells (cs ++ cs') = (d.takeCells cs).takeCells cs' := by
  induction cs generalizing d with
  | nil => rfl
  | cons c cs ih => exact ih (d.writeByte c.1 c.2)

@[simp] theorem landOthers_landed (s : State) : s.landOthers.landed = s.landed := by
  unfold State.landed
  rw [landOthers_device, landOthers_others, ← takeCells_append]
  cases s.others <;> rfl

theorem landed_of_none {s : State} (h : s.others = []) : s.landed = s.device := by
  simp [State.landed, h, Device.takeCells]

/-- The statement's transaction, if it makes one, reaches the register. -/
def Accesses (a : Nat) : Stmt → Prop
  | .rd reg n _ => reg ≤ a ∧ a < reg + n
  | .wr reg es => reg ≤ a ∧ a < reg + es.length
  | .assign _ _ | .ifGoto _ _ | .goto _ | .ret _ | .block _ _ | .configureAsInput => False

theorem accesses_one_rd {a reg x : Nat} : Accesses a (.rd reg 1 x) ↔ a = reg := by
  simp only [Accesses]; omega

theorem accesses_one_wr {a reg : Nat} {e : Expr} : Accesses a (.wr reg [e]) ↔ a = reg := by
  simp only [Accesses, List.length_singleton]; omega

section step
variable {s t : State} {act : Activity}

/-- A line of the host takes no write of another caller. -/
theorem runStmt_others {st : Stmt} (h : runStmt act st s = .next t) : t.others = s.others := by
  rcases runStmt_next h with ⟨reg, n, x, -, hr⟩ | ⟨reg, es, -, hw⟩ | ⟨x, e, -, rfl⟩ | ⟨c, l, -, -, rfl⟩ |
    ⟨l, k, -, -, rfl⟩ | ⟨e, -, rfl⟩ | ⟨m, args, i, -, -, rfl⟩ | ⟨m, args, -, -, rfl⟩ | ⟨-, rfl⟩
  · rcases runRead_next hr with ⟨-, rfl⟩ | ⟨-, -, rfl⟩ | ⟨-, -, rfl⟩ <;> rfl
  · rcases runWrite_next hw with ⟨-, rfl⟩ | ⟨-, -, rfl⟩ | ⟨-, -, rfl⟩ <;> rfl
  all_goals rfl

/-- A step takes one list of other callers' writes (log entry 15). -/
theorem step_others (h : step s = .next t) : t.others = s.others.tail := by
  rcases step_cases h with ⟨act, line, -, -, hs⟩ | ⟨c, rest, -, -, rfl⟩ | ⟨i, -, -, rfl⟩
  · rw [runStmt_others hs, landOthers_others]
  · simp
  · simp

/-- A step leaves a register its line does not access as the writes of other callers left it. -/
theorem lookup_device_of_step (h : step s = .next t) {a : Nat}
    (hn : ∀ act line, s.host.activity = some act → act.program[act.line]? = some line → ¬Accesses a line.stmt) :
    lookup t.device.regs a = lookup s.landOthers.device.regs a := by
  rcases oneTransactionPerStep s t h with ⟨-, hd⟩ | ⟨act, l, ok, ha, -, -, hrw⟩
  · rw [hd]
  · rcases hrw with ⟨reg, n, x, hl, -, hok, herr⟩ | ⟨reg, es, bytes, hl, rfl, -, hok, herr⟩
    · have hout : a < reg ∨ reg + n ≤ a := by have := hn act _ ha hl; simp only [Accesses] at this; omega
      cases ok with
      | true => rw [hok rfl, lookup_afterReads_outside _ _ _ _ hout]
      | false => rw [herr rfl]
    · have hout : a < reg ∨ reg + es.length ≤ a := by have := hn act _ ha hl; simp only [Accesses] at this; omega
      cases ok with
      | true => exact (hok rfl).2 a (by simpa using hout)
      | false => rw [herr rfl, if_neg (by simp only [List.length_map]; omega)]

theorem lookup_landed_of_step (h : step s = .next t) {a : Nat}
    (hn : ∀ act line, s.host.activity = some act → act.program[act.line]? = some line → ¬Accesses a line.stmt) :
    lookup t.landed.regs a = lookup s.landed.regs a := by
  rw [← landOthers_landed s]
  unfold State.landed
  rw [step_others h, landOthers_others]
  exact lookup_takeCells_congr _ a (lookup_device_of_step h hn)

end step

/-! ### Runs that access only some registers -/

/-- `k` steps lead from `s` to `t`, and the lines they run access no register but those of `W`. -/
structure Leads (W : List Nat) (k : Nat) (s t : State) : Prop where
  run : run k s = .next t
  others : t.others = s.others.drop k
  keeps : KeepsOtherRegisters s.landed t.landed W

section leads
variable {W : List Nat} {s t u : State} {act : Activity} {l : Option Nat} {j k : Nat}

theorem Leads.trans (h : Leads W j s t) (h' : Leads W k t u) : Leads W (j + k) s u where
  run := (run_add j k h.run).trans h'.run
  others := by rw [h'.others, h.others, List.drop_drop]
  keeps a ha := (h'.keeps a ha).trans (h.keeps a ha)

theorem Leads.mono {W' : List Nat} (h : Leads W k s t) (hW : W ⊆ W') : Leads W' k s t :=
  { h with keeps := fun a ha => h.keeps a fun hm => ha (hW hm) }

theorem leads_of_step (h : step s = .next t)
    (hW : ∀ act line, s.host.activity = some act → act.program[act.line]? = some line →
      ∀ a, Accesses a line.stmt → a ∈ W) : Leads W 1 s t where
  run := run_succ h
  others := by rw [step_others h, List.drop_one]
  keeps a ha := lookup_landed_of_step h fun act line hact hl hacc => ha (hW act line hact hl a hacc)

/-- The start of a call accesses no register. -/
theorem leads_start {c : HostCall} {rest : List HostCall} (h : s.host.activity = none)
    (hr : s.host.requests = c :: rest) : Leads W 1 s (s.landOthers.startCall c rest) :=
  leads_of_step (step_start h hr) fun act line ha => by simp [h] at ha

/-- A line of the host accesses what its statement does. -/
theorem leads_line {line : Line} (h : s.host.activity = some act) (hl : act.program[act.line]? = some line)
    (hs : step s = .next t) (hW : ∀ a, Accesses a line.stmt → a ∈ W) : Leads W 1 s t :=
  leads_of_step hs fun act' line' ha' hl' => by
    obtain rfl := Option.some.inj (h.symm.trans ha')
    obtain rfl := Option.some.inj (hl.symm.trans hl')
    exact hW

/-- Once all listed writes have landed, the other registers are as those writes left them. -/
theorem Leads.keeps_device (h : Leads W k s t) (hk : s.others.length ≤ k) :
    KeepsOtherRegisters s.landed t.device W := by
  rw [← landed_of_none (h.others.trans (List.drop_eq_nil_of_le hk))]
  exact h.keeps

/-- Once all listed writes have landed, a register that the later lines do not access stays known. -/
theorem Leads.lookup_stays (h : Leads W j s t) (hj : s.others.length ≤ j) {W' : List Nat} (h' : Leads W' k t u) {a : Nat}
    {b : Byte} (ha : a ∉ W') (hb : lookup t.device.regs a = some b) : lookup u.device.regs a = some b := by
  have ho : t.others = [] := h.others.trans (List.drop_eq_nil_of_le hj)
  rw [h'.keeps_device (by simp [ho]) a ha, landed_of_none ho, hb]

end leads

/-! ### The lines of a running call -/

/-- The host runs `act`, no call waits, and the coming transactions have these outcomes. -/
structure State.Serves (s : State) (act : Activity) (bus : List BusOutcome) : Prop where
  activity : s.host.activity = some act
  requests : s.host.requests = []
  bus : s.bus = bus

section serves
variable {W : List Nat} {s : State} {act : Activity} {bus : List BusOutcome} {l : Option Nat}

theorem State.Serves.block (h : s.Serves act bus) {m : Mnemonic} {args : List (InPort × Expr)} {i : Instr}
    (hl : act.program[act.line]? = some ⟨l, .block m args⟩)
    (ha : m.assemble (args.map fun a => (a.1, evalExpr s.outputs act.vars a.2)) = some i) :
    ∃ t, Leads W 1 s t ∧ t.Serves act.onward bus ∧ t.outputs = outputsOf i (Outputs.draw s.draws) :=
  ⟨(s.landOthers.resume act.onward).evaluated i (outputsOf i),
    leads_line h.activity hl (by rw [step_at h.activity hl]; simp [runStmt, runBlock, ha, exec_eq_evaluated])
      fun _ ha => ha.elim,
    ⟨rfl, by simpa using h.requests, by simpa using h.bus⟩, by simp⟩

theorem State.Serves.ifTaken (h : s.Serves act bus) {c : Cond} {g k : Nat}
    (hl : act.program[act.line]? = some ⟨l, .ifGoto c g⟩)
    (hc : holds s.outputs act.vars s.host.config.intPin c = true) (hk : Program.find act.program g = some k) :
    ∃ t, Leads W 1 s t ∧ t.Serves { act with line := k } bus ∧ t.outputs = s.outputs :=
  ⟨s.landOthers.resume { act with line := k },
    leads_line h.activity hl
      ((step_at h.activity hl).trans ((runStmt_ifGoto_of_holds (by simpa using hc)).trans (jump_of_find hk)))
      fun _ ha => ha.elim,
    ⟨rfl, by simpa using h.requests, by simpa using h.bus⟩, by simp⟩

theorem State.Serves.ifNotTaken (h : s.Serves act bus) {c : Cond} {g : Nat}
    (hl : act.program[act.line]? = some ⟨l, .ifGoto c g⟩)
    (hc : holds s.outputs act.vars s.host.config.intPin c = false) :
    ∃ t, Leads W 1 s t ∧ t.Serves act.onward bus ∧ t.outputs = s.outputs :=
  ⟨s.landOthers.resume act.onward,
    leads_line h.activity hl ((step_at h.activity hl).trans (runStmt_ifGoto_of_not_holds (by simpa using hc)))
      fun _ ha => ha.elim,
    ⟨rfl, by simpa using h.requests, by simpa using h.bus⟩, by simp⟩

/-- A write of one byte that succeeds makes its register known as that byte. -/
theorem State.Serves.writeByte (h : s.Serves act (.ok :: bus)) {reg : Nat} {e : Expr}
    (hl : act.program[act.line]? = some ⟨l, .wr reg [e]⟩) (hh : Holds reg) (hW : reg ∈ W) :
    ∃ t, Leads W 1 s t ∧ t.Serves act.onward bus ∧ t.outputs = s.outputs ∧
      lookup t.device.regs reg = some (BitVec.ofInt 8 (evalExpr s.outputs act.vars e)) := by
  have hs := step_wr_lands h.activity hl (show reg + 1 ≤ 16 from hh) (nextOutcome_cons h.bus)
  exact ⟨_, leads_line h.activity hl hs fun a ha => accesses_one_wr.1 ha ▸ hW,
    ⟨rfl, by simpa using h.requests, by simp [h.bus]⟩, by simp, by simp [Device.writeBytes, lookup_writeByte, hh]⟩

theorem State.Serves.ret (h : s.Serves act bus) {e : RetExpr} (hl : act.program[act.line]? = some ⟨l, .ret e⟩) :
    ∃ t, Leads W 1 s t ∧ t.Returned (retResult s.outputs act.vars e) :=
  ⟨s.landOthers.finish act (retResult s.landOthers.outputs act.vars e),
    leads_line h.activity hl (step_at h.activity hl) fun _ ha => ha.elim, rfl, by simpa using h.requests, by simp⟩

/-- A read of register 0x01 on a quiet device that knows it (R53). -/
theorem readBytes_of_control2 {d : Device} {r : Byte} (hq : d.quiet = true) (hr : d.known .control2 = some r) (draw : Nat) :
    d.readBytes draw 1 1 = [r] :=
  congrArg (· :: []) (readByte_of_known hq hr draw)

/-- A call that begins with the read of register 0x01 sees its content on a quiet device, if no other caller's write comes
before that read. -/
theorem serves_after_control2_read {c : HostCall} {r : Byte} {others : List (List Host.Cell)} (hq : s.device.quiet = true)
    (hr : s.device.known .control2 = some r) (ho : s.others = [] :: [] :: others) (hs : s.Ready c)
    (hf : c.fits = true) (hb : s.bus = .ok :: bus) (hl : (expand c)[0]? = some (plain (.rd 0x01 1 0))) (hW : 1 ∈ W) :
    ∃ t, Leads W 2 s t ∧
      t.Serves ((Activity.start s.host.config.errPolicy c).assign 0 (bytesNumber [r])) bus := by
  obtain ⟨ha, hreq⟩ := hs
  have hdev : (s.landOthers.startCall c []).landOthers.device = s.device := by
    simp [landOthers_device, ho, Device.takeCells]
  have hread : s.device.readBytes (s.landOthers.startCall c []).draws 1 1 = [r] :=
    readBytes_of_control2 hq hr _
  have hact : (s.landOthers.startCall c []).host.activity = some (Activity.start s.host.config.errPolicy c) := by
    simp [hf]
  have hrd := step_rd_lands hact hl (by decide) (nextOutcome_cons (by simpa using hb))
  rw [hdev, hread] at hrd
  exact ⟨_, (leads_start ha hreq).trans (leads_line hact hl hrd fun a ha => accesses_one_rd.1 ha ▸ hW), rfl, by simp,
    by simp [hb]⟩

end serves

/-! ### What CD_SELECT gives the host -/

section select
variable {n : Int} (r : Byte) (o : Outputs)

theorem cdSelectOut_arm (hf : InPort.secsI.Fits n) (hn : 0 ≤ n) :
    cdSelectOut (BitVec.ofInt 32 n) r o = cdArmOut n r o := by
  rw [cdSelectOut, toInt_ofInt_delay n hf, if_neg (Int.not_lt.2 hn)]

theorem cdSelectOut_disable (hf : InPort.secsI.Fits n) (hn : n < 0) :
    cdSelectOut (BitVec.ofInt 32 n) r o = cdDisableOut r o := by
  rw [cdSelectOut, toInt_ofInt_delay n hf, if_pos hn]

/-- The byte for register 0x01 on the arm path: flags and bit 7 cleared, the enable bit set (R89, R93). -/
theorem cdArmOut_ctrl2O : (cdArmOut n r o).ctrl2O = (r &&& 0x73) ||| 0x01 := by
  have h : ∀ b : Byte, (b &&& 0xF3 ||| 0x01) &&& 0x7F = (b &&& 0x73) ||| 0x01 := by decide
  exact h r

/-- The byte for register 0x01 on the disable path: flags and the enable bit cleared (R89, R90). -/
theorem cdDisableOut_ctrl2O : (cdDisableOut r o).ctrl2O = r &&& 0xF2 := by
  simp [cdDisableOut, cdBase, BitVec.and_assoc]

theorem number_appliedO_cdArmOut (hn : 0 ≤ n) : (cdArmOut n r o).number .appliedO = applied n := by
  have hrange := cdApplied_range hn
  have happlied : cdTicks n * cdUnit n = applied n := by
    by_cases hlt : n < 270 <;> simp [cdTicks, cdUnit, cdThreshold, cdMaxTicks, applied, ticks, hlt, mul_comm]
  rw [← happlied]
  exact toInt_ofInt_delay _ (by omega)

end select

/-! ### The calls that write back what they read -/

/-- The writes of another caller that come `k` steps after the read are all there is to land. -/
theorem landed_of_one_list {s : State} {cells : List Host.Cell} {k : Nat}
    (ho : s.others = [] :: [] :: (List.replicate k [] ++ [cells])) :
    s.landed = s.device.takeCells cells := by
  simp [State.landed, ho]

section writeBack
variable {s : State} {r : Byte} {cells : List Host.Cell} {k : Nat} {rest : List BusOutcome}
  (hq : s.device.quiet = true) (hr : s.device.known .control2 = some r)
  (ho : s.others = [] :: [] :: (List.replicate k [] ++ [cells]))
include hq hr ho

/-- `clearAlarmFlag` (R108): read, CTRL2_ACK, the write of register 0x01. -/
theorem clearAlarmFlag_writes_stale_read (hs : s.Ready .clearAlarmFlag) (hk : k ≤ 1) (hb : s.bus = .ok :: .ok :: rest) :
    ∃ t, run 5 s = .next t ∧ t.Returned .success ∧ t.device.known .control2 = some (r &&& 0xF3) ∧
      KeepsOtherRegisters (s.device.takeCells cells) t.device [0x01] := by
  obtain ⟨t2, l2, h2⟩ := serves_after_control2_read (W := [1]) hq hr ho hs rfl hb rfl (by decide)
  obtain ⟨t3, l3, h3, o3⟩ := h2.block (W := [1]) rfl (assemble_ctrl2Ack r)
  obtain ⟨t4, l4, h4, o4, w4⟩ := h3.writeByte (W := [1]) rfl (by decide) (by decide)
  obtain ⟨t5, l5, h5⟩ := h4.ret (W := []) rfl
  have hwrite := l2.trans (l3.trans l4)
  have hall := hwrite.trans (l5.mono (List.nil_subset [1]))
  have hlen : s.others.length ≤ 4 := by simp [ho]; omega
  refine ⟨t5, hall.run, h5, ?_, ?_⟩
  · rw [o3] at w4
    exact (hwrite.lookup_stays hlen l5 (by decide) w4).trans (congrArg some (ofInt_toNat _))
  · rw [← landed_of_one_list ho]
    exact hall.keeps_device (Nat.le_succ_of_le hlen)

/-- `setCountdownAlarm` for a request that is not negative (R107): register 0x01 is written last. -/
theorem setCountdownAlarm_arms_from_stale_read {n : Int} (hf : InPort.secsI.Fits n) (hn : 0 ≤ n)
    (hs : s.Ready (.setCountdownAlarm n)) (hk : k ≤ 4) (hb : s.bus = .ok :: .ok :: .ok :: .ok :: rest) :
    ∃ t, run 8 s = .next t ∧ t.Returned (.value (applied n)) ∧
      t.device.known .control2 = some ((r &&& 0x73) ||| 0x01) ∧
      KeepsOtherRegisters (s.device.takeCells cells) t.device [0x01, 0x0E, 0x0F] := by
  obtain ⟨t2, l2, h2⟩ := serves_after_control2_read (W := [0x01, 0x0E, 0x0F]) hq hr ho hs (decide_eq_true hf) hb rfl
    (by decide)
  obtain ⟨t3, l3, h3, o3⟩ := h2.block (W := [0x01, 0x0E, 0x0F]) rfl (assemble_cdSelect n r hf)
  replace o3 := o3.trans (cdSelectOut_arm r _ hf hn)
  obtain ⟨t4, l4, h4, o4⟩ := h3.ifTaken (W := [0x01, 0x0E, 0x0F]) rfl (by rw [o3]; rfl) rfl
  obtain ⟨t5, l5, h5, o5, -⟩ := h4.writeByte (W := [0x01, 0x0E, 0x0F]) rfl (by decide) (by decide)
  obtain ⟨t6, l6, h6, o6, -⟩ := h5.writeByte (W := [0x01, 0x0E, 0x0F]) rfl (by decide) (by decide)
  obtain ⟨t7, l7, h7, o7, w7⟩ := h6.writeByte (W := [0x01, 0x0E, 0x0F]) rfl (by decide) (by decide)
  obtain ⟨t8, l8, h8⟩ := h7.ret (W := []) rfl
  have ho6 := o6.trans (o5.trans (o4.trans o3))
  have hwrites := l2.trans (l3.trans (l4.trans (l5.trans (l6.trans l7))))
  have hall := hwrites.trans (l8.mono (List.nil_subset _))
  have hlen : s.others.length ≤ 7 := by simp [ho]; omega
  refine ⟨t8, hall.run, ?_, ?_, ?_⟩
  · rw [o7, ho6] at h8
    rwa [← number_appliedO_cdArmOut r _ hn]
  · rw [ho6] at w7
    rw [← cdArmOut_ctrl2O r]
    exact (hwrites.lookup_stays hlen l8 (by decide) w7).trans (congrArg some (ofInt_toNat _))
  · rw [← landed_of_one_list ho]
    exact hall.keeps_device (Nat.le_succ_of_le hlen)

/-- `setCountdownAlarm` for a negative request (R107): register 0x01 is written before 0x0E. -/
theorem setCountdownAlarm_disables_from_stale_read {n : Int} (hf : InPort.secsI.Fits n) (hn : n < 0)
    (hs : s.Ready (.setCountdownAlarm n)) (hk : k ≤ 2) (hb : s.bus = .ok :: .ok :: .ok :: rest) :
    ∃ t, run 7 s = .next t ∧ t.Returned (.value (-1)) ∧ t.device.known .control2 = some (r &&& 0xF2) ∧
      KeepsOtherRegisters (s.device.takeCells cells) t.device [0x01, 0x0E] := by
  obtain ⟨t2, l2, h2⟩ := serves_after_control2_read (W := [0x01, 0x0E]) hq hr ho hs (decide_eq_true hf) hb rfl
    (by decide)
  obtain ⟨t3, l3, h3, o3⟩ := h2.block (W := [0x01, 0x0E]) rfl (assemble_cdSelect n r hf)
  replace o3 := o3.trans (cdSelectOut_disable r _ hf hn)
  obtain ⟨t4, l4, h4, o4⟩ := h3.ifNotTaken (W := [0x01, 0x0E]) rfl (by rw [o3]; rfl)
  obtain ⟨t5, l5, h5, o5, w5⟩ := h4.writeByte (W := [0x01, 0x0E]) rfl (by decide) (by decide)
  obtain ⟨t6, l6, h6, o6, -⟩ := h5.writeByte (W := [0x0E]) rfl (by decide) (by decide)
  obtain ⟨t7, l7, h7⟩ := h6.ret (W := [0x0E]) rfl
  have ho4 := o4.trans o3
  have hwrite := l2.trans (l3.trans (l4.trans l5))
  have hlater := l6.trans l7
  have hall := hwrite.trans (hlater.mono (by decide))
  have hlen : s.others.length ≤ 5 := by simp [ho]; omega
  refine ⟨t7, hall.run, ?_, ?_, ?_⟩
  · rwa [o6, o5, ho4] at h7
  · rw [ho4] at w5
    rw [← cdDisableOut_ctrl2O r]
    exact (hwrite.lookup_stays hlen hlater (by decide) w5).trans (congrArg some (ofInt_toNat _))
  · rw [← landed_of_one_list ho]
    exact hall.keeps_device (by omega)

end writeBack

/-- Settles O54: each path writes register 0x01 from what it read, once the other caller's writes have landed, and no line
after that accesses it. -/
theorem staleReadIsWrittenBack : Obligations.StaleReadIsWrittenBack := by
  intro s r cells k rest hq hr ho
  refine ⟨fun hs hk hb => clearAlarmFlag_writes_stale_read hq hr ho hs hk hb, fun n hf hs hb => ⟨fun hn hk => ?_,
    fun hn hk => ?_⟩⟩
  · exact setCountdownAlarm_arms_from_stale_read hq hr ho hf hn hs hk hb
  · exact setCountdownAlarm_disables_from_stale_read hq hr ho hf hn hs hk hb

end Sys2Proof.Machine
end

section
/-! The encoding family of statements: operations as they are written, presented and decoded (spec/30_encoding.md R62 to
R69), what stops a system, and the values of the host's expressions (R70). -/

namespace Sys2Proof.Machine

open Sys2Proof.Claims

/-! ### The codes of `op` -/

/-- Every code of `op` is an operation's, or one of the two reserved ones (R63, R66). -/
theorem op_cases (op : OpCode) : (∃ m : Mnemonic, op = m.code) ∨ 6 ≤ op.toNat := by
  have h : ∀ op : OpCode,
      op ∈ [Mnemonic.bcdDec, .bcdEnc, .tbUnpack, .tbPack, .cdSelect, .ctrl2Ack].map Mnemonic.code ∨ 6 ≤ op.toNat := by
    decide
  refine (h op).imp_left fun hm => ?_
  obtain ⟨m, -, hm⟩ := List.mem_map.1 hm
  exact ⟨m, hm.symm⟩

@[simp] theorem decodeOp_code (m : Mnemonic) : decodeOp m.code = .ok m := by cases m <;> rfl

theorem decodeOp_of_reserved {op : OpCode} (h : 6 ≤ op.toNat) : decodeOp op = .error (.reserved op) := by
  revert op
  decide

section ports
variable {p q : Inputs}

/-- A code of an operation presents it, with the operands of its ports (R63, R64). -/
theorem decode_of_code {m : Mnemonic} (h : p.op = m.code) : decode p = .ok (m.readFrom p) := by
  simp [decode, h]

theorem decode_of_reserved (h : 6 ≤ p.op.toNat) : decode p = .error (.reserved p.op) := by
  simp [decode, decodeOp_of_reserved h]

/-- Presenting an operation over the ports it was read from changes no port. -/
theorem presentOn_readFrom {m : Mnemonic} (h : p.op = m.code) : (m.readFrom p).presentOn p = p := by
  obtain ⟨op, a, img, sec, mins, hour, mday, wday, mon, year, secs⟩ := p
  obtain rfl : op = m.code := h
  cases m <;> rfl

/-- An operation depends on the ports it reads and on no other (R64). -/
theorem readFrom_congr {m : Mnemonic} (h : ∀ port ∈ m.reads, inputNumber p port = inputNumber q port) :
    m.readFrom p = m.readFrom q := by
  cases m <;>
    simpa [Mnemonic.reads, Mnemonic.readFrom, inputNumber, BitVec.toNat_inj, BitVec.toInt_inj] using h

end ports

/-- Settles O2: each row of the table, and the two codes that have none. -/
theorem opCodeSelectsOperation : Obligations.OpCodeSelectsOperation := by
  intro p
  refine ⟨decode_of_code (m := .bcdDec), decode_of_code (m := .bcdEnc), decode_of_code (m := .tbUnpack),
    decode_of_code (m := .tbPack), decode_of_code (m := .cdSelect), decode_of_code (m := .ctrl2Ack), ?six, ?seven⟩
  case six => intro h; rw [← h]; exact decode_of_reserved (by rw [h]; decide)
  case seven => intro h; rw [← h]; exact decode_of_reserved (by rw [h]; decide)

/-- Settles O3: the words and the port values are numbers, and the decoder computes on them. -/
theorem writtenWordsDecode : Obligations.WrittenWordsDecode := by
  unfold Obligations.WrittenWordsDecode
  decide

/-- Settles O7: a code of an operation presents what its ports hold, and the reserved codes present nothing. -/
theorem decodedOperationPresentsItself : Obligations.DecodedOperationPresentsItself := by
  intro p
  rcases op_cases p.op with ⟨m, hm⟩ | hr
  · rw [decode_of_code hm]
    refine ⟨?presents, ?reserved⟩
    case presents =>
      rintro i h
      cases h
      exact presentOn_readFrom hm
    case reserved =>
      have : m.code.toNat < 6 := by cases m <;> decide
      simp [hm, this]
  · simp [decode_of_reserved hr, hr]

/-! ### Ports as numbers, driven and read -/

section drive
variable {v : Int}

/-- A port carries numbers that fit it (R65). -/
theorem inputNumber_fits (p : Inputs) (port : InPort) : port.Fits (inputNumber p port) := by
  cases port <;> simp only [InPort.Fits, InPort.range, inputNumber]
  case monI => exact ⟨p.monI.le_toInt, p.monI.toInt_lt⟩
  case secsI => exact ⟨p.secsI.le_toInt, p.secsI.toInt_lt⟩
  all_goals omega

/-- A port driven with a number that fits it carries that number (R65). -/
theorem inputNumber_drive_same (p : Inputs) {port : InPort} (h : port.Fits v) :
    inputNumber (p.drive port v) port = v := by
  cases port <;> simp only [InPort.Fits, InPort.range] at h
  case monI => exact toInt_ofInt_byte v h
  case secsI => exact toInt_ofInt_delay v h
  case yearI => exact toNat_ofInt_year v h
  case imgI => simp [inputNumber, Inputs.drive]; omega
  all_goals exact toNat_ofInt_byte v h

/-- Driving a port leaves every other port's number as it is. -/
theorem inputNumber_drive_of_ne (p : Inputs) {port other : InPort} (h : other ≠ port) (v : Int) :
    inputNumber (p.drive port v) other = inputNumber p other := by
  revert h
  cases port <;> cases other <;> simp [inputNumber, Inputs.drive]

theorem inputNumber_driveAll_of_notMem (os : List (InPort × Int)) {port : InPort} (h : port ∉ os.map Prod.fst)
    (p : Inputs) : inputNumber (p.driveAll os) port = inputNumber p port := by
  induction os generalizing p with
  | nil => rfl
  | cons o os ih =>
    rw [List.map_cons, List.mem_cons, not_or] at h
    exact (ih h.2 _).trans (inputNumber_drive_of_ne p h.1 _)

/-- Driven once each with a number that fits, every port of a list carries its number. -/
theorem inputNumber_driveAll {os : List (InPort × Int)} (hd : (os.map Prod.fst).Nodup) {o : InPort × Int} (ho : o ∈ os)
    (hf : o.1.Fits o.2) (p : Inputs) : inputNumber (p.driveAll os) o.1 = o.2 := by
  induction os generalizing p with
  | nil => cases ho
  | cons o' os ih =>
    rw [List.map_cons, List.nodup_cons] at hd
    rcases List.mem_cons.1 ho with rfl | ho
    · exact (inputNumber_driveAll_of_notMem os hd.1 _).trans (inputNumber_drive_same p hf)
    · exact ih hd.2 ho _

end drive

/-! ### Operations as they are written -/

/-- How the number on a port is written: an image as its bytes, every other number as itself (R69). -/
def portValue : InPort → Int → Value
  | .imgI, v => .image ((List.range 7).map fun k => v / 256 ^ k % 256)
  | .a, v | .secI, v | .minI, v | .hourI, v | .mdayI, v | .wdayI, v | .monI, v | .yearI, v | .secsI, v => .num v

/-- An operation is written as the numbers on the ports it reads, in the order of R64. -/
theorem written_readFrom (m : Mnemonic) (p : Inputs) :
    (m.readFrom p).written = ⟨m, m.reads.map fun port => (port, portValue port (inputNumber p port))⟩ := by
  cases m
  case tbUnpack =>
    have : imageByteNumber p.imgI = fun k => (p.imgI.toNat : Int) / 256 ^ k % 256 := by
      funext k
      rw [imageByteNumber_eq]
      norm_cast
    simp only [Mnemonic.readFrom, Instr.written, this]
    rfl
  all_goals rfl

/-- The bytes of an image, written, make its number. -/
theorem imageNumber_bytes {v : Int} (h : InPort.imgI.Fits v) :
    imageNumber ((List.range 7).map fun k => v / 256 ^ k % 256) = v := by
  simp only [InPort.Fits, InPort.range] at h
  simp only [List.range, List.range.loop, List.map, imageNumber]
  omega

theorem number_portValue {port : InPort} {v : Int} (h : port.Fits v) : (portValue port v).number = v := by
  cases port
  case imgI => exact imageNumber_bytes h
  all_goals rfl

theorem fits_num {port : InPort} {v : Int} : (Value.num v).fits port = true ↔ port ≠ .imgI ∧ port.Fits v := by
  simp [Value.fits]

theorem fits_image {port : InPort} {bs : List Int} :
    (Value.image bs).fits port = true ↔ port = .imgI ∧ bs.length = 7 ∧ ∀ b ∈ bs, 0 ≤ b ∧ b < 256 := by
  simp [Value.fits, and_assoc]

theorem fits_portValue {port : InPort} {v : Int} (h : port.Fits v) : (portValue port v).fits port = true := by
  cases port
  case imgI =>
    refine fits_image.2 ⟨rfl, rfl, fun b hb => ?_⟩
    obtain ⟨k, -, rfl⟩ := List.mem_map.1 hb
    omega
  all_goals exact fits_num.2 ⟨by decide, h⟩

/-- The number of a written value that has the port's form fits the port. -/
theorem number_fits {port : InPort} {v : Value} (h : v.fits port = true) : port.Fits v.number := by
  cases v with
  | num v => exact (fits_num.1 h).2
  | image bs =>
    obtain ⟨rfl, hlen, hbytes⟩ := fits_image.1 h
    have := imageNumber_range bs hbytes
    rw [hlen] at this
    exact this

/-- The bytes of an image's number are the bytes it was written with. -/
theorem bytes_imageNumber {bs : List Int} (h : ∀ b ∈ bs, 0 ≤ b ∧ b < 256) :
    ((List.range bs.length).map fun k => imageNumber bs / 256 ^ k % 256) = bs := by
  induction bs with
  | nil => rfl
  | cons b bs ih =>
    obtain ⟨hb, hbs⟩ := List.forall_mem_cons.1 h
    have hlow : (b + 256 * imageNumber bs) % 256 = b := by omega
    have hhigh (k : Nat) : (b + 256 * imageNumber bs) / 256 ^ (k + 1) = imageNumber bs / 256 ^ k := by
      rw [pow_succ', ← Int.ediv_ediv_of_nonneg (by decide)]
      congr 1
      omega
    simp [List.range_succ_eq_map, imageNumber, hlow, hhigh, ih hbs, Function.comp_def]

/-- A written value that has the port's form is how its number is written. -/
theorem portValue_number {port : InPort} {v : Value} (h : v.fits port = true) : portValue port v.number = v := by
  cases v with
  | num v =>
    obtain ⟨hp, -⟩ := fits_num.1 h
    cases port
    case imgI => exact absurd rfl hp
    all_goals rfl
  | image bs =>
    obtain ⟨rfl, hlen, hbytes⟩ := fits_image.1 h
    have := bytes_imageNumber hbytes
    rw [hlen] at this
    exact congrArg Value.image this

/-- Operand numbers on the ports of R64 that fit them assemble to the operation those ports then hold. -/
theorem assemble_of_fits {m : Mnemonic} {os : List (InPort × Int)} (hp : os.map Prod.fst = m.reads)
    (hf : ∀ o ∈ os, o.1.Fits o.2) : m.assemble os = some (m.readFrom (Inputs.zero.driveAll os)) :=
  if_pos ⟨hp, hf⟩

theorem wf_iff {w : Written} :
    w.wf = true ↔ w.operands.map Prod.fst = w.mnemonic.reads ∧ ∀ o ∈ w.operands, o.2.fits o.1 = true := by
  simp [Written.wf]

theorem reads_nodup (m : Mnemonic) : m.reads.Nodup := by cases m <;> decide

/-- The operands of a written operation as numbers. -/
def writtenNumbers (w : Written) : List (InPort × Int) := w.operands.map fun o => (o.1, o.2.number)

theorem writtenNumbers_ports {w : Written} (h : w.wf = true) : (writtenNumbers w).map Prod.fst = w.mnemonic.reads := by
  rw [writtenNumbers, List.map_map]
  exact (wf_iff.1 h).1

/-- A well-formed written operation is the operation that the ports hold once its numbers drive them. -/
theorem toInstr_of_wf {w : Written} (h : w.wf = true) :
    w.toInstr = some (w.mnemonic.readFrom (Inputs.zero.driveAll (writtenNumbers w))) := by
  rw [Written.toInstr, if_pos h]
  refine assemble_of_fits (writtenNumbers_ports h) fun o ho => ?_
  obtain ⟨o', ho', rfl⟩ := List.mem_map.1 ho
  exact number_fits ((wf_iff.1 h).2 o' ho')

/-- Driven with its numbers, each port of a well-formed written operation carries the number written for it. -/
theorem inputNumber_driveAll_numbers {w : Written} (h : w.wf = true) {o : InPort × Value} (ho : o ∈ w.operands)
    (p : Inputs) : inputNumber (p.driveAll (writtenNumbers w)) o.1 = o.2.number := by
  have hnodup : ((writtenNumbers w).map Prod.fst).Nodup := writtenNumbers_ports h ▸ reads_nodup w.mnemonic
  have hfits : o.1.Fits o.2.number := number_fits ((wf_iff.1 h).2 o ho)
  exact inputNumber_driveAll (o := (o.1, o.2.number)) hnodup (List.mem_map.2 ⟨o, ho, rfl⟩) hfits p

/-- The operation of a well-formed written operation is written so. -/
theorem written_of_wf {w : Written} (h : w.wf = true) (p : Inputs) :
    (w.mnemonic.readFrom (p.driveAll (writtenNumbers w))).written = w := by
  obtain ⟨hports, hfits⟩ := wf_iff.1 h
  have hvalues : ∀ o ∈ w.operands,
      (o.1, portValue o.1 (inputNumber (p.driveAll (writtenNumbers w)) o.1)) = o := fun o ho => by
    rw [inputNumber_driveAll_numbers h ho, portValue_number (hfits o ho)]
  rw [written_readFrom, ← hports, List.map_map]
  exact congrArg (Written.mk w.mnemonic) ((List.map_congr_left hvalues).trans (List.map_id _))

/-- An operation is written as the numbers on its encoded ports. -/
theorem written_eq (i : Instr) : i.written =
    ⟨i.mnemonic, i.mnemonic.reads.map fun port => (port, portValue port (inputNumber (encode i) port))⟩ := by
  rw [← written_readFrom, encode, mnemonic_readFrom_presentOn]

theorem written_wf (i : Instr) : i.written.wf = true := by
  rw [written_eq, wf_iff]
  simp only [List.map_map, List.forall_mem_map]
  exact ⟨List.map_id _, fun port _ => fits_portValue (inputNumber_fits _ port)⟩

/-- An operation's written form assembles to it: its numbers put the operands back on the ports they were read from. -/
theorem toInstr_written (i : Instr) : i.written.toInstr = some i := by
  have hports : ∀ port ∈ i.mnemonic.reads,
      inputNumber (Inputs.zero.driveAll (writtenNumbers i.written)) port = inputNumber (encode i) port := by
    intro port hport
    have ho : (port, portValue port (inputNumber (encode i) port)) ∈ i.written.operands := by
      rw [written_eq]
      exact List.mem_map_of_mem hport
    exact (inputNumber_driveAll_numbers (written_wf i) ho _).trans (number_portValue (inputNumber_fits _ port))
  have hm : i.written.mnemonic = i.mnemonic := by rw [written_eq]
  rw [toInstr_of_wf (written_wf i), hm, readFrom_congr hports, encode, mnemonic_readFrom_presentOn]

/-- Settles O6: the numbers written for the ports of R64 and the numbers those ports carry are the same, both ways. -/
theorem writtenOperationsRoundTrip : Obligations.WrittenOperationsRoundTrip :=
  ⟨fun _ hw => ⟨_, toInstr_of_wf hw, written_of_wf hw Inputs.zero, decode_presentOn _⟩,
    fun i => ⟨written_wf i, toInstr_written i⟩⟩

/-! ### What the block reads and writes -/

/-- What the ports decode to depends on `op` and on the ports its operation reads (R62, R64). -/
theorem decode_congr {p q : Inputs} (hop : p.op = q.op)
    (h : ∀ m, decodeOp p.op = .ok m → ∀ port ∈ m.reads, inputNumber p port = inputNumber q port) :
    decode p = decode q := by
  rcases op_cases p.op with ⟨m, hm⟩ | hr
  · have hread := readFrom_congr (h m (by rw [hm, decodeOp_code]))
    rw [decode_of_code hm, decode_of_code (hop ▸ hm), hread]
  · rw [decode_of_reserved hr, decode_of_reserved (hop ▸ hr), hop]

section outputs
variable (o : Outputs) {port : OutPort}

/-- A data output an operation does not write keeps its number (R21). -/
theorem number_outputsOf_of_notMem (i : Instr) (hoor : port ≠ .oor) (hill : port ≠ .ill)
    (h : port ∉ dataWrites i.mnemonic) : (outputsOf i o).number port = o.number port := by
  revert hoor hill h
  cases i with
  | bcdDec _ | bcdEnc _ | tbUnpack _ | tbPack _ _ _ _ _ _ _ | ctrl2Ack _ =>
    cases port <;> simp [Instr.mnemonic, dataWrites, Outputs.number, outputsOf, bcdDecOut, bcdEncOut, tbUnpackOut,
      tbPackOut, ctrl2AckOut, Outputs.clearStatus, Outputs.withOor]
  | cdSelect secs a =>
    simp only [outputsOf, cdSelectOut]
    split <;> cases port <;>
      simp [Instr.mnemonic, dataWrites, Outputs.number, cdDisableOut, cdArmOut, Outputs.clearStatus]

/-- IllegalOp leaves every data output as it was drawn (R66). -/
theorem number_raiseIllegalOp (hoor : port ≠ .oor) (hill : port ≠ .ill) :
    o.raiseIllegalOp.number port = o.number port := by
  cases port
  case oor => exact absurd rfl hoor
  case ill => exact absurd rfl hill
  all_goals rfl

end outputs

theorem blockOutputs_of_error {p : Inputs} {e : DecodeError} (h : decode p = .error e) (draw : Nat) :
    blockOutputs p draw = (Outputs.draw draw).raiseIllegalOp := by
  simp [blockOutputs, h]

/-- Settles O28: the block sees of its ports what they decode to, and an operation writes its own outputs over the draw. -/
theorem portsReadAndWritten : Obligations.PortsReadAndWritten := by
  refine ⟨?reads, ?writes, ?reserved⟩
  case reads =>
    intro p q draw hop h
    rw [blockOutputs, blockOutputs, decode_congr hop h]
  case writes =>
    intro i s port hoor hill h
    exact ⟨_, exec_eq_evaluated i s, number_outputsOf_of_notMem _ i hoor hill h⟩
  case reserved =>
    intro p draw e h
    rw [blockOutputs_of_error h]
    exact ⟨rfl, rfl, fun port hoor hill => number_raiseIllegalOp _ hoor hill⟩

/-! ### What stops a system -/

/-- An idle host with a reserved code on the ports faults (R66). -/
theorem step_of_idle_reserved {s : State} (hs : s.Idle) (h : 6 ≤ s.inputs.op.toNat) :
    step s = .fault (.illegalOp s.inputs.op (blockOutputs s.inputs s.draws)) := by
  rw [step_of_idle hs, runPorts]
  simp [decode_of_reserved h]

/-- Settles O5: the fault shows the block's outputs for ports that decode to nothing. -/
theorem reservedCodeFaults : Obligations.ReservedCodeFaults := by
  intro s hs hop
  have hr : 6 ≤ s.inputs.op.toNat := by rcases hop with h | h <;> rw [h] <;> decide
  refine ⟨_, step_of_idle_reserved hs hr, ?_⟩
  rw [blockOutputs_of_error (decode_of_reserved hr)]
  exact ⟨rfl, rfl, fun port hoor hill => number_raiseIllegalOp _ hoor hill⟩

/-- The outcome goes on, or the next transaction never completes and is the fault (R102). -/
def GoesOnOrStuck (s : State) (r : Host.Outcome State Fault Refusal) : Prop :=
  (∃ t, r = .next t) ∨ s.nextOutcome = .never ∧ r = .fault .stuckTransaction

section line
variable {s : State} {act : Activity}

/-- A read inside the device is no refusal. -/
theorem runRead_goesOnOrStuck {reg n : Nat} (hd : InDevice reg n) (x : Nat) :
    GoesOnOrStuck s (runRead act reg n x s) := by
  rw [runRead, if_pos hd]
  cases hb : s.nextOutcome with
  | ok => exact .inl ⟨_, rfl⟩
  | error => cases hp : act.propagates <;> exact .inl ⟨_, rfl⟩
  | never => exact .inr ⟨hb, rfl⟩

/-- A write inside the device is no refusal. -/
theorem runWrite_goesOnOrStuck {reg : Nat} {bytes : List Byte} (hd : InDevice reg bytes.length) :
    GoesOnOrStuck s (runWrite act reg bytes s) := by
  rw [runWrite, if_pos hd]
  cases hb : s.nextOutcome with
  | ok => exact .inl ⟨_, rfl⟩
  | error => cases hp : act.propagates <;> exact .inl ⟨_, rfl⟩
  | never => exact .inr ⟨hb, rfl⟩

/-- A jump to a label that exists goes on there. -/
theorem jump_next_of_hasLabel {l : Nat} (h : Program.hasLabel act.program l = true) : ∃ t, s.jump act l = .next t := by
  obtain ⟨k, hk⟩ := find_of_hasLabel h
  exact ⟨_, jump_of_find hk⟩

/-- A block operation of the host is performed, or rejected with its call (R103, R122). -/
theorem runBlock_next (m : Mnemonic) (operands : List (InPort × Int)) : ∃ t, runBlock act m operands s = .next t := by
  unfold runBlock
  split
  · exact ⟨_, exec_eq_evaluated ..⟩
  · exact ⟨_, rfl⟩

/-- A well-formed statement is no refusal, and stops only at a transaction that never completes. -/
theorem runStmt_goesOnOrStuck {st : Stmt} (h : st.wf act.program = true) : GoesOnOrStuck s (runStmt act st s) := by
  cases st with
  | rd reg n x =>
    simp only [Stmt.wf, Bool.and_eq_true, decide_eq_true_eq] at h
    exact runRead_goesOnOrStuck h.1 x
  | wr reg es =>
    simp only [Stmt.wf, Bool.and_eq_true, decide_eq_true_eq] at h
    exact runWrite_goesOnOrStuck (by simpa using h.1)
  | ifGoto c l =>
    cases hc : holds s.outputs act.vars s.host.config.intPin c with
    | true => rw [runStmt_ifGoto_of_holds hc]; exact .inl (jump_next_of_hasLabel h)
    | false => rw [runStmt_ifGoto_of_not_holds hc]; exact .inl ⟨_, rfl⟩
  | goto l => exact .inl (jump_next_of_hasLabel h)
  | block m args => exact .inl (runBlock_next ..)
  | assign _ _ | ret _ | configureAsInput => exact .inl ⟨_, rfl⟩

end line

/-- Settles O31: the running call's next line exists and is well formed, the start of a call always answers, and ports
that hold an operation perform it. -/
theorem wellFormedSystemsGoOn : Obligations.WellFormedSystemsGoOn := by
  rintro s ⟨-, -, -, hact, -⟩
  rcases ha : s.host.activity with _ | act
  case some =>
    obtain ⟨hwf, hline, -⟩ := hact act ha
    have hl : act.program[act.line]? = some act.program[act.line] := List.getElem?_eq_getElem hline
    rw [step_at ha hl]
    have := runStmt_goesOnOrStuck (s := s.landOthers) (stmt_wf_of_wf hwf hl)
    rw [GoesOnOrStuck, landOthers_nextOutcome] at this
    exact this.imp_right .inr
  case none =>
    rcases hreq : s.host.requests with _ | ⟨c, rest⟩
    case cons => exact .inl ⟨_, step_start ha hreq⟩
    case nil =>
      have hs : s.Idle := ⟨ha, hreq⟩
      rcases op_cases s.inputs.op with ⟨m, hm⟩ | hr
      · exact .inl ⟨_, (step_of_idle_decode hs (decode_of_code hm)).trans (exec_eq_evaluated ..)⟩
      · exact .inr (.inl ⟨hs, hr, _, step_of_idle_reserved hs hr⟩)

/-! ### Values too wide for their ports -/

/-- An operand too wide for its port makes no operation (R65). -/
theorem assemble_of_not_fits {m : Mnemonic} {os : List (InPort × Int)} {o : InPort × Int} (ho : o ∈ os)
    (h : ¬o.1.Fits o.2) : m.assemble os = none :=
  if_neg fun hall => h (hall.2 o ho)

/-- Settles O46: a call that does not fit is over as it starts, and an operand that does not fit ends its call at the line
that presents it. -/
theorem tooWideValuesAreRejected : Obligations.TooWideValuesAreRejected := by
  refine ⟨?call, ?delay, ?operand⟩
  case call =>
    rintro s c ⟨ha, hr⟩ hc
    exact ⟨_, step_start ha hr, by simp [State.Returned, hc, ha]⟩
  case delay =>
    intro n
    have hfits : (HostCall.setCountdownAlarm n).fits = true ↔ InPort.secsI.Fits n := decide_eq_true_iff
    rw [hfits, InPort.Fits, InPort.range, Int.lt_iff_add_one_le]
    omega
  case operand =>
    intro s act l m args arg ha hl harg hfit
    have hnone : m.assemble (args.map fun a => (a.1, evalExpr s.landOthers.outputs act.vars a.2)) = none :=
      assemble_of_not_fits (List.mem_map_of_mem harg) (by simpa using hfit)
    refine ⟨s.landOthers.finish act .rejected, ?_, by simp⟩
    rw [step_at ha hl, runStmt, runBlock, hnone]

/-! ### The values of host expressions -/

/-- A number of `w` bits is its own low `w` bits. -/
theorem truncNumber_natCast {a w : Nat} (h : a < 2 ^ w) : truncNumber w a = a := by
  rw [truncNumber]
  exact_mod_cast Nat.mod_eq_of_lt h

/-- The low bits of a two's complement port's number are its bits. -/
theorem truncNumber_toInt {w : Nat} (x : BitVec w) : truncNumber w x.toInt = x.toNat := by
  rw [truncNumber, BitVec.toInt_eq_toNat_bmod, Int.bmod_emod]
  exact truncNumber_natCast x.isLt

theorem truncNumber_bitNumber (b : Bool) : truncNumber 1 (bitNumber b) = (bitNumber b).toNat := by
  cases b <;> rfl

/-- The low bits of a port's number, up to its width, are the bits on it (R19). -/
theorem truncNumber_number (o : Outputs) (p : OutPort) : truncNumber (portWidth p) (o.number p) = portBits o p := by
  cases p
  case monO | appliedO => exact truncNumber_toInt _
  case weTcnt | dis | resMin | ill => exact truncNumber_bitNumber _
  all_goals exact truncNumber_natCast (BitVec.isLt _)

/-- A slice below bit `w` is that of the value's low `w` bits. -/
theorem sliceOfNumber_truncNumber (v : Int) {hi lo w : Nat} (hlo : lo ≤ hi) (hw : hi < w) :
    sliceOfNumber (truncNumber w v) hi lo = sliceOfNumber v hi lo := by
  have hpow : 2 ^ w = 2 ^ lo * (2 ^ (hi + 1 - lo) * 2 ^ (w - (hi + 1))) := by
    rw [← pow_add, ← pow_add]
    congr 1
    omega
  have hsplit : v = truncNumber w v + ((2 ^ lo : Nat) : Int) *
      (((2 ^ (hi + 1 - lo) : Nat) : Int) * (((2 ^ (w - (hi + 1)) : Nat) : Int) * (v / ((2 ^ w : Nat) : Int)))) := by
    conv_lhs => rw [← Int.emod_add_mul_ediv v ((2 ^ w : Nat) : Int)]
    congr 1
    rw [← mul_assoc, ← mul_assoc, mul_assoc _ _ ((2 ^ (w - (hi + 1)) : Nat) : Int)]
    exact_mod_cast congrArg (· * (v / ((2 ^ w : Nat) : Int))) (congrArg Nat.cast hpow)
  have hpos : ((2 ^ lo : Nat) : Int) ≠ 0 := by positivity
  conv_rhs => rw [hsplit]
  rw [sliceOfNumber, sliceOfNumber, if_pos hlo, if_pos hlo, Int.add_mul_ediv_left _ _ hpos, Int.add_mul_emod_self_left]

/-- A slice of a port is those of its bits, on the two's complement ports too (R19). -/
theorem sliceOfNumber_port (o : Outputs) {p : OutPort} {hi lo : Nat} (hlo : lo ≤ hi) (hw : hi < portWidth p) :
    sliceOfNumber (o.number p) hi lo = ((portBits o p / 2 ^ lo % 2 ^ (hi + 1 - lo) : Nat) : Int) := by
  rw [← sliceOfNumber_truncNumber _ hlo hw, truncNumber_number, sliceOfNumber_natCast _ hlo]

/-- Read as two's complement, all bits of a signed port are its number (R19). -/
theorem signedNumber_slice_toInt {w : Nat} (hw : 0 < w) (x : BitVec w) :
    signedNumber w (sliceOfNumber x.toInt (w - 1) 0) = x.toInt := by
  have hwidth : w - 1 + 1 - 0 = w := by omega
  rw [signedNumber, sliceOfNumber, if_pos (Nat.zero_le _), hwidth, pow_zero, Nat.cast_one, Int.ediv_one, Int.emod_bmod,
    BitVec.toInt_eq_toNat_bmod, Int.bmod_bmod]

/-- NOT at a width is the distance to the greatest value of that width. -/
theorem truncNumber_notNumber {a w : Nat} (h : a < 2 ^ w) :
    truncNumber w (notNumber a) = ((2 ^ w - 1 - a : Nat) : Int) := by
  have hnot : notNumber a = ((2 ^ w - 1 - a : Nat) : Int) + ((2 ^ w : Nat) : Int) * (-1) := by
    rw [notNumber]
    omega
  rw [truncNumber, hnot, Int.add_mul_emod_self_left]
  exact truncNumber_natCast (by omega)

/-- Settles O44: slices by the bits of the port, the operators on numbers that are not negative, and the conditions by the
tests they decide. -/
theorem hostExpressionsCompute : Obligations.HostExpressionsCompute := by
  intro o vars pin
  refine ⟨fun p hi lo hlo hw => sliceOfNumber_port o hlo hw, ?signed, ?operators, ?conditions⟩
  case signed =>
    rintro p (rfl | rfl)
    · exact signedNumber_slice_toInt (by decide) o.monO
    · exact signedNumber_slice_toInt (by decide) o.appliedO
  case operators =>
    intro e f a b he hf
    simp only [evalExpr, he, hf]
    refine ⟨rfl, orNumber_eq_lor _ _, rfl, fun w hw => truncNumber_notNumber hw, trivial, trivial, trivial, trivial,
      fun hb => ⟨?div, ?mod⟩, ?concat⟩
    case div => exact (if_neg (mod_cast hb)).trans (Int.ofNat_tdiv a b).symm
    case mod => exact (if_neg (mod_cast hb)).trans (Int.ofNat_tmod a b).symm
    case concat =>
      intro w hw
      rw [truncNumber_natCast hw]
      push_cast
      rfl
  case conditions =>
    intro e f c d
    have hpin : holds o vars pin .validPin = true ↔ ∃ p, pin = some p ∧ Config.pinValid p = true := by
      cases pin <;> simp [holds, pinIsValid]
    exact ⟨decide_eq_true_iff, decide_eq_true_iff, decide_eq_true_iff, decide_eq_true_iff, hpin, Bool.and_eq_true_iff,
      Bool.or_eq_true_iff, iff_of_eq (Bool.not_eq_true' _)⟩

end Sys2Proof.Machine
end

section
/-! The BCD family of statements: what BCD_DEC and BCD_ENC put on the ports, each undoing the other, and the bounds of a
masked decode (spec/40_bcd.md R72 to R77). -/

namespace Sys2Proof.Machine

open Sys2Proof.Claims

/-! ### The outputs of the two operations -/

section outputs
variable (a : Byte) (o : Outputs)

theorem bcdDecOut_y_toNat : (bcdDecOut a o).y.toNat = decBcd a := ofNat_decBcd a

variable {a}

/-- Up to 99 BCD_ENC gives the encoded byte and raises nothing (R74). -/
theorem bcdEncOut_of_le (h : a.toNat ≤ 99) : (bcdEncOut a o).y = encBcd a.toNat ∧ (bcdEncOut a o).oor = 0 := by
  have hin : BcdEncodable a.toNat := by omega
  exact ⟨encLane_of_encodable o.y hin, if_pos hin⟩

/-- Above 99 BCD_ENC leaves `y` as drawn and raises OutOfRange(0) (R74). -/
theorem bcdEncOut_of_gt (h : 99 < a.toNat) : (bcdEncOut a o).y = o.y ∧ (bcdEncOut a o).oor = 0b0000001 := by
  have hout : ¬BcdEncodable a.toNat := by omega
  exact ⟨encLane_of_not o.y hout, if_neg hout⟩

variable {o} in
/-- BCD_ENC reports no lane out of range only where its operand is in range. -/
theorem le_of_bcdEncOut_oor (h : (bcdEncOut a o).oor = 0) : a.toNat ≤ 99 := by
  by_contra hgt
  rw [(bcdEncOut_of_gt o (Nat.lt_of_not_le hgt)).2] at h
  exact absurd h (by decide)

end outputs

/-! ### Digits -/

section digits
variable {b : Byte}

theorem validBcd_iff : ValidBcd b ↔ b.toNat / 16 ≤ 9 ∧ b.toNat % 16 ≤ 9 := by
  rw [ValidBcd, hiNibble_eq, loNibble_eq]

theorem decBcd_le_of_validBcd (h : ValidBcd b) : decBcd b ≤ 99 := by
  obtain ⟨hhi, hlo⟩ := h
  rw [decBcd]
  omega

theorem decBcd_eq_dec (b : Byte) : decBcd b = dec b.toNat := decBcd_eq b

theorem encBcd_toNat_eq_enc {v : Nat} (h : v ≤ 99) : ((encBcd v).toNat : Int) = enc v := by
  rw [encBcd_toNat v h, enc]
  push_cast
  rfl

/-- Each masked nibble is at most the mask's, and so a masked byte decodes to at most what its mask does (R77). -/
theorem decBcd_and_le (b m : Byte) : decBcd (b &&& m) ≤ decBcd m := by
  have hhi : hiNibble (b &&& m) ≤ hiNibble m := by
    rw [hiNibble, BitVec.extractLsb'_and, BitVec.toNat_and]
    exact Nat.and_le_right
  have hlo : loNibble (b &&& m) ≤ loNibble m := by
    rw [loNibble, BitVec.extractLsb'_and, BitVec.toNat_and]
    exact Nat.and_le_right
  exact Nat.add_le_add (Nat.mul_le_mul_right 10 hhi) hlo

end digits

/-! ### Each operation after the other -/

section inverse
variable (o o' : Outputs)

theorem bcdDecOut_bcdEncOut {v : Byte} (h : v.toNat ≤ 99) : (bcdDecOut (bcdEncOut v o).y o').y = v := by
  apply BitVec.eq_of_toNat_eq
  rw [bcdDecOut_y_toNat, (bcdEncOut_of_le o h).1, decBcd_encBcd _ h]

variable {b : Byte}

/-- A valid byte comes back, and no lane is out of range (R76). -/
theorem bcdEncOut_bcdDecOut_of_validBcd (h : ValidBcd b) :
    (bcdEncOut (bcdDecOut b o).y o').y = b ∧ (bcdEncOut (bcdDecOut b o).y o').oor = 0 := by
  have hy := bcdDecOut_y_toNat b o
  obtain ⟨henc, hoor⟩ := bcdEncOut_of_le o' (hy.trans_le (decBcd_le_of_validBcd h))
  exact ⟨by rw [henc, hy, encBcd_decBcd b h], hoor⟩

/-- What BCD_ENC gives in range is a valid byte, whatever its operand. -/
theorem validBcd_bcdEncOut_y {a : Byte} (h : (bcdEncOut a o).oor = 0) : ValidBcd (bcdEncOut a o).y := by
  have hle := le_of_bcdEncOut_oor h
  rw [(bcdEncOut_of_le o hle).1]
  exact encBcd_validBcd _ hle

end inverse

/-! ### The statements -/

/-- Settles O9: in range the encoded byte with its two digits, above it the draw's free value. -/
theorem bcdEncResult : Obligations.BcdEncResult := by
  intro a s
  refine ⟨_, exec_eq_evaluated (.bcdEnc a) s, rfl, rfl, rfl, ?inRange, bcdEncOut_of_gt (Outputs.draw s.draws)⟩
  case inRange =>
    intro h
    obtain ⟨hy, hoor⟩ := bcdEncOut_of_le (Outputs.draw s.draws) h
    simp only [evaluated_outputs, outputsOf, hy, hoor]
    exact ⟨encBcd_toNat_eq_enc h, encBcd_validBcd _ h, trivial⟩

/-- Settles O10: in range the digits of `v` are those BCD_DEC adds up. -/
theorem bcdDecAfterEnc : Obligations.BcdDecAfterEnc :=
  fun v s s' h => ⟨_, _, exec_eq_evaluated (.bcdEnc v) s, exec_eq_evaluated (.bcdDec _) s',
    bcdDecOut_bcdEncOut (Outputs.draw s.draws) (Outputs.draw s'.draws) h⟩

/-- Settles O11: a valid byte comes back from its digits; an encode in range gives a valid byte, so never another one. -/
theorem bcdEncAfterDec : Obligations.BcdEncAfterDec := by
  intro b s s'
  refine ⟨_, _, exec_eq_evaluated (.bcdDec b) s, exec_eq_evaluated (.bcdEnc _) s', ?valid, ?invalid, ?ten⟩
  case valid =>
    intro hhi hlo
    have hb : ValidBcd b := validBcd_iff.2 ⟨hhi, hlo⟩
    have hy : (bcdDecOut b (Outputs.draw s.draws)).y.toNat = decBcd b := bcdDecOut_y_toNat ..
    refine ⟨?_, hy.trans_le (decBcd_le_of_validBcd hb), bcdEncOut_bcdDecOut_of_validBcd _ _ hb⟩
    exact hy.trans (by rw [decBcd_eq, Nat.mul_comm])
  case invalid =>
    intro hnibble hoor hback
    obtain ⟨hhi, hlo⟩ := validBcd_iff.1 (hback ▸ validBcd_bcdEncOut_y _ hoor)
    omega
  case ten =>
    rintro rfl
    have henc : (bcdEncOut 10 (Outputs.draw s'.draws)).y = 0x10 := (bcdEncOut_of_le _ (by decide)).1
    exact ⟨rfl, henc⟩

/-- Settles O12: the bound of each mask is what the mask itself decodes to. -/
theorem bcdDecBounds : Obligations.BcdDecBounds := by
  intro b m bound s hm
  have hbound : ∀ p ∈ [((0xFF : Byte), 165), (0x7F, 85), (0x3F, 45), (0x1F, 25), (0x07, 7)], decBcd p.1 = p.2 := by
    decide
  exact ⟨_, exec_eq_evaluated (.bcdDec (b &&& m)) s,
    (bcdDecOut_y_toNat ..).trans_le ((decBcd_and_le b m).trans (hbound _ hm).le)⟩

/-- Settles O8: ten times the high nibble and the low one, which fits the port. -/
theorem bcdDecResult : Obligations.BcdDecResult := by
  intro a s
  have hdec := decBcd_eq_dec a
  exact ⟨_, exec_eq_evaluated (.bcdDec a) s, rfl, rfl, (bcdDecOut_y_toNat ..).trans hdec, hdec ▸ decBcd_le a, rfl, rfl⟩

end Sys2Proof.Machine
end

section
/-! The time-block family of statements: what TB_UNPACK and TB_PACK put on the ports, lane by lane, the round trip between
them (spec/41_time_block.md R78 to R87), and the same round trip through the device's registers. -/

namespace Sys2Proof.Machine

open Sys2Proof.Claims

/-! ### TB_UNPACK on plain numbers -/

section unpack
variable (img : Image)

theorem byteAt_eq_toNat (k : Nat) : byteAt img k = (imgByte img k).toNat := (imgByte_toNat img k).symm

theorem laneValue_eq_dec (k : Nat) : laneValue img k = dec (byteAt img k &&& (fieldMask k).toNat) := by
  rw [byteAt_eq_toNat]
  exact laneValue_eq img k

theorem laneValue_year_eq_dec : laneValue img 6 = dec (byteAt img 6) := by
  rw [laneValue_year, decBcd_eq_dec, byteAt_eq_toNat]

variable (o : Outputs)

theorem tbUnpackOut_monO_toInt : (tbUnpackOut img o).monO.toInt = laneValue img 5 - 1 := month_toInt img

theorem tbUnpackOut_yearO_toNat : (tbUnpackOut img o).yearO.toNat = 2000 + laneValue img 6 := year_toNat img

end unpack

/-- Settles O13: each field port carries its lane's value, which fits the port. -/
theorem tbUnpackResult : Obligations.TbUnpackResult := by
  intro img s
  have hfield (k : Nat) :
      (BitVec.ofNat 8 (laneValue img k)).toNat = dec (byteAt img k &&& (fieldMask k).toNat) :=
    (ofNat_laneValue img k).trans (laneValue_eq_dec img k)
  have hmon : ((laneValue img 5 : Int) - 1) = dec (byteAt img 5 &&& 0x1F) - 1 := by
    rw [laneValue_eq_dec]
    rfl
  exact ⟨_, exec_eq_evaluated (.tbUnpack img) s, rfl, rfl, hfield 0, hfield 1, hfield 2, hfield 3, hfield 4,
    (tbUnpackOut_monO_toInt img _).trans hmon,
    (tbUnpackOut_yearO_toNat img _).trans (congrArg (2000 + ·) (laneValue_year_eq_dec img)), rfl, rfl⟩

/-- Settles O19: any byte decodes to at most 165, and a valid BCD byte to at most 99. -/
theorem unpackedYearRange : Obligations.UnpackedYearRange := by
  intro img s
  have hyear : (tbUnpackOut img (Outputs.draw s.draws)).yearO.toNat = 2000 + decBcd (imgByte img 6) := by
    rw [tbUnpackOut_yearO_toNat, laneValue_year]
  have hany := decBcd_le (imgByte img 6)
  refine ⟨_, exec_eq_evaluated (.tbUnpack img) s, ?least, ?greatest, ?valid⟩ <;>
    simp only [evaluated_outputs, outputsOf, hyear]
  case least => omega
  case greatest => omega
  case valid =>
    intro hhi hlo
    rw [byteAt_eq_toNat] at hhi hlo
    have hvalid := decBcd_le_of_validBcd (validBcd_iff.2 ⟨hhi, hlo⟩)
    omega

/-! ### TB_PACK lane by lane -/

section pack
variable {sec mins hour mday wday mon : Byte} {year : Year} {k : Nat} {v : Int}

theorem lane_lt (h : (k, v) ∈ lanes sec mins hour mday wday mon year) : k < 7 := by
  simp only [lanes, List.mem_cons, Prod.mk.injEq, List.not_mem_nil, or_false] at h
  omega

theorem exists_lane (hk : k < 7) : ∃ v, (k, v) ∈ lanes sec mins hour mday wday mon year := by
  have hmem : k ∈ (lanes sec mins hour mday wday mon year).map Prod.fst := List.mem_range.2 hk
  obtain ⟨⟨j, v⟩, hv, rfl⟩ := List.mem_map.1 hmem
  exact ⟨v, hv⟩

theorem encLane_toNat (any : Byte) (h : BcdEncodable v) : ((encLane any v).toNat : Int) = enc v := by
  obtain ⟨n, rfl⟩ := Int.eq_ofNat_of_zero_le h.1
  rw [encLane_of_encodable any h]
  exact encBcd_toNat_eq_enc (Int.ofNat_le.1 h.2)

/-- Lane `k` of the packed image is its offset value, encoded on its own (R82, R83). -/
theorem imgByte_tbPackOut (h : (k, v) ∈ lanes sec mins hour mday wday mon year) (o : Outputs) :
    imgByte (tbPackOut sec mins hour mday wday mon year o).imgO k = encLane (imgByte o.imgO k) v := by
  have hlanes : ∀ p ∈ lanes sec mins hour mday wday mon year,
      imgByte (tbPackOut sec mins hour mday wday mon year o).imgO p.1 = encLane (imgByte o.imgO p.1) p.2 := by
    simp [lanes, tbPackOut, monthRegister, yearOffset, centuryBase]
  exact hlanes _ h

/-- Bit `k` of `oor` says that lane `k`'s offset value is outside 0 to 99, whatever the other lanes hold (R83). -/
theorem getLsbD_oor_tbPackOut (h : (k, v) ∈ lanes sec mins hour mday wday mon year) (o : Outputs) :
    (tbPackOut sec mins hour mday wday mon year o).oor.getLsbD k = !decide (BcdEncodable v) := by
  have hlanes : ∀ p ∈ lanes sec mins hour mday wday mon year,
      (tbPackOut sec mins hour mday wday mon year o).oor.getLsbD p.1 = !decide (BcdEncodable p.2) := by
    simp [lanes, tbPackOut, Outputs.withOor, oorLanes, oorLane_getLsbD, monthRegister, yearOffset, centuryBase]
  exact hlanes _ h

/-- An in-range lane is the whole BCD byte of its value: no mask is applied (R82, R84). -/
theorem byteAt_tbPackOut (h : (k, v) ∈ lanes sec mins hour mday wday mon year) (o : Outputs) (hv : BcdEncodable v) :
    (byteAt (tbPackOut sec mins hour mday wday mon year o).imgO k : Int) = enc v := by
  rw [byteAt_eq_toNat, imgByte_tbPackOut h, encLane_toNat _ hv]

/-- An out-of-range lane is that byte of the value `img_o` was drawn with (R83). -/
theorem byteAt_tbPackOut_of_not (h : (k, v) ∈ lanes sec mins hour mday wday mon year) (o : Outputs)
    (hv : ¬BcdEncodable v) :
    byteAt (tbPackOut sec mins hour mday wday mon year o).imgO k = byteAt o.imgO k := by
  rw [byteAt_eq_toNat, byteAt_eq_toNat, imgByte_tbPackOut h, encLane_of_not _ hv]

theorem oor_tbPackOut_eq_zero (o : Outputs)
    (h : ∀ p ∈ lanes sec mins hour mday wday mon year, BcdEncodable p.2) :
    (tbPackOut sec mins hour mday wday mon year o).oor = 0 := by
  refine BitVec.eq_of_getLsbD_eq fun k hk => ?_
  obtain ⟨v, hv⟩ := exists_lane (sec := sec) (mins := mins) (hour := hour) (mday := mday) (wday := wday) (mon := mon)
    (year := year) hk
  simp [getLsbD_oor_tbPackOut hv, h _ hv]

end pack

/-- Settles O15: each lane is encoded on its own, and its bit of `oor` depends on it alone. -/
theorem tbPackResult : Obligations.TbPackResult := by
  intro sec mins hour mday wday mon year s
  refine ⟨_, exec_eq_evaluated (.tbPack sec mins hour mday wday mon year) s, rfl, rfl,
    fun k v hlane => ⟨?inRange, ?outside⟩⟩
  case inRange =>
    intro hv
    exact ⟨byteAt_tbPackOut hlane _ hv, (getLsbD_oor_tbPackOut hlane _).trans (by simp [hv])⟩
  case outside =>
    intro hv
    have hnot : ¬BcdEncodable v := by omega
    exact ⟨byteAt_tbPackOut_of_not hlane _ hnot, (getLsbD_oor_tbPackOut hlane _).trans (by simp [hnot])⟩

/-- Settles O16: a lane in range is its whole BCD byte, whose tens digit is what the bits above the mask show. -/
theorem tbPackAppliesNoMask : Obligations.TbPackAppliesNoMask := by
  intro sec mins hour mday wday mon year s
  have hbyte : ∀ k v, (k, v) ∈ lanes sec mins hour mday wday mon year → 0 ≤ v → v ≤ 99 →
      (byteAt (tbPackOut sec mins hour mday wday mon year (Outputs.draw s.draws)).imgO k : Int) =
        16 * (v / 10) + v % 10 :=
    fun k v hlane h0 h99 => byteAt_tbPackOut hlane _ ⟨h0, h99⟩
  have hsec := hbyte 0 sec.toNat (by simp [lanes])
  have hmins := hbyte 1 mins.toNat (by simp [lanes])
  have hhour := hbyte 2 hour.toNat (by simp [lanes])
  have hmday := hbyte 3 mday.toNat (by simp [lanes])
  have hwday := hbyte 4 wday.toNat (by simp [lanes])
  have hmon := hbyte 5 (mon.toInt + 1) (by simp [lanes])
  refine ⟨_, exec_eq_evaluated (.tbPack sec mins hour mday wday mon year) s, hbyte, ?_⟩
  simp only [evaluated_outputs, outputsOf]
  omega

/-! ### The round trip -/

/-- The greatest value whose BCD byte the lane's decode mask leaves alone (R86). -/
def laneLimit : Nat → Nat
  | 0 | 1 => 79
  | 2 | 3 => 39
  | 4 => 7
  | 5 => 19
  | _ => 99

theorem laneLimit_le (k : Nat) : laneLimit k ≤ 99 := by
  unfold laneLimit
  split <;> decide

theorem encBcd_and_fieldMask : ∀ k < 7, ∀ w : Fin 100, w.val ≤ laneLimit k →
    encBcd w.val &&& fieldMask k = encBcd w.val := by decide

/-- Every lane's offset value has a BCD byte that survives its decode mask (R86). -/
def SurvivesMasks (sec mins hour mday wday mon : Byte) (year : Year) : Prop :=
  ∀ p ∈ lanes sec mins hour mday wday mon year, 0 ≤ p.2 ∧ p.2 ≤ laneLimit p.1

section roundTrip
variable {sec mins hour mday wday mon : Byte} {year : Year}

theorem survivesMasks_iff : SurvivesMasks sec mins hour mday wday mon year ↔
    sec.toNat ≤ 79 ∧ mins.toNat ≤ 79 ∧ hour.toNat ≤ 39 ∧ mday.toNat ≤ 39 ∧ wday.toNat ≤ 7 ∧
      (-1 ≤ mon.toInt ∧ mon.toInt ≤ 18) ∧ (2000 ≤ year.toNat ∧ year.toNat ≤ 2099) := by
  simp only [SurvivesMasks, lanes, List.forall_mem_cons, laneLimit, List.not_mem_nil, false_imp_iff,
    implies_true, and_true]
  omega

variable (h : SurvivesMasks sec mins hour mday wday mon year)
include h

theorem oor_tbPackOut_of_survivesMasks (o : Outputs) : (tbPackOut sec mins hour mday wday mon year o).oor = 0 :=
  oor_tbPackOut_eq_zero o fun p hp => by
    have := laneLimit_le p.1
    have := h p hp
    omega

/-- A lane that survives its mask decodes to the value it was packed from. -/
theorem laneValue_tbPackOut (o : Outputs) {k : Nat} {v : Int}
    (hlane : (k, v) ∈ lanes sec mins hour mday wday mon year) :
    (laneValue (tbPackOut sec mins hour mday wday mon year o).imgO k : Int) = v := by
  obtain ⟨h0, hle⟩ := h (k, v) hlane
  rw [laneValue, imgByte_tbPackOut hlane]
  exact decBcd_encLane_masked v _ _ _ (laneLimit_le k) h0 hle (encBcd_and_fieldMask k (lane_lt hlane))

/-- TB_UNPACK gives back every field of an image that TB_PACK made of lanes that survive their masks (R85, R86). -/
theorem tbUnpackOut_tbPackOut (o o' : Outputs) :
    let u := tbUnpackOut (tbPackOut sec mins hour mday wday mon year o).imgO o'
    u.secO = sec ∧ u.minO = mins ∧ u.hourO = hour ∧ u.mdayO = mday ∧ u.wdayO = wday ∧ u.monO = mon ∧ u.yearO = year := by
  have hlane {k : Nat} {v : Int} := laneValue_tbPackOut h o (k := k) (v := v)
  have hfield {k : Nat} {b : Byte} (hb : (k, (b.toNat : Int)) ∈ lanes sec mins hour mday wday mon year) :
      BitVec.ofNat 8 (laneValue (tbPackOut sec mins hour mday wday mon year o).imgO k) = b := by
    rw [Int.ofNat_inj.1 (hlane hb), BitVec.ofNat_toNat, BitVec.setWidth_eq]
  refine ⟨hfield (by simp [lanes]), hfield (by simp [lanes]), hfield (by simp [lanes]), hfield (by simp [lanes]),
    hfield (by simp [lanes]), ?month, ?year⟩
  case month =>
    have hmon := hlane (k := 5) (v := mon.toInt + 1) (by simp [lanes])
    simp [tbUnpackOut, hmon]
  case year =>
    have hyear := hlane (k := 6) (v := year.toNat - 2000) (by simp [lanes])
    simp [tbUnpackOut, hyear, centuryBase]

end roundTrip

/-- Settles O17: nominal fields are within what survives the masks. -/
theorem timeBlockRoundTrip : Obligations.TimeBlockRoundTrip := by
  intro sec mins hour mday wday mon year s s' hsec hmins hhour _ hmday hwday hmon hy0 hy1
  have hsurvives : SurvivesMasks sec mins hour mday wday mon year := by
    have hmonInt := BitVec.toInt_eq_toNat_of_lt (x := mon) (by omega)
    exact survivesMasks_iff.2 (by omega)
  exact ⟨_, _, exec_eq_evaluated (.tbPack sec mins hour mday wday mon year) s,
    oor_tbPackOut_of_survivesMasks hsurvives _, exec_eq_evaluated (.tbUnpack _) s',
    tbUnpackOut_tbPackOut hsurvives _ _⟩

/-- Settles O18: within the masks everything comes back; at 80 and at 19 the tens digit is cut off. -/
theorem widerRoundTripAndItsEdge : Obligations.WiderRoundTripAndItsEdge := by
  intro sec mins hour mday wday mon year s s'
  refine ⟨_, _, exec_eq_evaluated (.tbPack sec mins hour mday wday mon year) s, exec_eq_evaluated (.tbUnpack _) s',
    ?within, ?second80, ?month19⟩
  case within =>
    intro hsec hmins hhour hmday hwday hm0 hm1 hy0 hy1
    have hsurvives : SurvivesMasks sec mins hour mday wday mon year := survivesMasks_iff.2 (by omega)
    exact ⟨oor_tbPackOut_of_survivesMasks hsurvives _, tbUnpackOut_tbPackOut hsurvives _ _⟩
  case second80 =>
    intro h80
    have hbyte : imgByte (tbPackOut sec mins hour mday wday mon year (Outputs.draw s.draws)).imgO 0 = 0x80 := by
      rw [imgByte_tbPackOut (v := 80) (by simp [lanes, h80])]
      rfl
    simp only [evaluated_outputs, outputsOf, byteAt_eq_toNat, tbUnpackOut, laneValue, hbyte]
    decide
  case month19 =>
    intro h19
    have hbyte : imgByte (tbPackOut sec mins hour mday wday mon year (Outputs.draw s.draws)).imgO 5 = 0x20 := by
      rw [imgByte_tbPackOut (v := 20) (by simp [lanes, h19])]
      rfl
    simp only [evaluated_outputs, outputsOf, byteAt_eq_toNat, tbUnpackOut, laneValue, hbyte]
    decide

/-! ### The round trip at the host -/

/-- The TB_PACK that `setTime` presents for a time that fits (R106). -/
def packOf (c : CalendarTime) : Instr :=
  .tbPack (BitVec.ofInt 8 c.sec) (BitVec.ofInt 8 c.mins) (BitVec.ofInt 8 c.hour) (BitVec.ofInt 8 c.mday)
    (BitVec.ofInt 8 c.wday) (BitVec.ofInt 8 c.mon) (BitVec.ofInt 16 c.year)

section calendar
variable {c : CalendarTime}

theorem fits_of_nominal (h : c.Nominal) : c.Fits := by
  simp only [CalendarTime.Fits, InPort.Fits, InPort.range]
  omega

/-- The ports carry the numbers of a time that fits, so they stand for that time. -/
theorem calendar_of_ports (h : c.Fits) {o : Outputs}
    (ho : o.secO = BitVec.ofInt 8 c.sec ∧ o.minO = BitVec.ofInt 8 c.mins ∧ o.hourO = BitVec.ofInt 8 c.hour ∧
      o.mdayO = BitVec.ofInt 8 c.mday ∧ o.wdayO = BitVec.ofInt 8 c.wday ∧ o.monO = BitVec.ofInt 8 c.mon ∧
      o.yearO = BitVec.ofInt 16 c.year) : o.calendar = c := by
  obtain ⟨hsec, hmins, hhour, hmday, hwday, hmon, hyear⟩ := h
  obtain ⟨e0, e1, e2, e3, e4, e5, e6⟩ := ho
  rw [Outputs.calendar, e0, e1, e2, e3, e4, e5, e6, toNat_ofInt_byte _ hsec, toNat_ofInt_byte _ hmins,
    toNat_ofInt_byte _ hhour, toNat_ofInt_byte _ hmday, toNat_ofInt_byte _ hwday, toInt_ofInt_byte _ hmon,
    toNat_ofInt_year _ hyear]

/-- The time on the ports after TB_UNPACK of the image that TB_PACK made of a nominal time is that time (R85). -/
theorem calendar_tbUnpackOut_packOf (h : c.Nominal) (o o' : Outputs) :
    (tbUnpackOut (outputsOf (packOf c) o).imgO o').calendar = c := by
  have hfits := fits_of_nominal h
  have hsurvives : SurvivesMasks (BitVec.ofInt 8 c.sec) (BitVec.ofInt 8 c.mins) (BitVec.ofInt 8 c.hour)
      (BitVec.ofInt 8 c.mday) (BitVec.ofInt 8 c.wday) (BitVec.ofInt 8 c.mon) (BitVec.ofInt 16 c.year) := by
    obtain ⟨hsec, hmins, hhour, hmday, hwday, hmon, hyear⟩ := hfits
    have esec := toNat_ofInt_byte _ hsec
    have emins := toNat_ofInt_byte _ hmins
    have ehour := toNat_ofInt_byte _ hhour
    have emday := toNat_ofInt_byte _ hmday
    have ewday := toNat_ofInt_byte _ hwday
    have emon := toInt_ofInt_byte _ hmon
    have eyear := toNat_ofInt_year _ hyear
    exact survivesMasks_iff.2 (by omega)
  exact calendar_of_ports hfits (tbUnpackOut_tbPackOut hsurvives o o')

end calendar

/-- The bytes a host writes from all seven slices of `img_o` are the image's bytes (R50). -/
theorem map_portByte_imgO (o : Outputs) (vars : List (Nat × Int)) :
    ((List.range 7).map (portByte .imgO)).map (fun e => BitVec.ofInt 8 (evalExpr o vars e)) =
      (List.range 7).map (imgByte o.imgO) := by
  rw [List.map_map]
  exact List.map_congr_left fun k _ => ofInt_byteSlice o.imgO k

theorem run_four {s s1 s2 s3 t : State} (h1 : step s = .next s1) (h2 : step s1 = .next s2) (h3 : step s2 = .next s3)
    (h4 : step s3 = .next t) : run 4 s = .next t := by
  rw [run_succ h1, run_succ h2, run_succ h3, run_succ h4, run_zero]

section host
variable {s : State} {calls : List HostCall} {bus : List BusOutcome} (ha : s.host.activity = none) (ho : s.others = [])
  (hb : s.bus = .ok :: bus)
include ha ho hb

/-- `setTime` of a time that fits, its write succeeding and no other caller writing (R106): the seven registers take the
image, and the calls that wait go on waiting. -/
theorem setTime_writes_image {c : CalendarTime} (hf : c.Fits) (hr : s.host.requests = .setTime c :: calls) :
    ∃ t, run 4 s = .next t ∧ t.host.activity = none ∧ t.host.requests = calls ∧ t.host.result = some .success ∧
      t.others = [] ∧ t.bus = bus ∧
      t.device = s.device.writeBytes 2
        ((List.range 7).map (imgByte (outputsOf (packOf c) (Outputs.draw s.draws)).imgO)) := by
  let act := Activity.start s.host.config.errPolicy (.setTime c)
  let s1 := s.startCall (.setTime c) calls
  let s2 := (s1.resume act.onward).evaluated (packOf c) (outputsOf (packOf c))
  let bytes := (List.range 7).map (imgByte s2.outputs.imgO)
  let s3 := (s2.afterWriteTransaction 2 bytes true).resume act.onward.onward
  have ho1 : s1.others = [] := (startCall_others ..).trans ho
  have hb1 : s1.bus = .ok :: bus := (startCall_bus ..).trans hb
  have ha1 : s1.host.activity = some act := (startCall_activity ..).trans (if_pos (decide_eq_true hf))
  have h1 : step s = .next s1 := by rw [step_start ha hr, landOthers_of_none s ho]
  have h2 : step s1 = .next s2 := step_block ha1 ho1 rfl (assemble_tbPack c hf)
  have h3 : step s2 = .next s3 := by
    have hwr := step_wr_ok (s := s2) (act := act.onward) (es := (List.range 7).map (portByte .imgO)) rfl ho1 rfl
      (by decide) (nextOutcome_cons hb1)
    rwa [map_portByte_imgO] at hwr
  have h4 : step s3 = .next (s3.finish act.onward.onward .success) :=
    step_ret (s := s3) (act := act.onward.onward) rfl ho1 rfl
  exact ⟨_, run_four h1 h2 h3 h4, rfl, startCall_requests .., rfl, ho1, by simp [s3, s2, hb1],
    by simp [s3, s2, s1, bytes]⟩

/-- `getTime`, its read succeeding and no other caller writing (R105): the time that TB_UNPACK gives for the bytes of the
seven registers. -/
theorem getTime_reads_image (hr : s.host.requests = .getTime :: calls) :
    ∃ t, run 4 s = .next t ∧ t.host.activity = none ∧ t.host.requests = calls ∧
      t.host.result = some (.time (tbUnpackOut (BitVec.ofNat 56 (bytesNumber (s.device.readBytes s.draws 2 7)))
        (Outputs.draw (s.draws + 1))).calendar false) := by
  let img : Image := BitVec.ofNat 56 (bytesNumber (s.device.readBytes s.draws 2 7))
  let act := Activity.start s.host.config.errPolicy .getTime
  let actRead := act.assign 0 (bytesNumber (s.device.readBytes s.draws 2 7))
  let s1 := s.startCall .getTime calls
  let s2 := (s1.afterReadTransaction 2 7 true).resume actRead
  let s3 := (s2.resume actRead.onward).evaluated (.tbUnpack img) (tbUnpackOut img)
  have h1 : step s = .next s1 := by rw [step_start ha hr, landOthers_of_none s ho]
  have h2 : step s1 = .next s2 := step_rd_ok rfl ho rfl (by decide) (nextOutcome_cons hb)
  have h3 : step s2 = .next s3 := step_block rfl ho rfl (assemble_tbUnpack _ (readBytes_length ..))
  have h4 : step s3 = .next (s3.finish actRead.onward (.time s3.outputs.calendar false)) :=
    step_ret (s := s3) (act := actRead.onward) rfl ho rfl
  exact ⟨_, run_four h1 h2 h3 h4, rfl, rfl, rfl⟩

end host

/-- A quiet device that has taken the seven bytes of an image at 0x02 gives that image back (R50, R53). -/
theorem readBytes_writeBytes_image {d : Device} (hq : d.quiet = true) (img : Image) (draw : Nat) :
    BitVec.ofNat 56 (bytesNumber ((d.writeBytes 2 ((List.range 7).map (imgByte img))).readBytes draw 2 7)) = img := by
  obtain ⟨hknown, -⟩ := takesBytes_writeBytes d (reg := 2) (bytes := (List.range 7).map (imgByte img)) (by simp)
  obtain ⟨hread, -⟩ := quietReadsGiveTheRegisters _ draw 2 _ ((writeBytes_quiet ..).trans hq) hknown
  rw [List.length_map, List.length_range] at hread
  rw [hread, ofNat_bytesNumber_image]

/-- Settles O50: `setTime` leaves the packed image in the registers, `getTime` reads it back, and it unpacks to the time. -/
theorem setTimeThenGetTime : Obligations.SetTimeThenGetTime := by
  intro s c rest hc ha hr ho hq hb
  obtain ⟨u, hset, hau, hru, -, hou, hbu, hdev⟩ := setTime_writes_image ha ho hb (fits_of_nominal hc) hr
  obtain ⟨t, hget, hat, hrt, htime⟩ := getTime_reads_image hau hou hbu hru
  rw [hdev, readBytes_writeBytes_image hq, calendar_tbUnpackOut_packOf hc] at htime
  exact ⟨t, (run_add 4 4 hset).trans hget, hat, hrt, htime⟩

end Sys2Proof.Machine
end

section
/-! The countdown family of statements: what CD_SELECT puts on the ports on its two paths, how far the applied delay is from
the request, and what CTRL2_ACK keeps (spec/42_countdown.md R88 to R99). -/

namespace Sys2Proof.Machine

open Sys2Proof.Claims

/-! ### The two paths of CD_SELECT -/

section paths
variable {secs : Delay} (a : Byte) (o : Outputs)

theorem cdSelectOut_of_neg (h : secs.toInt < 0) : cdSelectOut secs a o = cdDisableOut a o := if_pos h

theorem cdSelectOut_of_nonneg (h : 0 ≤ secs.toInt) : cdSelectOut secs a o = cdArmOut secs.toInt a o :=
  if_neg (Int.not_lt.2 h)

/-- CD_SELECT reports no lane out of range and no illegal operation (R88). -/
theorem cdSelectOut_status (secs : Delay) : (cdSelectOut secs a o).oor = 0 ∧ (cdSelectOut secs a o).ill = false := by
  unfold cdSelectOut
  split <;> exact ⟨rfl, rfl⟩

theorem cdDisableOut_appliedO_toInt : (cdDisableOut a o).appliedO.toInt = -1 := toInt_ofInt_delay (-1) (by decide)

variable {n : Int}

theorem cdArmOut_appliedO_toInt (h : 0 ≤ n) : (cdArmOut n a o).appliedO.toInt = applied n :=
  number_appliedO_cdArmOut a o h

theorem cdSelectOut_appliedO_toInt (h : 0 ≤ secs.toInt) : (cdSelectOut secs a o).appliedO.toInt = applied secs.toInt := by
  rw [cdSelectOut_of_nonneg a o h, cdArmOut_appliedO_toInt a o h]

theorem ticks_range (h : 0 ≤ n) : 0 ≤ ticks n ∧ ticks n ≤ 255 := cdTicks_range h

/-- The count fits its port (R93). -/
theorem cdArmOut_tcntO_toNat (h : 0 ≤ n) : ((cdArmOut n a o).tcntO.toNat : Int) = ticks n := by
  have hrange := ticks_range h
  exact toNat_ofInt_byte (ticks n) (by omega)

/-- Second resolution (R91). -/
theorem cdArmOut_resolution_of_lt (h : n < 270) :
    (cdArmOut n a o).resMin = false ∧ (cdArmOut n a o).tctlO = 0x82 :=
  ⟨decide_eq_false (Int.not_le.2 h), if_pos h⟩

/-- Minute resolution (R92). -/
theorem cdArmOut_resolution_of_ge (h : 270 ≤ n) :
    (cdArmOut n a o).resMin = true ∧ (cdArmOut n a o).tctlO = 0x83 :=
  ⟨decide_eq_true h, if_neg (Int.not_lt.2 h)⟩

end paths

/-! ### The applied delay and the request -/

section delay
variable {n m : Int}

theorem applied_of_lt (h : n < 270) : applied n = min n 255 := by rw [applied, ticks, if_pos h, if_pos h]

theorem applied_of_ge (h : 270 ≤ n) : applied n = 60 * min ((n + 30) / 60) 255 := by
  rw [applied, ticks, if_neg (Int.not_lt.2 h), if_neg (Int.not_lt.2 h)]

theorem applied_range (h : 0 ≤ n) : 0 ≤ applied n ∧ applied n ≤ 15300 := by
  have hrange := ticks_range h
  unfold applied
  split <;> omega

/-- The request is met exactly up to the clamp of second resolution and at the whole minutes that minute resolution reaches
(R98). -/
theorem applied_eq_self_iff : applied n = n ↔ n ≤ 255 ∨ (300 ≤ n ∧ n ≤ 15300 ∧ n % 60 = 0) := by
  rcases Int.lt_or_le n 270 with hlt | hge
  · rw [applied_of_lt hlt]
    omega
  · rw [applied_of_ge hge]
    omega

/-- At minute resolution, below the clamp, rounding moves the delay by at most half a minute (R98). -/
theorem applied_near (h : 270 ≤ n) (hn : n ≤ 15329) : applied n - n ≤ 30 ∧ n - applied n ≤ 30 := by
  rw [applied_of_ge h]
  omega

/-- Each resolution is monotone, and the most that second resolution gives is less than the least of minute resolution
(R98). -/
theorem applied_mono (h : n ≤ m) : applied n ≤ applied m := by
  rcases Int.lt_or_le n 270 with hn | hn <;> rcases Int.lt_or_le m 270 with hm | hm
  · rw [applied_of_lt hn, applied_of_lt hm]
    omega
  · rw [applied_of_lt hn, applied_of_ge hm]
    omega
  · omega
  · rw [applied_of_ge hn, applied_of_ge hm]
    omega

end delay

/-- Clear flag bits are bits 3 and 2 (R27). -/
theorem flagBits_eq_zero_iff (b : Byte) : flagBits b = 0 ↔ b.getLsbD 3 = false ∧ b.getLsbD 2 = false := by
  revert b
  decide

/-- The bits of a byte that CTRL2_ACK does not clear (R96). -/
theorem getLsbD_cdBase_of_ne (a : Byte) {k : Nat} (h2 : k ≠ 2) (h3 : k ≠ 3) : (cdBase a).getLsbD k = a.getLsbD k := by
  have hmask : ∀ j < 8, j ≠ 2 → j ≠ 3 → (0xF3 : Byte).getLsbD j = true := by decide
  rcases Nat.lt_or_ge k 8 with hk | hk
  · rw [cdBase, BitVec.getLsbD_and, hmask k hk h2 h3, Bool.and_true]
  · rw [BitVec.getLsbD_of_ge _ k hk, BitVec.getLsbD_of_ge _ k hk]

/-! ### The statements -/

/-- Settles O20: each path writes its own constants; the count and the applied delay of the arm path fit their ports. -/
theorem cdSelectResult : Obligations.CdSelectResult := by
  intro secs a s
  obtain ⟨hoor, hill⟩ := cdSelectOut_status a (Outputs.draw s.draws) secs
  refine ⟨_, exec_eq_evaluated (.cdSelect secs a) s, rfl, rfl, rfl, hoor, hill, ?disable, ?arm, ?second, ?minute⟩ <;>
    simp only [evaluated_outputs, outputsOf]
  case disable =>
    intro h
    rw [cdSelectOut_of_neg a _ h]
    exact ⟨rfl, cdDisableOut_ctrl2O a _, rfl, rfl, cdDisableOut_appliedO_toInt a _, rfl, rfl⟩
  case arm =>
    intro h
    rw [cdSelectOut_of_nonneg a _ h]
    exact ⟨rfl, cdArmOut_ctrl2O a _, rfl, cdArmOut_tcntO_toNat a _ h, cdArmOut_appliedO_toInt a _ h⟩
  case second =>
    intro h hlt
    rw [cdSelectOut_of_nonneg a _ h]
    exact cdArmOut_resolution_of_lt a _ hlt
  case minute =>
    intro h
    rw [cdSelectOut_of_nonneg a _ (by omega)]
    exact cdArmOut_resolution_of_ge a _ h

/-- Settles O21: the applied delay is the count times the unit that `res_min` names, and the bits of `ctrl2` are those of
the device's fields. -/
theorem cdSelectLaws : Obligations.CdSelectLaws := by
  intro secs a s
  refine ⟨_, exec_eq_evaluated (.cdSelect secs a) s, ?arm, ?disable⟩ <;> simp only [evaluated_outputs, outputsOf]
  case arm =>
    intro h
    rw [cdSelectOut_of_nonneg a _ h, cdArmOut_appliedO_toInt a _ h, cdArmOut_tcntO_toNat a _ h]
    obtain ⟨h0, hmax⟩ := applied_range h
    obtain ⟨hflags, henable, htest, -⟩ := cdArmOut_fields secs.toInt a (Outputs.draw s.draws)
    refine ⟨h0, hmax, ?second, ?minute, henable, htest, (flagBits_eq_zero_iff _).1 hflags⟩
    case second =>
      intro hres
      have hlt : secs.toInt < 270 := Int.not_le.1 (of_decide_eq_false hres)
      exact (if_pos hlt).symm
    case minute =>
      intro hres
      have hge : 270 ≤ secs.toInt := of_decide_eq_true hres
      rw [applied, if_neg (Int.not_lt.2 hge), Int.mul_ediv_cancel_left _ (by decide)]
  case disable =>
    intro h
    rw [cdSelectOut_of_neg a _ h]
    obtain ⟨hflags, henable, -, -⟩ := cdDisableOut_fields a (Outputs.draw s.draws)
    exact ⟨cdDisableOut_appliedO_toInt a _, henable, (flagBits_eq_zero_iff _).1 hflags⟩

/-- Settles O22: for requests that are not negative the port carries the applied delay of the statement's own arithmetic. -/
theorem appliedDelayLaws : Obligations.AppliedDelayLaws := by
  intro secs secs' a a' s s'
  refine ⟨_, _, exec_eq_evaluated (.cdSelect secs a) s, exec_eq_evaluated (.cdSelect secs' a') s', ?met, ?near, ?mono⟩ <;>
    simp only [evaluated_outputs, outputsOf]
  case met =>
    intro h
    rw [cdSelectOut_appliedO_toInt a _ h]
    exact applied_eq_self_iff
  case near =>
    intro h hmax
    rw [cdSelectOut_appliedO_toInt a _ (by omega)]
    exact applied_near h hmax
  case mono =>
    intro h hle
    rw [cdSelectOut_appliedO_toInt a _ h, cdSelectOut_appliedO_toInt a' _ (h.trans hle)]
    exact applied_mono hle

/-- Settles O23: the flag bits of the mask are its only clear ones. -/
theorem ctrl2AckResult : Obligations.Ctrl2AckResult := by
  intro a s
  obtain ⟨h3, h2⟩ := (flagBits_eq_zero_iff _).1 (flagBits_cdBase a)
  exact ⟨_, exec_eq_evaluated (.ctrl2Ack a) s, rfl, rfl, rfl, h2, h3, fun _ hk2 hk3 => getLsbD_cdBase_of_ne a hk2 hk3,
    rfl, rfl⟩

/-- Settles O24: both operations mask their operand alike, and each path of CD_SELECT goes on from that byte. -/
theorem ackIsCountdownBase : Obligations.AckIsCountdownBase := by
  intro a secs s s'
  refine ⟨_, _, exec_eq_evaluated (.ctrl2Ack a) s, exec_eq_evaluated (.cdSelect secs a) s', rfl, rfl, ?disable, ?arm⟩
  case disable => exact fun h => congrArg Outputs.ctrl2O (cdSelectOut_of_neg a (Outputs.draw s'.draws) h)
  case arm => exact fun h => congrArg Outputs.ctrl2O (cdSelectOut_of_nonneg a (Outputs.draw s'.draws) h)

end Sys2Proof.Machine
end

section
/-! The family of the host's sequences: which calls a failed transaction ends and which go on (spec/43_host_sequences.md R100
to R102), and what the six public operations write, read and return (R104 to R110) where no other caller writes. -/

namespace Sys2Proof.Machine

open Sys2Proof.Claims

/-! ### Transactions that fail or never end -/

/-- Where the host stands after a failed transaction: the call ends with its error, or goes on with `next` (R100). -/
def State.afterFailure (s : State) (act next : Activity) : State :=
  if act.propagates then s.finish act .transportError else s.resume next

section failure
variable (s : State) (act next : Activity)

@[simp] theorem afterFailure_outputs : (s.afterFailure act next).outputs = s.outputs := by
  unfold State.afterFailure; split <;> rfl
@[simp] theorem afterFailure_draws : (s.afterFailure act next).draws = s.draws := by
  unfold State.afterFailure; split <;> rfl
@[simp] theorem afterFailure_device : (s.afterFailure act next).device = s.device := by
  unfold State.afterFailure; split <;> rfl
@[simp] theorem afterFailure_busLog : (s.afterFailure act next).busLog = s.busLog := by
  unfold State.afterFailure; split <;> rfl

variable {act}

theorem afterFailure_of_propagates (h : act.propagates = true) :
    s.afterFailure act next = s.finish act .transportError := if_pos h

theorem afterFailure_of_swallows (h : act.propagates = false) : s.afterFailure act next = s.resume next := by
  simp [State.afterFailure, h]

end failure

section failing
variable {s : State} {act : Activity} {reg : Nat}

theorem runRead_error {n : Nat} (hd : InDevice reg n) (hb : s.nextOutcome = .error) (x : Nat) :
    runRead act reg n x s = .next ((s.afterReadTransaction reg n false).afterFailure act
      (act.assign x (bytesNumber (anyBytes s.draws reg n)))) := by
  rw [runRead, if_pos hd, hb]
  exact (apply_ite Host.Outcome.next ..).symm

theorem runWrite_error {bytes : List Byte} (hd : InDevice reg bytes.length) (hb : s.nextOutcome = .error) :
    runWrite act reg bytes s =
      .next ((s.afterWriteTransaction reg bytes false).afterFailure act act.onward) := by
  rw [runWrite, if_pos hd, hb]
  exact (apply_ite Host.Outcome.next ..).symm

theorem runRead_never {n : Nat} (hd : InDevice reg n) (hb : s.nextOutcome = .never) (x : Nat) :
    runRead act reg n x s = .fault .stuckTransaction := by
  rw [runRead, if_pos hd, hb]

theorem runWrite_never {bytes : List Byte} (hd : InDevice reg bytes.length) (hb : s.nextOutcome = .never) :
    runWrite act reg bytes s = .fault .stuckTransaction := by
  rw [runWrite, if_pos hd, hb]

end failing

/-- Settles O41: a line whose transaction never ends is the fault, whatever other callers wrote before it. -/
theorem stuckTransactionHasNoNextStep : Obligations.StuckTransactionHasNoNextStep := by
  intro s act l reg n x es ha hb
  have hb' : s.landOthers.nextOutcome = .never := landOthers_nextOutcome.trans hb
  exact ⟨fun hl hd => (step_at ha hl).trans (runRead_never hd hb' x),
    fun hl hd => (step_at ha hl).trans (runWrite_never (by simpa using hd) hb')⟩

/-- Settles O40: the policy is read off each call, and a failed transaction leaves the host as `afterFailure` says. -/
theorem transportErrorPolicy : Obligations.TransportErrorPolicy := by
  have hpolicy (p : ErrPolicy) : (p == .firstFailure) = decide (p = .firstFailure) := by cases p <;> rfl
  refine ⟨fun _ => rfl, fun _ _ => rfl, fun p _ _ _ => hpolicy p, fun p _ => hpolicy p, hpolicy, hpolicy, ?start, ?failed⟩
  case start =>
    rintro s c hf ⟨ha, hr⟩
    exact ⟨_, step_start ha hr, by simp [hf], rfl⟩
  case failed =>
    intro s act l reg n x es ha hb
    have hb' : s.landOthers.nextOutcome = .error := landOthers_nextOutcome.trans hb
    refine ⟨fun hl hd => ⟨_, (step_at ha hl).trans (runRead_error hd hb' x), ?_⟩,
      fun hl hd => ⟨_, (step_at ha hl).trans (runWrite_error (by simpa using hd) hb'), ?_⟩⟩
    · refine ⟨by simp, by simp, by simp, by simp, fun hp => ?_, fun hp => ?_⟩
      · simp [afterFailure_of_propagates _ _ hp]
      · simp [afterFailure_of_swallows _ _ hp]
    · refine ⟨by simp, by simp, ?_, by simp, fun hp => ?_, fun hp => ?_⟩
      · simpa using losesRegisters_loseBytes s.landOthers.device reg es.length
      · simp [afterFailure_of_propagates _ _ hp]
      · simp [afterFailure_of_swallows _ _ hp]

/-! ### Runs of a host that no other caller disturbs, with the transactions they make -/

/-- The registers a transfer names (R47). -/
def Transfer.registers : Transfer → List Nat
  | .read reg n => List.range' reg n
  | .write reg bytes => List.range' reg bytes.length

/-- `k` steps lead from `s` to `t`. They make these transfers in this order, with success or not, and change no register but
those the transfers name. -/
structure Makes (made : List (Transfer × Bool)) (k : Nat) (s t : State) : Prop where
  run : run k s = .next t
  devAddr : t.host.config.devAddr = s.host.config.devAddr
  log : t.busLog = s.busLog ++ made.map fun m => s.host.event m.1 m.2
  keeps : KeepsOtherRegisters s.device t.device (made.flatMap fun m => m.1.registers)

section makes
variable {made made' : List (Transfer × Bool)} {j k : Nat} {s t u : State}

theorem Makes.trans (h : Makes made j s t) (h' : Makes made' k t u) : Makes (made ++ made') (j + k) s u where
  run := (run_add j k h.run).trans h'.run
  devAddr := h'.devAddr.trans h.devAddr
  log := by simp [h'.log, h.log, Controller.event, h.devAddr]
  keeps a ha := by
    simp only [List.flatMap_append, List.mem_append, not_or] at ha
    exact (h'.keeps a ha.2).trans (h.keeps a ha.1)

/-- What is known of a register stays known through transfers that do not name it. -/
theorem Makes.stays_known (h : Makes made k s t) {a : Nat} {b : Byte} (hb : lookup s.device.regs a = some b)
    (ha : a ∉ made.flatMap fun m => m.1.registers) : lookup t.device.regs a = some b :=
  (h.keeps a ha).trans hb

theorem Makes.keeps_others (h : Makes made k s t) {W : List Nat} (hW : (made.flatMap fun m => m.1.registers) ⊆ W) :
    KeepsOtherRegisters s.device t.device W :=
  fun a ha => h.keeps a fun hm => ha (hW hm)

/-- A step that makes no transaction. -/
theorem makes_nothing (h : step s = .next t) (hlog : t.busLog = s.busLog) (hdev : t.device = s.device) :
    Makes [] 1 s t where
  run := run_succ h
  devAddr := step_devAddr h
  log := by simp [hlog]
  keeps a _ := by rw [hdev]

/-- A step that makes one transaction. -/
theorem makes_one {tr : Transfer} {ok : Bool} (h : step s = .next t)
    (hlog : t.busLog = s.busLog ++ [s.host.event tr ok]) (hdev : KeepsOtherRegisters s.device t.device tr.registers) :
    Makes [(tr, ok)] 1 s t where
  run := run_succ h
  devAddr := step_devAddr h
  log := hlog
  keeps := by simpa using hdev

end makes

theorem afterRead_keeps (s : State) (reg n : Nat) (ok : Bool) :
    KeepsOtherRegisters s.device (s.afterReadTransaction reg n ok).device (Transfer.read reg n).registers :=
  fun a ha => lookup_afterReadTransaction s reg n ok a (by simp only [Transfer.registers, List.mem_range'_1] at ha; omega)

theorem afterWrite_keeps (s : State) (reg : Nat) (bytes : List Byte) (ok : Bool) :
    KeepsOtherRegisters s.device (s.afterWriteTransaction reg bytes ok).device (Transfer.write reg bytes).registers :=
  fun a ha =>
    lookup_afterWriteTransaction s reg bytes ok a (by simp only [Transfer.registers, List.mem_range'_1] at ha; omega)

/-! ### The lines of a call that no other caller disturbs -/

/-- The host runs `act` and no call waits; no other caller's writes are left to land, the coming transactions have these
outcomes, and these are the outputs and the pins configured as inputs. -/
structure State.Runs (s : State) (act : Activity) (bus : List BusOutcome) (o : Outputs) (pins : List Int) : Prop where
  activity : s.host.activity = some act
  requests : s.host.requests = []
  others : s.others = []
  bus : s.bus = bus
  outputs : s.outputs = o
  inputPins : s.host.inputPins = pins

section start
variable {s : State} {c : HostCall}

theorem makes_start (hs : s.Ready c) (ho : s.others = []) : Makes [] 1 s (s.startCall c []) := by
  obtain ⟨ha, hr⟩ := hs
  have h := step_start ha hr
  rw [landOthers_of_none s ho] at h
  exact makes_nothing h (by simp) (by simp)

theorem runs_start {bus : List BusOutcome} (hf : c.fits = true) (ho : s.others = []) (hb : s.bus = bus) :
    (s.startCall c []).Runs (Activity.start s.host.config.errPolicy c) bus s.outputs s.host.inputPins := by
  constructor <;> simp [hf, ho, hb]

/-- Where the host goes on past these transactions, each succeeds or its failure ends no call that follows the policy (R100). -/
theorem goesOn_past {oks : List Bool} (h : GoesOn s oks) {ok : Bool} (hok : ok ∈ oks) :
    (s.host.config.errPolicy == .firstFailure) = false ∨ ok = true :=
  h.imp (fun h => by rw [h]; rfl) fun h => h ok hok

end start

section runs
variable {s : State} {act : Activity} {bus : List BusOutcome} {o : Outputs} {pins : List Int} {l : Option Nat} {ok : Bool}
  {reg : Nat}

theorem State.Runs.block (h : s.Runs act bus o pins) {m : Mnemonic} {args : List (InPort × Expr)} {i : Instr}
    (hl : act.program[act.line]? = some ⟨l, .block m args⟩)
    (ha : m.assemble (args.map fun a => (a.1, evalExpr o act.vars a.2)) = some i) :
    ∃ t, Makes [] 1 s t ∧ t.Runs act.onward bus (outputsOf i (Outputs.draw s.draws)) pins :=
  ⟨_, makes_nothing (step_block h.activity h.others hl (h.outputs ▸ ha)) rfl rfl, rfl, h.requests, h.others, h.bus, rfl,
    h.inputPins⟩

/-- A line that only moves the host to another activity. -/
theorem State.Runs.moves (h : s.Runs act bus o pins) {next : Activity} (hs : step s = .next (s.resume next)) :
    Makes [] 1 s (s.resume next) ∧ (s.resume next).Runs next bus o pins :=
  ⟨makes_nothing hs rfl rfl, rfl, h.requests, h.others, h.bus, h.outputs, h.inputPins⟩

theorem State.Runs.goto (h : s.Runs act bus o pins) {g k : Nat} (hl : act.program[act.line]? = some ⟨l, .goto g⟩)
    (hk : Program.find act.program g = some k) :
    Makes [] 1 s (s.resume { act with line := k }) ∧
      (s.resume { act with line := k }).Runs { act with line := k } bus o pins :=
  h.moves (step_goto h.activity h.others hl hk)

theorem State.Runs.ifGoto (h : s.Runs act bus o pins) {c : Cond} {g k : Nat}
    (hl : act.program[act.line]? = some ⟨l, .ifGoto c g⟩) (hk : Program.find act.program g = some k) {next : Activity}
    (hnext : (if holds o act.vars s.host.config.intPin c then { act with line := k } else act.onward) = next) :
    Makes [] 1 s (s.resume next) ∧ (s.resume next).Runs next bus o pins :=
  h.moves (by rw [step_ifGoto h.activity h.others hl hk, h.outputs, hnext])

theorem State.Runs.configure (h : s.Runs act bus o pins) (hl : act.program[act.line]? = some ⟨l, .configureAsInput⟩) :
    ∃ t, Makes [] 1 s t ∧ t.Runs act.onward bus o s.host.configuredPins :=
  ⟨_, makes_nothing (step_configure h.activity h.others hl) rfl rfl, rfl, h.requests, h.others, h.bus, h.outputs, rfl⟩

/-- A read of which the call does not end: the variable takes the bytes the host is left with (R101). -/
theorem State.Runs.read (h : s.Runs act (outcome ok :: bus) o pins) {n x : Nat}
    (hl : act.program[act.line]? = some ⟨l, .rd reg n x⟩) (hd : InDevice reg n) (hp : act.propagates = false ∨ ok = true) :
    ∃ t, Makes [(.read reg n, ok)] 1 s t ∧
      t.Runs (act.assign x (bytesNumber (s.readResult reg n ok))) bus o pins :=
  ⟨_, makes_one (step_rd_any h.activity h.others hl hd h.bus hp) rfl (afterRead_keeps s reg n ok), rfl, h.requests,
    h.others, congrArg List.tail h.bus, h.outputs, h.inputPins⟩

/-- A read whose failure ends the call leaves the device alone (R100). -/
theorem State.Runs.read_fails (h : s.Runs act (.error :: bus) o pins) {n x : Nat}
    (hl : act.program[act.line]? = some ⟨l, .rd reg n x⟩) (hd : InDevice reg n) (hp : act.propagates = true) :
    ∃ t, Makes [(.read reg n, false)] 1 s t ∧ t.Returned .transportError ∧ t.outputs = o ∧ t.device = s.device :=
  have hs := (step_rd_error h.activity h.others hl hd (nextOutcome_cons h.bus)).trans (if_pos hp)
  ⟨_, makes_one hs rfl (afterRead_keeps s reg n false), ⟨rfl, h.requests, rfl⟩, h.outputs, rfl⟩

/-- A write of which the call does not end; if it succeeds its registers take the bytes. -/
theorem State.Runs.write (h : s.Runs act (outcome ok :: bus) o pins) {es : List Expr} {bytes : List Byte}
    (hl : act.program[act.line]? = some ⟨l, .wr reg es⟩)
    (hbytes : (es.map fun e => BitVec.ofInt 8 (evalExpr o act.vars e)) = bytes) (hd : InDevice reg es.length)
    (hp : act.propagates = false ∨ ok = true) :
    ∃ t, Makes [(.write reg bytes, ok)] 1 s t ∧ t.Runs act.onward bus o pins ∧
      (ok = true → TakesBytes s.device t.device reg bytes) := by
  obtain rfl := h.outputs
  obtain rfl := hbytes
  refine ⟨_, makes_one (step_wr_any h.activity h.others hl hd h.bus hp) rfl (afterWrite_keeps s reg _ ok),
    ⟨rfl, h.requests, h.others, congrArg List.tail h.bus, rfl, h.inputPins⟩, ?_⟩
  rintro rfl
  exact takesBytes_writeBytes s.device (by simpa using hd)

/-- A write of one byte of which the call does not end. -/
theorem State.Runs.writeByte (h : s.Runs act (outcome ok :: bus) o pins) {e : Expr} {b : Byte}
    (hl : act.program[act.line]? = some ⟨l, .wr reg [e]⟩) (hbyte : BitVec.ofInt 8 (evalExpr o act.vars e) = b)
    (hh : Holds reg) (hp : act.propagates = false ∨ ok = true) :
    ∃ t, Makes [(.write reg [b], ok)] 1 s t ∧ t.Runs act.onward bus o pins ∧
      (ok = true → lookup t.device.regs reg = some b) := by
  obtain ⟨t, hm, ht, hw⟩ := h.write hl (congrArg (· :: []) hbyte) (show reg + 1 ≤ 16 from hh) hp
  exact ⟨t, hm, ht, fun hok => (hw hok).1 0 b rfl⟩

/-- A write whose failure ends the call (R100); none of its registers is known afterwards (93 U6). -/
theorem State.Runs.write_fails (h : s.Runs act (.error :: bus) o pins) {es : List Expr} {bytes : List Byte}
    (hl : act.program[act.line]? = some ⟨l, .wr reg es⟩)
    (hbytes : (es.map fun e => BitVec.ofInt 8 (evalExpr o act.vars e)) = bytes) (hd : InDevice reg es.length)
    (hp : act.propagates = true) :
    ∃ t, Makes [(.write reg bytes, false)] 1 s t ∧ t.Returned .transportError ∧
      LosesRegisters s.device t.device reg bytes.length := by
  obtain rfl := h.outputs
  obtain rfl := hbytes
  have hs := (step_wr_error h.activity h.others hl hd (nextOutcome_cons h.bus)).trans (if_pos hp)
  exact ⟨_, makes_one hs rfl (afterWrite_keeps s reg _ false), ⟨rfl, h.requests, rfl⟩,
    losesRegisters_loseBytes s.device reg _⟩

theorem State.Runs.ret (h : s.Runs act bus o pins) {e : RetExpr} (hl : act.program[act.line]? = some ⟨l, .ret e⟩) :
    ∃ t, Makes [] 1 s t ∧ t.Returned (retResult o act.vars e) ∧ t.outputs = o ∧ t.host.inputPins = pins := by
  obtain rfl := h.outputs
  exact ⟨_, makes_nothing (step_ret h.activity h.others hl) rfl rfl, ⟨rfl, h.requests, rfl⟩, rfl, h.inputPins⟩

end runs

/-- Settles O55: three writes of constants, no one of which names a register of another. -/
theorem disableAlarmSequence : Obligations.DisableAlarmSequence := by
  intro s ok1 ok2 ok3 rest hs ho hg hb
  have h1 := runs_start (c := .disableAlarm) rfl ho hb
  obtain ⟨t2, m2, h2, w2⟩ := h1.write (bytes := [0x80, 0x80, 0x80, 0x80]) rfl rfl (by decide) (goesOn_past hg (by simp))
  obtain ⟨t3, m3, h3, w3⟩ := h2.writeByte (b := 0x00) rfl rfl (by decide) (goesOn_past hg (by simp))
  obtain ⟨t4, m4, h4, w4⟩ := h3.writeByte (b := 0x00) rfl rfl (by decide) (goesOn_past hg (by simp))
  obtain ⟨t5, m5, h5, o5, -⟩ := h4.ret rfl
  have m45 := m4.trans m5
  have m35 := m3.trans m45
  have hall := (makes_start hs ho).trans (m2.trans m35)
  refine ⟨t5, hall.run, h5, o5, hall.log, fun hok k hk => ?_, fun hok => ?_, fun hok => ?_, ?_⟩
  · refine m35.stays_known ((w2 hok).1 k 0x80 (List.getElem?_replicate_of_lt (n := 4) hk)) ?_
    show 9 + k ∉ [0x0E, 0x01]
    simp
    omega
  · exact m45.stays_known (w3 hok) (show 0x0E ∉ [0x01] by decide)
  · exact m5.stays_known (w4 hok) (show 0x01 ∉ [] by decide)
  · exact hall.keeps_others (show [0x09, 0x0A, 0x0B, 0x0C, 0x0E, 0x01] ⊆ _ by decide)

/-! ### Calls that read register 0x01 first -/

/-- The byte that a read of register 0x01 leaves the host with: the register's, or a free one where the read failed (R101). -/
def State.control2Read (s : State) (ok : Bool) : Byte :=
  if ok then s.device.readByte s.draws 0x01 else Config.anyRegister s.draws 0x01

theorem readResult_control2 (s : State) (ok : Bool) : s.readResult 0x01 1 ok = [s.control2Read ok] := by
  cases ok <;> rfl

/-- A call whose first two lines are the read of register 0x01 and a block operation, where a failed read does not end it: it
goes on with the outputs of that operation. -/
theorem runs_after_control2_read {s : State} {c : HostCall} {ok : Bool} {bus : List BusOutcome} {m : Mnemonic}
    {args : List (InPort × Expr)} {i : Instr} (hs : s.Ready c) (hf : c.fits = true) (ho : s.others = [])
    (hb : s.bus = outcome ok :: bus) (hp : propagatesErrors s.host.config.errPolicy c = false ∨ ok = true)
    (hrd : (expand c)[0]? = some (plain (.rd 0x01 1 0))) (hblock : (expand c)[1]? = some (plain (.block m args)))
    (ha : m.assemble (args.map fun a =>
      (a.1, evalExpr s.outputs [(0, (bytesNumber [s.control2Read ok] : Int))] a.2)) = some i) :
    ∃ t draw, Makes [(.read 0x01 1, ok)] 3 s t ∧
      t.Runs { Activity.start s.host.config.errPolicy c with
        line := 2, vars := [(0, (bytesNumber [s.control2Read ok] : Int))] } bus (outputsOf i (Outputs.draw draw))
        s.host.inputPins := by
  have h1 := runs_start hf ho hb
  obtain ⟨t2, m2, h2⟩ := h1.read hrd (by decide) hp
  have hr : (s.startCall c []).readResult 0x01 1 ok = [s.control2Read ok] := by
    rw [readResult_control2]; simp [State.control2Read]
  rw [hr] at h2
  obtain ⟨t3, m3, h3⟩ := h2.block hblock ha
  exact ⟨t3, t2.draws, (makes_start hs ho).trans (m2.trans m3), h3⟩

/-- Settles O53: the read, CTRL2_ACK of what it left, and the write of `y`. -/
theorem clearAlarmFlagSequence : Obligations.ClearAlarmFlagSequence := by
  intro s ok1 ok2 rest hs ho hg hb
  obtain ⟨t3, draw, m3, h3⟩ := runs_after_control2_read hs rfl ho hb (goesOn_past hg (by simp)) rfl rfl
    (assemble_ctrl2Ack (s.control2Read ok1))
  obtain ⟨t4, m4, h4, w4⟩ := h3.writeByte rfl (ofInt_toNat _) (by decide) (goesOn_past hg (by simp))
  obtain ⟨t5, m5, h5, -⟩ := h4.ret rfl
  have hall := m3.trans (m4.trans m5)
  refine ⟨s.control2Read ok1, t5, fun hok => if_pos hok, fun hok => if_neg (by simp [hok]), hall.run, h5, hall.log,
    fun hok => ?_, ?_⟩
  · exact m5.stays_known (w4 hok) (show 0x01 ∉ [] by decide)
  · exact hall.keeps_others (show [0x01, 0x01] ⊆ _ by decide)

section countdown
variable {s : State} {n : Int} {ok1 ok2 ok3 ok4 : Bool} {rest : List BusOutcome} {a o : Outputs}
  (hf : InPort.secsI.Fits n) (hs : s.Ready (.setCountdownAlarm n)) (ho : s.others = [])
include hf hs ho

/-- The arm path (R107). What it writes does not depend on the draw `o`. -/
theorem setCountdownAlarm_arms (hn : 0 ≤ n) (hg : GoesOn s [ok1, ok2, ok3, ok4])
    (hb : s.bus = outcome ok1 :: outcome ok2 :: outcome ok3 :: outcome ok4 :: rest)
    (ha : a = cdArmOut n (s.control2Read ok1) o) :
    ∃ t, run 8 s = .next t ∧ t.Returned (.value a.appliedO.toInt) ∧
      t.Logged s.busLog [s.host.event (.read 0x01 1) ok1, s.host.event (.write 0x0E [a.tctlO]) ok2,
        s.host.event (.write 0x0F [a.tcntO]) ok3, s.host.event (.write 0x01 [a.ctrl2O]) ok4] ∧
      (ok2 = true → t.device.known .timerControl = some a.tctlO) ∧
      (ok3 = true → t.device.known .timerCount = some a.tcntO) ∧
      (ok4 = true → t.device.known .control2 = some a.ctrl2O) ∧
      KeepsOtherRegisters s.device t.device [0x01, 0x0E, 0x0F] := by
  subst ha
  obtain ⟨t3, draw, m3, h3⟩ := runs_after_control2_read hs (decide_eq_true hf) ho hb (goesOn_past hg (by simp)) rfl rfl
    (assemble_cdSelect n (s.control2Read ok1) hf)
  rw [outputsOf, cdSelectOut_arm _ _ hf hn] at h3
  obtain ⟨m4, h4⟩ := h3.ifGoto rfl rfl (if_pos rfl)
  obtain ⟨t5, m5, h5, w5⟩ := h4.writeByte rfl (ofInt_toNat _) (by decide) (goesOn_past hg (by simp))
  obtain ⟨t6, m6, h6, w6⟩ := h5.writeByte rfl (ofInt_toNat _) (by decide) (goesOn_past hg (by simp))
  obtain ⟨t7, m7, h7, w7⟩ := h6.writeByte rfl (ofInt_toNat _) (by decide) (goesOn_past hg (by simp))
  obtain ⟨t8, m8, h8, -⟩ := h7.ret rfl
  have m78 := m7.trans m8
  have m68 := m6.trans m78
  have hall := m3.trans (m4.trans (m5.trans m68))
  refine ⟨t8, hall.run, h8, hall.log, fun hok => ?_, fun hok => ?_, fun hok => ?_, ?_⟩
  · exact m68.stays_known (w5 hok) (show 0x0E ∉ [0x0F, 0x01] by decide)
  · exact m78.stays_known (w6 hok) (show 0x0F ∉ [0x01] by decide)
  · exact m8.stays_known (w7 hok) (show 0x01 ∉ [] by decide)
  · exact hall.keeps_others (show [0x01, 0x0E, 0x0F, 0x01] ⊆ _ by decide)

/-- The disable path (R107). What it writes does not depend on the draw `o`. -/
theorem setCountdownAlarm_disables (hn : n < 0) (hg : GoesOn s [ok1, ok2, ok3])
    (hb : s.bus = outcome ok1 :: outcome ok2 :: outcome ok3 :: rest) (ha : a = cdDisableOut (s.control2Read ok1) o) :
    ∃ t, run 7 s = .next t ∧ t.Returned (.value (-1)) ∧
      t.Logged s.busLog [s.host.event (.read 0x01 1) ok1, s.host.event (.write 0x01 [a.ctrl2O]) ok2,
        s.host.event (.write 0x0E [0x03]) ok3] ∧
      (ok2 = true → t.device.known .control2 = some a.ctrl2O) ∧
      (ok3 = true → t.device.known .timerControl = some 0x03) ∧
      KeepsOtherRegisters s.device t.device [0x01, 0x0E] := by
  subst ha
  obtain ⟨t3, draw, m3, h3⟩ := runs_after_control2_read hs (decide_eq_true hf) ho hb (goesOn_past hg (by simp)) rfl rfl
    (assemble_cdSelect n (s.control2Read ok1) hf)
  rw [outputsOf, cdSelectOut_disable _ _ hf hn] at h3
  obtain ⟨m4, h4⟩ := h3.ifGoto rfl rfl (if_neg Bool.false_ne_true)
  obtain ⟨t5, m5, h5, w5⟩ := h4.writeByte rfl (ofInt_toNat _) (by decide) (goesOn_past hg (by simp))
  obtain ⟨t6, m6, h6, w6⟩ := h5.writeByte (b := 0x03) rfl rfl (by decide) (goesOn_past hg (by simp))
  obtain ⟨t7, m7, h7, -⟩ := h6.ret rfl
  have m67 := m6.trans m7
  have hall := m3.trans (m4.trans (m5.trans m67))
  refine ⟨t7, hall.run, h7, hall.log, fun hok => ?_, fun hok => ?_, ?_⟩
  · exact m67.stays_known (w5 hok) (show 0x01 ∉ [0x0E] by decide)
  · exact m7.stays_known (w6 hok) (show 0x0E ∉ [] by decide)
  · exact hall.keeps_others (show [0x01, 0x01, 0x0E] ⊆ _ by decide)

end countdown

/-- Settles O51: the sign of the request chooses the path, and CD_SELECT gives what that path writes whatever the draw. -/
theorem setCountdownAlarmSequence : Obligations.SetCountdownAlarmSequence := by
  intro s n ok1 ok2 ok3 ok4 rest hf hs ho hg hb
  refine ⟨s.control2Read ok1, _, fun hok => if_pos hok, fun hok => if_neg (by simp [hok]),
    exec_eq_evaluated (.cdSelect (BitVec.ofInt 32 n) (s.control2Read ok1)) s, fun hn => ?arm, fun hn => ?disable⟩
  case arm => exact setCountdownAlarm_arms hf hs ho hn hg hb (cdSelectOut_arm _ _ hf hn)
  case disable =>
    have hg' : GoesOn s [ok1, ok2, ok3] := hg.imp_right fun h ok hok => h ok (List.mem_append_left [ok4] hok)
    exact setCountdownAlarm_disables hf hs ho hn hg' hb (cdSelectOut_disable _ _ hf hn)

/-- The four requests of R110 that are not negative: the delay applied, timer control and the count (R91 to R94). -/
theorem cdArmOut_examples (b : Byte) (o : Outputs) :
    ∀ e ∈ [((100 : Int), (100 : Int), (0x82 : Byte), (100 : Byte)), (260, 255, 0x82, 255), (300, 300, 0x83, 5),
      (20000, 15300, 0x83, 255)],
      (InPort.secsI.Fits e.1 ∧ 0 ≤ e.1) ∧ (cdArmOut e.1 b o).appliedO.toInt = e.2.1 ∧ (cdArmOut e.1 b o).tctlO = e.2.2.1 ∧
        (cdArmOut e.1 b o).tcntO = e.2.2.2 := by
  simp only [cdArmOut, Outputs.clearStatus]
  decide

/-- Settles O52: the request -1 takes the disable path, and the four others the arm path with these outputs. -/
theorem setCountdownAlarmExamples : Obligations.SetCountdownAlarmExamples := by
  intro s n rest hs ho hb
  let o := Outputs.draw s.draws
  refine ⟨?negative, fun r mode count hmem => ?armed⟩
  case negative =>
    rintro rfl
    obtain ⟨t, hrun, hret, -, hctrl2, htctl, -⟩ := setCountdownAlarm_disables (by decide) hs ho (by decide)
      (ok1 := true) (ok2 := true) (ok3 := true) (.inr (by decide)) hb (a := cdDisableOut (s.control2Read true) o) rfl
    exact ⟨t, _, hrun, hret, htctl rfl, hctrl2 rfl, (cdDisableOut_fields _ o).2.1⟩
  case armed =>
    obtain ⟨⟨hf, hn⟩, happlied, htctl, htcnt⟩ := cdArmOut_examples (s.control2Read true) o _ hmem
    obtain ⟨t, hrun, hret, -, hctl, hcnt, -⟩ := setCountdownAlarm_arms hf hs ho hn
      (ok1 := true) (ok2 := true) (ok3 := true) (ok4 := true) (.inr (by decide)) hb rfl
    rw [happlied] at hret
    rw [htctl] at hctl
    rw [htcnt] at hcnt
    exact ⟨t, hrun, hret, hctl rfl, hcnt rfl⟩

/-! ### The pin and the three writes that make the device ready (R104, R134) -/

/-- The first lines: the pin becomes an input exactly if it is valid, and both ways lead to the writes. -/
theorem initializeRtc_configures {s : State} {scl sda : Int} {pin : Option Int}
    {bus : List BusOutcome} (hs : s.Ready (.initializeRtc scl sda pin)) (ho : s.others = []) (hb : s.bus = bus) :
    ∃ t pins, Makes [] 3 s t ∧
      t.Runs { Activity.start s.host.config.errPolicy (.initializeRtc scl sda pin) with line := 3 } bus s.outputs pins ∧
      ∀ p, p ∈ pins ↔ p ∈ s.host.inputPins ∨ (pin = some p ∧ Config.pinValid p = true) := by
  have m1 := makes_start hs ho
  have h1 := runs_start (c := .initializeRtc scl sda pin) rfl ho hb
  cases hv : pinIsValid pin with
  | true =>
    obtain ⟨m2, h2⟩ := h1.ifGoto rfl rfl (if_pos hv)
    obtain ⟨t3, m3, h3⟩ := h2.configure rfl
    refine ⟨t3, _, m1.trans (m2.trans m3), h3, fun p => mem_configuredPins.trans (or_congr_right ?_)⟩
    exact ⟨by rintro rfl; exact ⟨rfl, hv⟩, And.left⟩
  | false =>
    obtain ⟨m2, h2⟩ := h1.ifGoto rfl rfl (if_neg (by simp [holds, hv, HostCall.fits, ControllerConfig.forCall]))
    obtain ⟨m3, h3⟩ := h2.goto rfl rfl
    refine ⟨_, _, m1.trans (m2.trans m3), h3, fun p => (or_iff_left ?_).symm⟩
    rintro ⟨rfl, hp⟩
    exact Bool.false_ne_true (hv.symm.trans hp)

/-- Settles O47: after the pin, three writes of constants. -/
theorem initializeSequence : Obligations.InitializeSequence := by
  intro s scl sda pin ok1 ok2 ok3 rest hs ho hg hb
  obtain ⟨t3, pins, m3, h3, hpins⟩ := initializeRtc_configures hs ho hb
  obtain ⟨t4, m4, h4, -⟩ := h3.writeByte (b := 0x00) rfl rfl (by decide) (goesOn_past hg (by simp))
  obtain ⟨t5, m5, h5, w5⟩ := h4.writeByte (b := 0x00) rfl rfl (by decide) (goesOn_past hg (by simp))
  obtain ⟨t6, m6, h6, w6⟩ := h5.writeByte (b := 0x03) rfl rfl (by decide) (goesOn_past hg (by simp))
  obtain ⟨t7, m7, h7, o7, p7⟩ := h6.ret rfl
  have m67 := m6.trans m7
  have hall := m3.trans (m4.trans (m5.trans m67))
  rw [← p7] at hpins
  refine ⟨t7, hall.run, h7, o7, hall.log, fun p hp hv => (hpins p).2 (.inr ⟨hp, hv⟩), fun p => (hpins p).1, fun hok => ?_,
    fun hok => ?_, ?_⟩
  · exact m67.stays_known (w5 hok) (show 0x00 ∉ [0x0E] by decide)
  · exact m7.stays_known (w6 hok) (show 0x0E ∉ [] by decide)
  · exact hall.keeps_others (show [0x00, 0x00, 0x0E] ⊆ _ by decide)

/-! ### The two calls that always report a failure (R100, R105, R106) -/

/-- The time on the ports after TB_UNPACK, on plain numbers (R78 to R81). -/
theorem calendar_tbUnpackOut (img : Image) (s : State) :
    (tbUnpackOut img (Outputs.draw s.draws)).calendar = calendarOf img := by
  obtain ⟨t, ht, -, -, hsec, hmins, hhour, hmday, hwday, hmon, hyear, -, -⟩ := tbUnpackResult img s
  obtain rfl := eq_of_exec ht
  simp only [evaluated_outputs, outputsOf] at hsec hmins hhour hmday hwday hmon hyear
  simp [Outputs.calendar, calendarOf, hsec, hmins, hhour, hmday, hwday, hmon, hyear]

/-- A 7-byte read as an image: byte `k` is the register's at `reg + k` (R50). -/
theorem byteAt_readBytes (d : Device) (draw reg : Nat) {k : Nat} (hk : k < 7) :
    byteAt (BitVec.ofNat 56 (bytesNumber (d.readBytes draw reg 7))) k = (d.readByte draw (reg + k)).toNat := by
  have hlen := readBytes_length (d := d) draw reg 7
  have hlt := bytesNumber_lt (d.readBytes draw reg 7)
  rw [hlen] at hlt
  have hbyte := readBytes_getElem? (d := d) draw reg 7 k hk
  rw [List.getElem?_eq_getElem (by omega)] at hbyte
  rw [byteAt, BitVec.toNat_ofNat, Nat.mod_eq_of_lt (b := 2 ^ 56) hlt, bytesNumber_byte _ k (by omega), Option.some.inj hbyte]

/-- Settles O48: the read, TB_UNPACK and its calendar outputs; a failed read ends the call before TB_UNPACK. -/
theorem getTimeSequence : Obligations.GetTimeSequence := by
  intro s ok rest hs ho hb
  have m1 := makes_start hs ho
  have h1 := runs_start (c := .getTime) rfl ho hb
  refine ⟨?read, ?failed⟩ <;> rintro rfl
  case read =>
    obtain ⟨t2, m2, h2⟩ := h1.read rfl (by decide) (.inr rfl)
    obtain ⟨t3, m3, h3⟩ := h2.block rfl (assemble_tbUnpack _ (readBytes_length ..))
    obtain ⟨t4, m4, h4, -⟩ := h3.ret rfl
    have hall := m1.trans (m2.trans (m3.trans m4))
    refine ⟨_, t4, hall.run, fun k hk => byteAt_readBytes s.device s.draws 2 hk, ?_, hall.log,
      hall.keeps_others (List.Subset.refl _)⟩
    rw [← calendar_tbUnpackOut _ t2]
    exact h4
  case failed =>
    obtain ⟨t2, m2, h2, o2, d2⟩ := h1.read_fails rfl (by decide) rfl
    have hall := m1.trans m2
    exact ⟨t2, hall.run, h2, o2, hall.log, d2⟩

/-- Settles O49: TB_PACK and the write of its image, which is all the call does with its transaction's result. -/
theorem setTimeSequence : Obligations.SetTimeSequence := by
  intro s c ok rest hf hs ho hb
  have h1 := runs_start (c := .setTime c) (decide_eq_true hf) ho hb
  obtain ⟨t2, m2, h2⟩ := h1.block (i := packOf c) rfl (assemble_tbPack c hf)
  rw [startCall_draws] at h2
  have m12 := (makes_start hs ho).trans m2
  refine ⟨_, exec_eq_evaluated (packOf c) s, ?written, ?failed⟩ <;> rintro rfl
  case written =>
    obtain ⟨t3, m3, h3, w3⟩ := h2.write (es := (List.range 7).map (portByte .imgO)) rfl (map_portByte_imgO _ _) (by decide)
      (.inr rfl)
    obtain ⟨t4, m4, h4, -⟩ := h3.ret rfl
    have hall := m12.trans (m3.trans m4)
    refine ⟨t4, hall.run, h4, hall.log, fun k hk => ?_, hall.keeps_others (List.Subset.refl _)⟩
    have hbyte (img : Image) : ((List.range 7).map (imgByte img))[k]? = some (imgByte img k) := by simp [hk]
    exact m4.stays_known ((w3 rfl).1 k _ (hbyte _)) (show 2 + k ∉ [] by simp)
  case failed =>
    obtain ⟨t3, m3, h3, l3⟩ := h2.write_fails (es := (List.range 7).map (portByte .imgO)) rfl (map_portByte_imgO _ _)
      (by decide) rfl
    have hall := m12.trans m3
    refine ⟨t3, hall.run, h3, hall.log, fun k hk => (l3 (2 + k)).trans (if_pos ?_), hall.keeps_others (List.Subset.refl _)⟩
    simp
    omega

end Sys2Proof.Machine
end

section
/-!
Proofs, the repeated read. Under `Quiet` (R125; 92 D17) a read leaves each register it reached known, with the byte it read.
-/
namespace Sys2Proof.Machine

open Sys2Proof.Claims

section device
variable {d : Device}

/-- What a register reads as depends on the device's content at that register and on `Quiet` only. -/
theorem readByte_congr {e : Device} {a : Nat} (hq : e.quiet = d.quiet) (hl : lookup e.regs a = lookup d.regs a)
    (draw : Nat) : e.readByte draw a = d.readByte draw a := by
  simp only [Device.readByte, Device.volatileBits, hq, hl]

/-- Under `Quiet` a register is known after its read, with the byte read: its content, or the free byte (log entry 8). -/
theorem lookup_afterRead_same {a : Nat} (hq : d.quiet = true) (ha : Holds a) (draw : Nat) :
    lookup (d.afterRead draw a).regs a = some (d.readByte draw a) := by
  cases hl : lookup d.regs a with
  | none =>
    rw [Device.afterRead, if_pos ⟨hq, hl⟩, lookup_writeByte, if_pos ⟨ha, rfl⟩, readByte_of_unknown hl, Memory.unlisted]
  | some b => rw [afterRead_known hl, readByte_of_known hq hl, hl]

/-- Under `Quiet` each register of a read is known afterwards, with the byte read. -/
theorem lookup_afterReads_inside {reg n a : Nat} (hq : d.quiet = true) (hlo : reg ≤ a) (hhi : a < reg + n) (ha : Holds a)
    (draw : Nat) : lookup (d.afterReads draw reg n).regs a = some (d.readByte draw a) := by
  induction n generalizing d reg with
  | zero => omega
  | succ n ih =>
    rw [Device.afterReads]
    obtain rfl | hne := eq_or_ne a reg
    · rw [lookup_afterReads_outside _ _ _ _ (by omega), lookup_afterRead_same hq ha]
    · have hsame : lookup (d.afterRead draw reg).regs a = lookup d.regs a :=
        lookup_afterReads_outside draw reg 1 a (by omega)
      rw [ih (by rwa [afterRead_quiet]) (by omega) (by omega), readByte_congr (afterRead_quiet ..) hsame]

end device

/-- Settles O37: the first read makes its registers known with the bytes it gives, and under `Quiet` known registers read
as their contents (O36). -/
theorem quietReadsRepeat : Obligations.QuietReadsRepeat := by
  intro d draw draw' reg n hq hin
  have hknown (i : Nat) (b : Byte) (hb : (d.readBytes draw reg n)[i]? = some b) :
      lookup (d.afterReads draw reg n).regs (reg + i) = some b := by
    have hi : i < n := readBytes_length (d := d) draw reg n ▸ (List.getElem?_eq_some_iff.1 hb).1
    rw [lookup_afterReads_inside hq (by omega) (by omega) (hin i hi), ← readBytes_getElem? draw reg n i hi, hb]
  have hread := (quietReadsGiveTheRegisters _ draw' reg _ ((afterReads_quiet ..).trans hq) hknown).1
  rwa [readBytes_length] at hread

end Sys2Proof.Machine
end

section
/-! The reset family of statements: the state after power-up, a host created anew, and the queueing of a call
(spec/70_reset_and_hazards.md R130, R131; R37, R58). -/

namespace Sys2Proof.Machine

section inv
variable {s : State}

/-- A host created anew has no call, no program and no pin: of the invariant only the device's part is left (R131). -/
theorem restartHost_inv_of_canonical (h : s.device.Canonical) (cfg : ControllerConfig) : (s.restartHost cfg).Inv := by
  obtain ⟨hwf, hin⟩ := h
  exact ⟨hwf, hin, List.forall_mem_nil _, fun _ e => (Option.some_ne_none _ e.symm).elim, List.Pairwise.nil⟩

/-- A queued call joins the end of the waiting calls, so it is all that the invariant has to be checked of. -/
theorem call_inv (h : s.Inv) {c : HostCall} (hc : c.wf = true) : (s.call c).Inv := by
  obtain ⟨hwf, hin, hreq, hact, hpins⟩ := h
  exact ⟨hwf, hin, List.forall_mem_append.2 ⟨hreq, List.forall_mem_singleton.2 hc⟩, hact, hpins⟩

end inv

/-! ### Power-up -/

/-- The ports present BCD_DEC of 0x00 at power-up (R130; log entry 3). -/
theorem decode_reset_inputs : decode State.reset.inputs = .ok (.bcdDec 0) := decode_of_code (m := .bcdDec) rfl

theorem reset_outputs : State.reset.outputs = blockOutputs State.reset.inputs 0 := by
  rw [blockOutputs, decode_reset_inputs]
  rfl

/-- At power-up the device lists no register, and the host is as one created anew. -/
theorem reset_inv : State.reset.Inv :=
  have hcanon : State.reset.device.Canonical := ⟨List.Pairwise.nil, List.forall_mem_nil _⟩
  restartHost_inv_of_canonical hcanon State.reset.host.config

/-- Settles O1: the reset outputs are those of the operation on the ports, BCD_DEC, which raises nothing, and the device
lists no register. -/
theorem resetOutputsFollowInputs : Obligations.ResetOutputsFollowInputs :=
  ⟨reset_outputs, rfl, rfl, fun _ => rfl, rfl, rfl⟩

/-- Settles O30: the reset outputs are settled on draw 0, and a new host needs of the invariant the device's part only. -/
theorem resetMeetsInvariant : Obligations.ResetMeetsInvariant := by
  refine ⟨reset_inv, ⟨0, Nat.one_pos, reset_outputs⟩, fun s c h hc => call_inv h hc, fun s cfg h => ⟨?_, rfl⟩⟩
  obtain ⟨hwf, hin, -⟩ := h
  exact restartHost_inv_of_canonical ⟨hwf, hin⟩ cfg

end Sys2Proof.Machine
end
